-- ==== Sys2Proof/Word.lean ====
section
/-! DEFINITION. The units of data of the core (spec/00_scope.md R7 and R9): bytes, 32-bit words and byte
sequences. A length or an index is a plain natural number, computed without wrap-around (R8). -/

namespace Sys2Proof

/-- A byte: 8 bits, bit 0 the least significant (R7). -/
abbrev Byte := BitVec 8

/-- A word: 32 bits, `XLEN` = 32, the width of every word register (R5, R7, R51). -/
abbrev Word := BitVec 32

/-- A byte sequence, first byte first (R9). -/
abbrev Bytes := List (BitVec 8)

end Sys2Proof
end

