-- ==== Sys2Proof/Config.lean ====
section
/-! DEFINITION. The parameters of the core (spec/00_scope.md R5 and R6) and the values the spec leaves
unspecified (spec/93_implementation_defined.md U1). An unspecified value is a FREE VALUE: an opaque constant
with no body, applied to a counter in the state that moves on at each draw, so that nothing can be proved of
the value and two draws need not agree. -/

namespace Sys2Proof

/-- The four byte windows of the core, each an address space of its own (R50). The fifth space, `REG`, is
the registers themselves. -/
inductive Space where
  /-- The key window, 32 bytes (R21). -/
  | key
  /-- The IV window, 16 bytes (R23). -/
  | iv
  /-- The input buffer IN, `CAP` bytes (R26). -/
  | inp
  /-- The output buffer OUT, `CAP` bytes (R28). -/
  | out
deriving DecidableEq, Repr

namespace Config

/-- `BLOCK`: the cipher block size and the padding block size in bytes (R5). -/
abbrev BLOCK : Nat := 16
/-- `KEYBYTES`: the key length in bytes (R5). -/
abbrev KEYBYTES : Nat := 32
/-- `IVBYTES`: the IV length in bytes (R5). -/
abbrev IVBYTES : Nat := 16
/-- `NK`: the key length in key words (R5). -/
abbrev NK : Nat := 8
/-- `NB`: the block length in key words (R5). -/
abbrev NB : Nat := 4
/-- `NR`: the number of AES rounds (R5). -/
abbrev NR : Nat := 14
/-- `DELIM`: the byte `:` between the hex IV and the hex ciphertext (R5). -/
abbrev DELIM : Byte := 0x3A#8

/-- The open parameter `CAP` of the RESET STATE's instance: 256, the smallest value R6 admits and the one the
vectors of spec/95_test_vectors.md use. DESIGN CHOICE (notes/assumptions/2.md), safe: a state carries its own
`CAP` in the hardwired register `CAPR` (spec/10_state.md R35), so that whatever is stated of every state
holds for every `CAP`; only `State.reset` is this one instance. -/
def resetCap : Nat := 256

/-- Which of the platform's blocks of 2^26 bytes the core stands in. No value is known: it is the platform's
choice (R6, R52), and no rule depends on it. -/
opaque baseBlock : Nat

/-- The open parameter `BASE`: a multiple of 2^26 (R6). -/
def BASE : Nat := baseBlock * 2 ^ 26

/-! ### Free values (notes/assumptions/1.md and 4.md)

None of these has a body. The first argument is always the state's counter `draws`, which moves on at every
draw; `held` is what the four windows list at that moment, in the order KEY, IV, IN, OUT, for an unspecified
value need not be unrelated to the key or to the data (U1). -/

/-- An unspecified byte of a window, drawn at draw number `draw` for index `i` of window `sp` (U1 to U5). -/
opaque freeByte (draw : Nat) (held : List (List (Nat × Byte))) (sp : Space) (i : Nat) : BitVec 8

/-- An unspecified word: `OUT_LEN` between launch and completion (U4). -/
opaque freeWord (draw : Nat) (held : List (List (Nat × Byte))) : BitVec 32

/-- How many host steps pass between the launch of the word `command` and the core's completion step: finite,
and not specified otherwise; it may depend on the command, on the declared lengths and on the data (U11,
spec/30_encoding.md R86, spec/70_reset_and_hazards.md R275). -/
opaque freeLatency (draw : Nat) (held : List (List (Nat × Byte))) (command : Word)
  (lengths : List Word) : Nat

end Config

end Sys2Proof
end

