-- ==== Sys2Proof/Syntax.lean ====
section
/-! DEFINITION. The ten commands of the core (spec/30_encoding.md R81), one constructor per row of
spec/opcode_table.json. No command carries an operand: every operand is implicit (R82). -/

namespace Sys2Proof

/-- A command of the core, in the order of the opcode map (R81). -/
inductive Instr where
  /-- HEXENC, 0x01: encode the input as lowercase hex text (R104). -/
  | hexenc
  /-- HEXDEC, 0x02: decode hex text to bytes (R105). -/
  | hexdec
  /-- PAD, 0x03: append PKCS#7 padding (R122). -/
  | pad
  /-- UNPAD, 0x04: check and remove PKCS#7 padding (R123). -/
  | unpad
  /-- CIPHENC, 0x05: AES-256-CBC encryption, no padding (R173). -/
  | ciphenc
  /-- CIPHDEC, 0x06: AES-256-CBC decryption, no padding (R174). -/
  | ciphdec
  /-- ENCRYPT, 0x07: pad, then encrypt (R190). -/
  | encrypt
  /-- DECRYPT, 0x08: decrypt, then unpad (R191). -/
  | decrypt
  /-- ENCRYPTX, 0x09: ENCRYPT delivered as hex IV, colon, hex ciphertext (R192). -/
  | encryptx
  /-- DECRYPTX, 0x0A: decrypt the text hex IV, colon, hex ciphertext (R193). -/
  | decryptx
deriving DecidableEq, Repr

end Sys2Proof
end

