-- ==== Sys2Proof/WellFormed.lean ====
section
/-! DEFINITION. Well-formedness. A command has no operand (spec/30_encoding.md R82), so every `Instr` is well
formed; what can be ill formed is a command WORD (R80, R90), the value of the open parameter `CAP`
(spec/00_scope.md R6), and the operand of a key or IV load in a host script (R93). -/

namespace Sys2Proof

/-- Every command is well formed: no command word carries an operand (R82). -/
def Instr.wf : Instr → Bool
  | .hexenc | .hexdec | .pad | .unpad | .ciphenc | .ciphdec
  | .encrypt | .decrypt | .encryptx | .decryptx => true

/-- The `ZERO` field, bits 31:8, is 0x000000 (R80). -/
def zeroFieldOk (w : Word) : Bool := w.toNat / 256 == 0

/-- The `OPC` field, bits 7:0, is one of the ten opcodes 0x01 to 0x0A (R81, R90). -/
def opcodeOk (w : Word) : Bool := 1 ≤ w.toNat % 256 && w.toNat % 256 ≤ 10

/-- A legal command word (R80, R81, R90). -/
def wordOk (w : Word) : Bool := zeroFieldOk w && opcodeOk w

/-- The range of the open parameter: 256 <= `CAP` <= 2^24 (R6). -/
def capOk (cap : Nat) : Bool := 256 ≤ cap && cap ≤ 2 ^ 24

/-- The operand of `ldkey` is 32 bytes (R93). -/
def keyLoadOk (k : Bytes) : Bool := k.length == Config.KEYBYTES

/-- The operand of `ldiv` is 16 bytes (R93). -/
def ivLoadOk (v : Bytes) : Bool := v.length == Config.IVBYTES

end Sys2Proof
end

