-- ==== Sys2Proof/Decode.lean ====
section
/-! DEFINITION. Decoding and encoding of the command word (spec/30_encoding.md R80 to R83). Decoding is total
on all 2^32 words; a word that is no command is rejected with the name of the check it fails, and launching
it is a command that completes with `E_ILLEGAL_CMD` (R90). The core fetches no bytes (spec/10_state.md R36):
the unit of decoding is the whole 32-bit word that one `wr32` moved (R80, spec/20_memory.md R61). -/

namespace Sys2Proof

/-- Why a command word is illegal (R90). -/
inductive DecodeError where
  /-- A bit of the `ZERO` field 31:8 is not 0. -/
  | nonZeroField
  /-- `ZERO` is 0 and `OPC` is 0x00 or 0x0B to 0xFF. -/
  | unassignedOpcode
deriving DecidableEq, Repr

/-- The `OPC` field, bits 7:0 (R80). -/
def opcField (w : Word) : Byte := w.extractLsb' 0 8

/-- The `ZERO` field, bits 31:8 (R80). -/
def zeroField (w : Word) : BitVec 24 := w.extractLsb' 8 24

/-- The opcode map, read from opcode to command (R81, R83). -/
def decodeOpcode (opc : Byte) : Option Instr :=
  match opc.toNat with
  | 0x01 => some .hexenc
  | 0x02 => some .hexdec
  | 0x03 => some .pad
  | 0x04 => some .unpad
  | 0x05 => some .ciphenc
  | 0x06 => some .ciphdec
  | 0x07 => some .encrypt
  | 0x08 => some .decrypt
  | 0x09 => some .encryptx
  | 0x0A => some .decryptx
  | _ => none

/-- `Decode(w)` (R83). -/
def decode (w : Word) : Except DecodeError Instr :=
  if zeroField w ≠ 0#24 then .error .nonZeroField
  else match decodeOpcode (opcField w) with
    | some i => .ok i
    | none => .error .unassignedOpcode

/-- The opcode of a command, from the table of R81. -/
def opcode : Instr → Byte
  | .hexenc => 0x01#8
  | .hexdec => 0x02#8
  | .pad => 0x03#8
  | .unpad => 0x04#8
  | .ciphenc => 0x05#8
  | .ciphdec => 0x06#8
  | .encrypt => 0x07#8
  | .decrypt => 0x08#8
  | .encryptx => 0x09#8
  | .decryptx => 0x0A#8

/-- The command word of a command: `ZERO` = 0x000000 above `OPC` (R80, R81). -/
def encode (i : Instr) : Word := 0x000000#24 ++ opcode i

/-- The command this decoder reads from a table word of `nbits` bits. The core has one format of 32 bits
(R80), so the bits above `nbits` are 0 and a wider value is no command word. -/
def decodeTableWord (nbits w : Nat) : Option Instr :=
  if w % 2 ^ nbits < 2 ^ 32 then
    match decode (BitVec.ofNat 32 (w % 2 ^ nbits)) with
    | .ok i => some i
    | .error _ => none
  else none

end Sys2Proof
end

