-- ==== Sys2Proof/Machine/Aes.lean ====
section
/-! DEFINITION. The AES-256 block cipher (spec/42_aes256_block.md R140 to R153): the field GF(2^8), the two
S-boxes, the key expansion, the round transformations and the two block functions. Every function here is
a total function on byte sequences (R14); none reads or writes the state of the core (R17). A block and the
cipher's state are flat sequences of 16 bytes in the order of the input block (R144); a key word is a
sequence of 4 bytes, never a 32-bit number (R145). -/

namespace Sys2Proof.Machine

/-! ### The field GF(2^8) (R140) -/

/-- `xtime`: multiplication by x modulo x^8 + x^4 + x^3 + x + 1 (R140). -/
def xtime (a : Byte) : Byte :=
  if a.getLsbD 7 then (a <<< 1) ^^^ 0x1B#8 else a <<< 1

/-- `xtime^k` (R140). -/
def xtimePow : Nat → Byte → Byte
  | 0, a => a
  | k + 1, a => xtime (xtimePow k a)

/-- The product `a • b`: the exclusive or, over every bit k of b that is 1, of `xtime^k(a)` (R140). -/
def gfMul (a b : Byte) : Byte :=
  (List.range 8).foldl (fun acc k => if b.getLsbD k then acc ^^^ xtimePow k a else acc) 0#8

/-- The multiple `0x02 • a` in the form R140 lists it. -/
def mul02 (a : Byte) : Byte := xtime a
/-- The multiple `0x03 • a` in the form R140 lists it. -/
def mul03 (a : Byte) : Byte := xtime a ^^^ a
/-- The multiple `0x09 • a` in the form R140 lists it. -/
def mul09 (a : Byte) : Byte := xtimePow 3 a ^^^ a
/-- The multiple `0x0B • a` in the form R140 lists it. -/
def mul0B (a : Byte) : Byte := xtimePow 3 a ^^^ xtime a ^^^ a
/-- The multiple `0x0D • a` in the form R140 lists it. -/
def mul0D (a : Byte) : Byte := xtimePow 3 a ^^^ xtimePow 2 a ^^^ a
/-- The multiple `0x0E • a` in the form R140 lists it. -/
def mul0E (a : Byte) : Byte := xtimePow 3 a ^^^ xtimePow 2 a ^^^ xtime a

/-! ### The S-box and its inverse (R141, R142) -/

/-- Rows 0x to 7x of the table of R141, each row as the table prints it. -/
def sboxRowsLow : List Bytes :=
  [[0x63, 0x7c, 0x77, 0x7b, 0xf2, 0x6b, 0x6f, 0xc5, 0x30, 0x01, 0x67, 0x2b, 0xfe, 0xd7, 0xab, 0x76],
   [0xca, 0x82, 0xc9, 0x7d, 0xfa, 0x59, 0x47, 0xf0, 0xad, 0xd4, 0xa2, 0xaf, 0x9c, 0xa4, 0x72, 0xc0],
   [0xb7, 0xfd, 0x93, 0x26, 0x36, 0x3f, 0xf7, 0xcc, 0x34, 0xa5, 0xe5, 0xf1, 0x71, 0xd8, 0x31, 0x15],
   [0x04, 0xc7, 0x23, 0xc3, 0x18, 0x96, 0x05, 0x9a, 0x07, 0x12, 0x80, 0xe2, 0xeb, 0x27, 0xb2, 0x75],
   [0x09, 0x83, 0x2c, 0x1a, 0x1b, 0x6e, 0x5a, 0xa0, 0x52, 0x3b, 0xd6, 0xb3, 0x29, 0xe3, 0x2f, 0x84],
   [0x53, 0xd1, 0x00, 0xed, 0x20, 0xfc, 0xb1, 0x5b, 0x6a, 0xcb, 0xbe, 0x39, 0x4a, 0x4c, 0x58, 0xcf],
   [0xd0, 0xef, 0xaa, 0xfb, 0x43, 0x4d, 0x33, 0x85, 0x45, 0xf9, 0x02, 0x7f, 0x50, 0x3c, 0x9f, 0xa8],
   [0x51, 0xa3, 0x40, 0x8f, 0x92, 0x9d, 0x38, 0xf5, 0xbc, 0xb6, 0xda, 0x21, 0x10, 0xff, 0xf3, 0xd2]]

/-- Rows 8x to fx of the table of R141, each row as the table prints it. -/
def sboxRowsHigh : List Bytes :=
  [[0xcd, 0x0c, 0x13, 0xec, 0x5f, 0x97, 0x44, 0x17, 0xc4, 0xa7, 0x7e, 0x3d, 0x64, 0x5d, 0x19, 0x73],
   [0x60, 0x81, 0x4f, 0xdc, 0x22, 0x2a, 0x90, 0x88, 0x46, 0xee, 0xb8, 0x14, 0xde, 0x5e, 0x0b, 0xdb],
   [0xe0, 0x32, 0x3a, 0x0a, 0x49, 0x06, 0x24, 0x5c, 0xc2, 0xd3, 0xac, 0x62, 0x91, 0x95, 0xe4, 0x79],
   [0xe7, 0xc8, 0x37, 0x6d, 0x8d, 0xd5, 0x4e, 0xa9, 0x6c, 0x56, 0xf4, 0xea, 0x65, 0x7a, 0xae, 0x08],
   [0xba, 0x78, 0x25, 0x2e, 0x1c, 0xa6, 0xb4, 0xc6, 0xe8, 0xdd, 0x74, 0x1f, 0x4b, 0xbd, 0x8b, 0x8a],
   [0x70, 0x3e, 0xb5, 0x66, 0x48, 0x03, 0xf6, 0x0e, 0x61, 0x35, 0x57, 0xb9, 0x86, 0xc1, 0x1d, 0x9e],
   [0xe1, 0xf8, 0x98, 0x11, 0x69, 0xd9, 0x8e, 0x94, 0x9b, 0x1e, 0x87, 0xe9, 0xce, 0x55, 0x28, 0xdf],
   [0x8c, 0xa1, 0x89, 0x0d, 0xbf, 0xe6, 0x42, 0x68, 0x41, 0x99, 0x2d, 0x0f, 0xb0, 0x54, 0xbb, 0x16]]

/-- Rows 0x to 7x of the table of R142, each row as the table prints it. -/
def invSboxRowsLow : List Bytes :=
  [[0x52, 0x09, 0x6a, 0xd5, 0x30, 0x36, 0xa5, 0x38, 0xbf, 0x40, 0xa3, 0x9e, 0x81, 0xf3, 0xd7, 0xfb],
   [0x7c, 0xe3, 0x39, 0x82, 0x9b, 0x2f, 0xff, 0x87, 0x34, 0x8e, 0x43, 0x44, 0xc4, 0xde, 0xe9, 0xcb],
   [0x54, 0x7b, 0x94, 0x32, 0xa6, 0xc2, 0x23, 0x3d, 0xee, 0x4c, 0x95, 0x0b, 0x42, 0xfa, 0xc3, 0x4e],
   [0x08, 0x2e, 0xa1, 0x66, 0x28, 0xd9, 0x24, 0xb2, 0x76, 0x5b, 0xa2, 0x49, 0x6d, 0x8b, 0xd1, 0x25],
   [0x72, 0xf8, 0xf6, 0x64, 0x86, 0x68, 0x98, 0x16, 0xd4, 0xa4, 0x5c, 0xcc, 0x5d, 0x65, 0xb6, 0x92],
   [0x6c, 0x70, 0x48, 0x50, 0xfd, 0xed, 0xb9, 0xda, 0x5e, 0x15, 0x46, 0x57, 0xa7, 0x8d, 0x9d, 0x84],
   [0x90, 0xd8, 0xab, 0x00, 0x8c, 0xbc, 0xd3, 0x0a, 0xf7, 0xe4, 0x58, 0x05, 0xb8, 0xb3, 0x45, 0x06],
   [0xd0, 0x2c, 0x1e, 0x8f, 0xca, 0x3f, 0x0f, 0x02, 0xc1, 0xaf, 0xbd, 0x03, 0x01, 0x13, 0x8a, 0x6b]]

/-- Rows 8x to fx of the table of R142, each row as the table prints it. -/
def invSboxRowsHigh : List Bytes :=
  [[0x3a, 0x91, 0x11, 0x41, 0x4f, 0x67, 0xdc, 0xea, 0x97, 0xf2, 0xcf, 0xce, 0xf0, 0xb4, 0xe6, 0x73],
   [0x96, 0xac, 0x74, 0x22, 0xe7, 0xad, 0x35, 0x85, 0xe2, 0xf9, 0x37, 0xe8, 0x1c, 0x75, 0xdf, 0x6e],
   [0x47, 0xf1, 0x1a, 0x71, 0x1d, 0x29, 0xc5, 0x89, 0x6f, 0xb7, 0x62, 0x0e, 0xaa, 0x18, 0xbe, 0x1b],
   [0xfc, 0x56, 0x3e, 0x4b, 0xc6, 0xd2, 0x79, 0x20, 0x9a, 0xdb, 0xc0, 0xfe, 0x78, 0xcd, 0x5a, 0xf4],
   [0x1f, 0xdd, 0xa8, 0x33, 0x88, 0x07, 0xc7, 0x31, 0xb1, 0x12, 0x10, 0x59, 0x27, 0x80, 0xec, 0x5f],
   [0x60, 0x51, 0x7f, 0xa9, 0x19, 0xb5, 0x4a, 0x0d, 0x2d, 0xe5, 0x7a, 0x9f, 0x93, 0xc9, 0x9c, 0xef],
   [0xa0, 0xe0, 0x3b, 0x4d, 0xae, 0x2a, 0xf5, 0xb0, 0xc8, 0xeb, 0xbb, 0x3c, 0x83, 0x53, 0x99, 0x61],
   [0x17, 0x2b, 0x04, 0x7e, 0xba, 0x77, 0xd6, 0x26, 0xe1, 0x69, 0x14, 0x63, 0x55, 0x21, 0x0c, 0x7d]]

/-- The entry of a 16 by 16 table at the row of the high nibble and the column of the low nibble (R141). -/
def tableEntry (rows : List Bytes) (a : Byte) : Byte :=
  (rows.getD (a.toNat / 16) []).getD (a.toNat % 16) 0#8

/-- `SBOX` (R141: the table is normative). -/
def sbox (a : Byte) : Byte := tableEntry (sboxRowsLow ++ sboxRowsHigh) a

/-- `INVSBOX` (R142). -/
def invSbox (a : Byte) : Byte := tableEntry (invSboxRowsLow ++ invSboxRowsHigh) a

/-- `rotl8(b,k)`, the rotation in R141's check on its table. -/
def rotl8 (b : Byte) (k : Nat) : Byte := (b <<< k) ||| (b >>> (8 - k))

/-- The affine map `A` of R141's check on its table. -/
def sboxAffine (b : Byte) : Byte :=
  b ^^^ rotl8 b 1 ^^^ rotl8 b 2 ^^^ rotl8 b 3 ^^^ rotl8 b 4 ^^^ 0x63#8

/-! ### Key words and the key expansion (R145, R147) -/

/-- The exclusive or of two sequences of equal length, byte by byte (R10, R145). -/
def xorBytes (x y : Bytes) : Bytes := List.zipWith (fun a b => a ^^^ b) x y

/-- `RotWord` (R145). -/
def rotWord : Bytes → Bytes
  | a :: rest => rest ++ [a]
  | [] => []

/-- `SubWord` (R145). -/
def subWord (v : Bytes) : Bytes := v.map sbox

/-- `rc(j)` for j >= 1: `rc(1)` = 0x01 and `rc(j+1)` = `xtime(rc(j))` (R145). -/
def rc (j : Nat) : Byte := xtimePow (j - 1) 0x01#8

/-- The round constant word `RCON(j)` (R145). -/
def rcon (j : Nat) : Bytes := [rc j, 0x00#8, 0x00#8, 0x00#8]

/-- The word t of R147 that `w[i]` is made with, from `prev` = `w[i-1]`. -/
def scheduleTemp (i : Nat) (prev : Bytes) : Bytes :=
  if i % 8 = 0 then xorBytes (subWord (rotWord prev)) (rcon (i / 8))
  else if i % 8 = 4 then subWord prev
  else prev

/-- `w[i]` of R147, from the words before it, NEWEST FIRST: `w[i-1]` is at index 0 and `w[i-8]` at index 7. -/
def nextKeyWord (i : Nat) (newest : List Bytes) : Bytes :=
  xorBytes (newest.getD 7 []) (scheduleTemp i (newest.getD 0 []))

/-- The loop of R147: `n` more words from index `i`, over the words so far, newest first. -/
def expandWords : Nat → Nat → List Bytes → List Bytes
  | 0, _, newest => newest
  | n + 1, i, newest => expandWords n (i + 1) (nextKeyWord i newest :: newest)

/-- The key cut into words of 4 bytes: `w[i]` = `k[4i : 4i+4)` for i in 0..7 (R147). -/
def keyWords (k : Bytes) : List Bytes :=
  (List.range Config.NK).map (fun i => (k.drop (4 * i)).take 4)

/-- `KeyExpansion(k)`: the 60 key words `w[0..59]` (R147). -/
def keyExpansion (k : Bytes) : List Bytes :=
  (expandWords (Config.NB * (Config.NR + 1) - Config.NK) Config.NK (keyWords k).reverse).reverse

/-- The round key `RK(w, r)` = `w[4r] ++ w[4r+1] ++ w[4r+2] ++ w[4r+3]` (R147). -/
def roundKey (w : List Bytes) (r : Nat) : Bytes :=
  w.getD (4 * r) [] ++ w.getD (4 * r + 1) [] ++ w.getD (4 * r + 2) [] ++ w.getD (4 * r + 3) []

/-! ### The round transformations (R148 to R151) -/

/-- `AddRoundKey(s, w, r)` (R148). -/
def addRoundKey (s : Bytes) (w : List Bytes) (r : Nat) : Bytes := xorBytes s (roundKey w r)

/-- `SubBytes` (R149). -/
def subBytes (s : Bytes) : Bytes := s.map sbox

/-- `InvSubBytes` (R149). -/
def invSubBytes (s : Bytes) : Bytes := s.map invSbox

/-- Where each byte of `ShiftRows(s)` comes from: the flat order that R150 writes out. -/
def shiftRowsOrder : List Nat := [0, 5, 10, 15, 4, 9, 14, 3, 8, 13, 2, 7, 12, 1, 6, 11]

/-- Where each byte of `InvShiftRows(s)` comes from: the flat order that R150 writes out. -/
def invShiftRowsOrder : List Nat := [0, 13, 10, 7, 4, 1, 14, 11, 8, 5, 2, 15, 12, 9, 6, 3]

/-- `ShiftRows` (R150). -/
def shiftRows (s : Bytes) : Bytes := shiftRowsOrder.map (fun i => s.getD i 0#8)

/-- `InvShiftRows` (R150). -/
def invShiftRows (s : Bytes) : Bytes := invShiftRowsOrder.map (fun i => s.getD i 0#8)

/-- One column of `MixColumns` (R151). -/
def mixColumn (a0 a1 a2 a3 : Byte) : Bytes :=
  [mul02 a0 ^^^ mul03 a1 ^^^ a2 ^^^ a3,
   a0 ^^^ mul02 a1 ^^^ mul03 a2 ^^^ a3,
   a0 ^^^ a1 ^^^ mul02 a2 ^^^ mul03 a3,
   mul03 a0 ^^^ a1 ^^^ a2 ^^^ mul02 a3]

/-- One column of `InvMixColumns` (R151). -/
def invMixColumn (a0 a1 a2 a3 : Byte) : Bytes :=
  [mul0E a0 ^^^ mul0B a1 ^^^ mul0D a2 ^^^ mul09 a3,
   mul09 a0 ^^^ mul0E a1 ^^^ mul0B a2 ^^^ mul0D a3,
   mul0D a0 ^^^ mul09 a1 ^^^ mul0E a2 ^^^ mul0B a3,
   mul0B a0 ^^^ mul0D a1 ^^^ mul09 a2 ^^^ mul0E a3]

/-- `MixColumns`: each column of 4 bytes on its own (R151). -/
def mixColumns : Bytes → Bytes
  | a0 :: a1 :: a2 :: a3 :: rest => mixColumn a0 a1 a2 a3 ++ mixColumns rest
  | _ => []

/-- `InvMixColumns`: each column of 4 bytes on its own (R151). -/
def invMixColumns : Bytes → Bytes
  | a0 :: a1 :: a2 :: a3 :: rest => invMixColumn a0 a1 a2 a3 ++ invMixColumns rest
  | _ => []

/-! ### The block functions (R152, R153) -/

/-- One of the rounds 1 to 13 of `AesEncBlock` (R152). -/
def encRound (w : List Bytes) (s : Bytes) (r : Nat) : Bytes :=
  addRoundKey (mixColumns (shiftRows (subBytes s))) w r

/-- One of the rounds 13 to 1 of `AesDecBlock` (R153). -/
def decRound (w : List Bytes) (s : Bytes) (r : Nat) : Bytes :=
  invMixColumns (addRoundKey (invSubBytes (invShiftRows s)) w r)

/-- The numbers of the middle rounds, rising: 1 to 13 (R152). -/
def middleRounds : List Nat := (List.range (Config.NR - 1)).map (fun r => r + 1)

/-- `AesEncBlock(w, x)` (R152). -/
def aesEncBlock (w : List Bytes) (x : Bytes) : Bytes :=
  addRoundKey (shiftRows (subBytes (middleRounds.foldl (encRound w) (addRoundKey x w 0)))) w Config.NR

/-- `AesDecBlock(w, y)` (R153). -/
def aesDecBlock (w : List Bytes) (y : Bytes) : Bytes :=
  addRoundKey (invSubBytes (invShiftRows
    (middleRounds.reverse.foldl (decRound w) (addRoundKey y w Config.NR)))) w 0

end Sys2Proof.Machine
end

