-- ==== Sys2Proof/Machine/State.lean ====
section
/-! DEFINITION. The state of the machine as plain data (spec/10_state.md R20 to R44), the host's transactions
and script items (spec/20_memory.md R53, spec/30_encoding.md R92 and R93), the failure codes
(spec/60_exceptions.md R221), the two ways a run can stop, and the state after reset. -/

namespace Sys2Proof.Machine

/-- The failure codes (R221). The fourteen that the core raises and the three that are reserved. -/
inductive ECode where
  /-- 0x11 `E_HEX_ODD`: a hex string has odd length. -/
  | hexOdd
  /-- 0x12 `E_HEX_DIGIT`: a hex string of even length has a byte that is not a hex digit. -/
  | hexDigit
  /-- 0x13 `E_NO_DELIM`: no byte 0x3A in a combined input. -/
  | noDelim
  /-- 0x14 `E_LEN_BLOCK`: the data to cipher is empty or not a multiple of 16. -/
  | lenBlock
  /-- 0x21 `E_KEY_LEN`: `KEY_LEN` is not 32. -/
  | keyLen
  /-- 0x22 `E_IV_LEN`: the IV is not 16 bytes. -/
  | ivLen
  /-- 0x23 `E_INTERNAL`: reserved, never raised by the core (R177). -/
  | internal
  /-- 0x31 `E_PAD_EMPTY`: unpad of an empty input. -/
  | padEmpty
  /-- 0x32 `E_PAD_ZERO`: the last byte is 0x00. -/
  | padZero
  /-- 0x33 `E_PAD_OVER`: the last byte is greater than 16. -/
  | padOver
  /-- 0x34 `E_PAD_SHORT`: the input is shorter than the value of its last byte. -/
  | padShort
  /-- 0x35 `E_PAD_MISMATCH`: one of the last p bytes differs from p. -/
  | padMismatch
  /-- 0x41 `E_UTF8`: reserved for the host (R222). -/
  | utf8
  /-- 0x51 `E_IO`: reserved for the host (R222). -/
  | io
  /-- 0x61 `E_ILLEGAL_CMD`: the command word is not one of the ten. -/
  | illegalCmd
  /-- 0x71 `E_CAP_IN`: `IN_LEN` > `CAP`. -/
  | capIn
  /-- 0x72 `E_CAP_OUT`: the result would be longer than `CAP`. -/
  | capOut
deriving DecidableEq, Repr

/-- The seven word registers of the address space `REG` (R37, R52). -/
inductive Reg where
  /-- `CMD`, offset 0x00: write-only, the latch `CMDR` behind it (R30). -/
  | cmd
  /-- `STATUS`, offset 0x04 (R31). -/
  | status
  /-- `IN_LEN`, offset 0x08 (R27). -/
  | inLen
  /-- `OUT_LEN`, offset 0x0C (R29). -/
  | outLen
  /-- `KEY_LEN`, offset 0x10 (R22). -/
  | keyLen
  /-- `IV_LEN`, offset 0x14 (R24). -/
  | ivLen
  /-- `CAPR`, offset 0x18 (R35). -/
  | capr
deriving DecidableEq, Repr

/-- A host transaction (R53). Offsets are from `BASE`. The last constructor stands for an access of any other
width, which the spec does not admit (R58). -/
inductive Txn where
  /-- `rd32 off`, the triple (RD32, off) of R92. -/
  | rd32 (off : Nat)
  /-- `wr32 off, w`, the triple (WR32, off, w). -/
  | wr32 (off : Nat) (w : Word)
  /-- `rd8 off`, the triple (RD8, off). -/
  | rd8 (off : Nat)
  /-- `wr8 off, v`, the triple (WR8, off, v). -/
  | wr8 (off : Nat) (v : Byte)
  /-- An access of `bits` bits, a width that is neither 32 nor 8, such as 16 or 64 (R58). -/
  | otherWidth (bits : Nat) (off : Nat)
deriving DecidableEq, Repr

/-- What can come to the core from outside: a host transaction, one of the script items of R93 whose steps
depend on what the host reads, or the external reset (R260). -/
inductive Input where
  /-- One transaction of the host (R53). -/
  | txn (t : Txn)
  /-- The pseudo-instruction `wait`: `rd32 STATUS` again and again until bit 0 of the value read is 0 (R93). -/
  | await
  /-- The pseudo-instruction `rdout`: `rd32 OUT_LEN` giving n, then `rd8 OUT[i]` for i = 0..n-1 (R93). -/
  | rdout
  /-- The pseudo-instruction `mvout`: `rdout` giving bytes b, then `ldin b` (R93). -/
  | mvout
  /-- The second half of `mvout`, once its n bytes have been read: `ldin` of them (R93). -/
  | copyBack (n : Nat)
  /-- The external hardware reset (R260). -/
  | reset
deriving DecidableEq, Repr

/-- What a read returns to the host (R53). -/
inductive Reply where
  /-- The word a `rd32` returns. -/
  | word (w : Word)
  /-- The byte a `rd8` returns. -/
  | byte (b : Byte)
deriving DecidableEq, Repr

/-- The four byte windows (R50), each a list of (index, byte) pairs in the canonical form of `Memory.wf`
(Machine/Ops.lean). What an index that is not listed reads as is `unlisted` there. -/
structure Memory where
  /-- The window `KEY`, 32 bytes (R21). -/
  key : List Host.Cell
  /-- The window `IV`, 16 bytes (R23). -/
  iv : List Host.Cell
  /-- The window `IN`, `CAP` bytes (R26). -/
  inp : List Host.Cell
  /-- The window `OUT`, `CAP` bytes (R28). -/
  out : List Host.Cell
deriving DecidableEq, Repr

/-- The state: the architectural state of R20, all of it, and four fields of the model's own that hold the
host's side and the draws of unspecified values (notes/assumptions/1.md, 3.md, 4.md). -/
structure State where
  /-- The byte windows `KEY`, `IV`, `IN`, `OUT` (R21, R23, R26, R28). -/
  mem : Memory
  /-- `KEY_LEN`: the length the host declares for the key (R22). -/
  keyLen : BitVec 32
  /-- `IV_LEN`: the length the host declares for the IV (R24). -/
  ivLen : BitVec 32
  /-- `IN_LEN`: the number of valid bytes in IN (R27). -/
  inLen : BitVec 32
  /-- `OUT_LEN`: the length of the result (R29). -/
  outLen : BitVec 32
  /-- `CMDR`: the word of the command in flight, or of the last one launched (R30). -/
  cmdr : BitVec 32
  /-- `STATUS`: BUSY bit 0, DONE bit 1, ERR bit 2, ECODE bits 15:8 (R31). -/
  status : BitVec 32
  /-- `CAPR`: hardwired to the parameter `CAP` of this instance (R35). -/
  capr : BitVec 32
  /-- The model's own: what the host and the environment will still do, in order. -/
  inputs : List Input
  /-- The model's own: the values the host's reads have returned, newest first. -/
  replies : List Reply
  /-- The model's own: how many more host steps pass before the core completes the command in flight. -/
  latency : Nat
  /-- The model's own: the number of draws of unspecified values so far. -/
  draws : Nat
deriving DecidableEq, Repr

/-- Why the machine stops with a fault: for no reason. The core has no fault state and no stuck state (R236), a
failed command completes (R230), and a host access that is not admitted is refused (R58). So there is no
constructor, and nothing raises one. -/
inductive Fault where
deriving DecidableEq, Repr

/-- Why the machine refuses to go on. -/
inductive Refusal where
  /-- Raised by an arm of `exec` for a command that has no meaning in the model: none is left. Safe. -/
  | notModelled (mnemonic : String)
  /-- Raised by the host's transactions: an access at an offset that the map of R52 leaves unmapped, or that lies
  beyond the map (R58). Safe: the model stops where a platform's bus may go on. -/
  | unmapped (off : Nat)
  /-- Raised by the host's transactions: a byte access to a register (R58). Safe. -/
  | byteOfRegister (off : Nat)
  /-- Raised by the host's transactions: a word access to a window (R58). Safe. -/
  | wordOfWindow (off : Nat)
  /-- Raised by the host's transactions: a word access at an offset inside a register that is not its first
  byte (R58, R63). Safe. -/
  | misalignedWord (off : Nat)
  /-- Raised by the host's transactions: an access of another width, such as 16 or 64 bits (R58). Safe. -/
  | otherWidth (bits : Nat) (off : Nat)
deriving DecidableEq, Repr

/-- The state right after reset, with nothing placed (R44, R260). Every window lists nothing: IV then reads
0x00, and KEY, IN and OUT read unspecified. The instance is the one with `CAP` = 256 (notes/assumptions/2.md). -/
def State.reset : State where
  mem := { key := [], iv := [], inp := [], out := [] }
  keyLen := 0#32
  ivLen := 16#32
  inLen := 0#32
  outLen := 0#32
  cmdr := 0#32
  status := 0x00000000#32
  capr := BitVec.ofNat 32 Config.resetCap
  inputs := []
  replies := []
  latency := 0
  draws := 0

end Sys2Proof.Machine
end

