-- ==== Sys2Proof/Machine/Flags.lean ====
section
/-! DEFINITION. The status word: its fields (spec/10_state.md R31, R33), the failure codes in numbers
(spec/60_exceptions.md R221), and the values it takes at a launch, a success and a failure (R84, R87, R230). -/

namespace Sys2Proof.Machine

/-- The 8-bit value of a failure code: class in bits 7:4, cause in bits 3:0 (R221). -/
def ECode.code : ECode → Byte
  | .hexOdd => 0x11#8
  | .hexDigit => 0x12#8
  | .noDelim => 0x13#8
  | .lenBlock => 0x14#8
  | .keyLen => 0x21#8
  | .ivLen => 0x22#8
  | .internal => 0x23#8
  | .padEmpty => 0x31#8
  | .padZero => 0x32#8
  | .padOver => 0x33#8
  | .padShort => 0x34#8
  | .padMismatch => 0x35#8
  | .utf8 => 0x41#8
  | .io => 0x51#8
  | .illegalCmd => 0x61#8
  | .capIn => 0x71#8
  | .capOut => 0x72#8

/-- The class of a failure code: 1 Malformed Input, 2 Cryptographic Failure, 3 Padding Failure, 4 Encoding
Failure, 5 I/O Failure, 6 Illegal Command, 7 Capacity (R221). -/
def ECode.failureClass (c : ECode) : Nat := c.code.toNat / 16

/-- The codes the core can raise: all but the three reserved ones (R221, R222, R177). -/
def ECode.raisedByCore : ECode → Bool
  | .internal | .utf8 | .io => false
  | .hexOdd | .hexDigit | .noDelim | .lenBlock | .keyLen | .ivLen | .padEmpty | .padZero | .padOver
  | .padShort | .padMismatch | .illegalCmd | .capIn | .capOut => true

/-- `STATUS` while a command is in flight (R31, R84). -/
def statusBusy : Word := 0x00000001#32

/-- `STATUS` after a success (R31, R87). -/
def statusSuccess : Word := 0x00000002#32

/-- `STATUS` after a failure with code `c`: `0x00000006 + (c << 8)` (R31, R230). -/
def statusFailure (c : ECode) : Word := 0x00000006#32 + (c.code.setWidth 32 <<< 8)

/-- The bit `BUSY` of a status word, bit 0 (R31). -/
def busyBit (w : Word) : Bool := w.getLsbD 0
/-- The bit `DONE` of a status word, bit 1 (R31). -/
def doneBit (w : Word) : Bool := w.getLsbD 1
/-- The bit `ERR` of a status word, bit 2 (R31). -/
def errBit (w : Word) : Bool := w.getLsbD 2
/-- The field `ECODE` of a status word, bits 15:8 (R31). -/
def ecodeField (w : Word) : Byte := w.extractLsb' 8 8

/-- `STATUS.BUSY` (R31). -/
def State.busy (s : State) : Bool := busyBit s.status
/-- `STATUS.DONE` (R31). -/
def State.done (s : State) : Bool := doneBit s.status
/-- `STATUS.ERR` (R31). -/
def State.err (s : State) : Bool := errBit s.status
/-- `STATUS.ECODE` (R31). -/
def State.ecode (s : State) : Byte := ecodeField s.status

end Sys2Proof.Machine
end

