-- ==== Sys2Proof/Machine/Ops.lean ====
section
/-! DEFINITION. The named operations over the windows and the registers: reading and writing a byte of a
window, the draws of unspecified values, launch (spec/30_encoding.md R84), the two completions (R87 and
spec/60_exceptions.md R230), and the external reset (spec/70_reset_and_hazards.md R260). Failure completion,
`failWith`, is what stands in the place of taking an exception, and the next launch what stands in the place
of the return (R234). -/

namespace Sys2Proof.Machine

/-! ### Lists of cells -/

/-- The byte listed at an index, if one is. -/
def cellsLookup (i : Nat) : List Host.Cell → Option Byte
  | [] => none
  | (j, b) :: rest => if i = j then some b else cellsLookup i rest

/-- List a byte at an index, keeping the indices strictly rising. -/
def cellsPut (i : Nat) (b : Byte) : List Host.Cell → List Host.Cell
  | [] => [(i, b)]
  | (j, c) :: rest =>
    if i < j then (i, b) :: (j, c) :: rest
    else if i = j then (i, b) :: rest
    else (j, c) :: cellsPut i b rest

/-- Drop what is listed at an index. -/
def cellsErase (i : Nat) (cells : List Host.Cell) : List Host.Cell :=
  cells.filter (fun c => c.1 != i)

/-- The cells of a byte sequence laid down from index `i` upward. -/
def cellsFrom (i : Nat) : Bytes → List Host.Cell
  | [] => []
  | b :: rest => (i, b) :: cellsFrom (i + 1) rest

/-! ### The windows -/

/-- The number of bytes of a window on an instance with capacity `cap` (R50). -/
def windowSize (cap : Nat) : Space → Nat
  | .key => Config.KEYBYTES
  | .iv => Config.IVBYTES
  | .inp => cap
  | .out => cap

/-- What an index that a window does not list reads as: 0x00 for IV, whose reset value that is, and no
specified value for KEY, IN and OUT, whose reset values are unspecified (R44). -/
def unlisted : Space → Option Byte
  | .iv => some 0x00#8
  | .key | .inp | .out => none

/-- The cells of a window. -/
def Memory.cells (m : Memory) : Space → List Host.Cell
  | .key => m.key
  | .iv => m.iv
  | .inp => m.inp
  | .out => m.out

/-- The windows with the cells of one replaced. -/
def Memory.withCells (m : Memory) (sp : Space) (cells : List Host.Cell) : Memory :=
  match sp with
  | .key => { m with key := cells }
  | .iv => { m with iv := cells }
  | .inp => { m with inp := cells }
  | .out => { m with out := cells }

/-- The canonical form of one window: indices strictly rising, each inside the window, and no entry equal to
what an unlisted index reads as. -/
def cellsWf (size : Nat) (unl : Option Byte) (cells : List Host.Cell) : Bool :=
  decide (cells.Pairwise (fun a b => a.1 < b.1)) &&
    cells.all (fun c => decide (c.1 < size) && unl != some c.2)

/-- The canonical form of the windows on an instance with capacity `cap`. -/
def Memory.wf (cap : Nat) (m : Memory) : Bool :=
  cellsWf (windowSize cap .key) (unlisted .key) m.key &&
  cellsWf (windowSize cap .iv) (unlisted .iv) m.iv &&
  cellsWf (windowSize cap .inp) (unlisted .inp) m.inp &&
  cellsWf (windowSize cap .out) (unlisted .out) m.out

/-- Store one byte in a window and change nothing else, keeping the canonical form (R55, R56). -/
def Memory.store (m : Memory) (sp : Space) (i : Nat) (b : Byte) : Memory :=
  if unlisted sp = some b then m.withCells sp (cellsErase i (m.cells sp))
  else m.withCells sp (cellsPut i b (m.cells sp))

/-- The parameter `CAP` of this instance, from the hardwired `CAPR` (R35). -/
def State.cap (s : State) : Nat := s.capr.toNat

/-- The byte that the rules give to an index of a window, or none where they leave it unspecified. A byte of
OUT is specified only for an index below `OUT_LEN`, with `ERR` = 0, and not while a command is in flight
(R57, R59, R28). -/
def State.specifiedByte (s : State) : Space → Nat → Option Byte
  | .out, i =>
    if s.busy || s.err || !(decide (i < s.outLen.toNat)) then none else cellsLookup i s.mem.out
  | sp, i => (cellsLookup i (s.mem.cells sp)).or (unlisted sp)

/-- What the windows list: what an unspecified value may be made of (U1). -/
def Memory.held (m : Memory) : List (List Host.Cell) := [m.key, m.iv, m.inp, m.out]

/-- What a read of a byte of a window returns: the specified byte, or else a free value (U1). -/
def State.byteAt (s : State) (sp : Space) (i : Nat) : Byte :=
  (s.specifiedByte sp i).getD (Config.freeByte s.draws s.mem.held sp i)

/-- The bytes `W[0:n)` of a window (R11). -/
def State.bytesAt (s : State) (sp : Space) (n : Nat) : Bytes :=
  (List.range n).map (s.byteAt sp)

/-! ### Launch and completion -/

/-- Launch of the command word `w` (R84), performed while `BUSY` = 0. `OUT` and `OUT_LEN` become unspecified,
the outcome of the previous command is lost (R34), and the number of host steps before the completion is
drawn (notes/assumptions/4.md). This is also what stands in the place of the return from an exception
(R234): it clears DONE, ERR and ECODE. -/
def State.launch (s : State) (w : Word) : State :=
  { s with
    cmdr := w
    status := statusBusy
    outLen := Config.freeWord s.draws s.mem.held
    mem := s.mem.withCells .out []
    latency := Config.freeLatency s.draws s.mem.held w [s.inLen, s.keyLen, s.ivLen]
    draws := s.draws + 1 }

/-- The effect of `succeed(r)` at completion (R87): `OUT[0:len(r))` is r, the rest of OUT is unspecified. -/
def State.succeedWith (s : State) (r : Bytes) : State :=
  { s with
    mem := s.mem.withCells .out (cellsFrom 0 r)
    outLen := BitVec.ofNat 32 r.length
    status := statusSuccess
    draws := s.draws + 1 }

/-- The effect of `fail(c)` at completion (R230), which takes the place of taking an exception: the code is
recorded in STATUS, `OUT_LEN` is 0, every byte of OUT is unspecified, and nothing else changes. -/
def State.failWith (s : State) (c : ECode) : State :=
  { s with
    mem := s.mem.withCells .out []
    outLen := 0#32
    status := statusFailure c
    draws := s.draws + 1 }

/-- The completion with a command's outcome, `succeed(r)` or `fail(c)` (R13, R86). -/
def State.complete (s : State) : Except ECode Bytes → State
  | .ok r => s.succeedWith r
  | .error c => s.failWith c

/-- The external reset, in any state (R260, R261). A command in flight is abandoned. KEY, IN and OUT become
unspecified, which includes what was there before. `CAPR` is hardwired; the host's side goes on. -/
def State.hardReset (s : State) : State :=
  { s with
    mem := { key := [], iv := [], inp := [], out := [] }
    keyLen := 0#32
    ivLen := 16#32
    inLen := 0#32
    outLen := 0#32
    cmdr := 0#32
    status := 0x00000000#32
    latency := 0
    draws := s.draws + 1 }

end Sys2Proof.Machine
end

