-- ==== Sys2Proof/Machine/Operands.lean ====
section
/-! DEFINITION. The implicit operands of a command (spec/10_state.md R25, spec/30_encoding.md R82), read once
from the state, and the common frame of every command (R89). A command's own rule is a function from the
operands to an outcome (spec/00_scope.md R13), so that no outcome can depend on anything else (R40). -/

namespace Sys2Proof.Machine

/-- What a command can read (R40). -/
structure Operands where
  /-- `INPUT` = `IN[0:IN_LEN)` (R11). -/
  input : Bytes
  /-- `IN_LEN` (R27). -/
  inLen : Nat
  /-- `KEYV` = `KEY[0:32)` (R11). -/
  keyv : Bytes
  /-- `KEY_LEN` (R22). -/
  keyLen : Nat
  /-- `IVV` = `IV[0:16)` (R11). -/
  ivv : Bytes
  /-- `IV_LEN` (R24). -/
  ivLen : Nat
  /-- `CAP` (R6). -/
  cap : Nat
deriving DecidableEq, Repr

/-- The operands as they stand in the state (R11, R82, R86). -/
def State.operands (s : State) : Operands where
  input := s.bytesAt .inp s.inLen.toNat
  inLen := s.inLen.toNat
  keyv := s.bytesAt .key Config.KEYBYTES
  keyLen := s.keyLen.toNat
  ivv := s.bytesAt .iv Config.IVBYTES
  ivLen := s.ivLen.toNat
  cap := s.cap

/-- The outcome of a legal command under the common frame: the input capacity check comes first, and no byte
of IN is read when it fails (R89, R228). -/
def commandOutcome (rule : Operands → Except ECode Bytes) (s : State) : Except ECode Bytes :=
  if s.inLen.toNat > s.cap then .error .capIn else rule s.operands

/-- The completion of a legal command whose own rule is `rule` (R86, R89). -/
def runCommand (rule : Operands → Except ECode Bytes) (s : State) :
    Host.Outcome State Fault Refusal :=
  .next (s.complete (commandOutcome rule s))

end Sys2Proof.Machine
end

