-- ==== Sys2Proof/Machine/Cipher.lean ====
section
/-! DEFINITION. AES-256 in CBC mode (spec/43_cbc_cipher.md R170, R171), the precondition of every cipher
operation (R172), and the two commands CIPHENC (R173) and CIPHDEC (R174). The chaining block starts from the
IV at every command and is dropped at its completion (R175). -/

namespace Sys2Proof.Machine

/-- The loop of `CbcEnc` over m blocks: chaining block `c`, input `x` (R170). -/
def cbcEncBlocks (w : List Bytes) : Nat → Bytes → Bytes → Bytes
  | 0, _, _ => []
  | m + 1, c, x =>
    let y := aesEncBlock w (xorBytes (x.take Config.BLOCK) c)
    y ++ cbcEncBlocks w m y (x.drop Config.BLOCK)

/-- `CbcEnc(k, v, x)` (R170). -/
def cbcEnc (k v x : Bytes) : Bytes :=
  cbcEncBlocks (keyExpansion k) (x.length / Config.BLOCK) v x

/-- The loop of `CbcDec` over m blocks: the chaining block is the CIPHERTEXT block before (R171). -/
def cbcDecBlocks (w : List Bytes) : Nat → Bytes → Bytes → Bytes
  | 0, _, _ => []
  | m + 1, c, y =>
    xorBytes (aesDecBlock w (y.take Config.BLOCK)) c ++
      cbcDecBlocks w m (y.take Config.BLOCK) (y.drop Config.BLOCK)

/-- `CbcDec(k, v, y)` (R171). -/
def cbcDec (k v y : Bytes) : Bytes :=
  cbcDecBlocks (keyExpansion k) (y.length / Config.BLOCK) v y

/-- `CipherCheck(n, klen, vlen)`: length, then key length, then IV length (R172). -/
def cipherCheck (n klen vlen : Nat) : Except ECode Unit :=
  if n = 0 ∨ n % Config.BLOCK ≠ 0 then .error .lenBlock
  else if klen ≠ Config.KEYBYTES then .error .keyLen
  else if vlen ≠ Config.IVBYTES then .error .ivLen
  else .ok ()

/-- The rule of CIPHENC (R173). -/
def ciphencRule (o : Operands) : Except ECode Bytes :=
  match cipherCheck o.inLen o.keyLen o.ivLen with
  | .error c => .error c
  | .ok () => .ok (cbcEnc o.keyv o.ivv o.input)

/-- The rule of CIPHDEC (R174). -/
def ciphdecRule (o : Operands) : Except ECode Bytes :=
  match cipherCheck o.inLen o.keyLen o.ivLen with
  | .error c => .error c
  | .ok () => .ok (cbcDec o.keyv o.ivv o.input)

/-- CIPHENC (R173). -/
def execCiphenc (s : State) : Host.Outcome State Fault Refusal := runCommand ciphencRule s

/-- CIPHDEC (R174). -/
def execCiphdec (s : State) : Host.Outcome State Fault Refusal := runCommand ciphdecRule s

end Sys2Proof.Machine
end

