-- ==== Sys2Proof/Machine/HexCodec.lean ====
section
/-! DEFINITION. The hex codec (spec/40_hex.md R100 to R103) and its two commands, HEXENC (R104) and HEXDEC
(R105). -/

namespace Sys2Proof.Machine

/-- `DIGIT(v)` for v in 0..15: the lowercase digit character of a nibble (R101). -/
def hexDigitChar (v : Byte) : Byte :=
  if v.toNat ≤ 9 then 0x30#8 + v else 0x61#8 + (v - 10#8)

/-- `HexEnc(b)`: two lowercase digits for each byte, high nibble first (R101). -/
def hexEnc : Bytes → Bytes
  | [] => []
  | b :: rest => hexDigitChar (b >>> 4) :: hexDigitChar (b &&& 0x0F#8) :: hexEnc rest

/-- `HexVal(c)`: the digit value of one of the 22 accepted character codes, or none (R100, R102). -/
def hexVal (c : Byte) : Option Byte :=
  if 0x30 ≤ c.toNat ∧ c.toNat ≤ 0x39 then some (c - 0x30#8)
  else if 0x41 ≤ c.toNat ∧ c.toNat ≤ 0x46 then some (c - 0x41#8 + 10#8)
  else if 0x61 ≤ c.toNat ∧ c.toNat ≤ 0x66 then some (c - 0x61#8 + 10#8)
  else none

/-- The byte of a pair of digit characters: `16 * HexVal(hi) + HexVal(lo)` (R103). -/
def hexPair (hi lo : Byte) : Byte :=
  16#8 * (hexVal hi).getD 0#8 + (hexVal lo).getD 0#8

/-- The bytes of the successive pairs of a hex string, left to right (R103). -/
def hexPairs : Bytes → Bytes
  | hi :: lo :: rest => hexPair hi lo :: hexPairs rest
  | _ => []

/-- `HexDec(s)`: the length check before any digit check (R103). -/
def hexDec (s : Bytes) : Except ECode Bytes :=
  if s.length % 2 = 1 then .error .hexOdd
  else if s.any (fun c => (hexVal c).isNone) then .error .hexDigit
  else .ok (hexPairs s)

/-- The rule of HEXENC (R104). -/
def hexencRule (o : Operands) : Except ECode Bytes :=
  if 2 * o.inLen > o.cap then .error .capOut else .ok (hexEnc o.input)

/-- The rule of HEXDEC (R105). -/
def hexdecRule (o : Operands) : Except ECode Bytes := hexDec o.input

/-- HEXENC (R104). -/
def execHexenc (s : State) : Host.Outcome State Fault Refusal := runCommand hexencRule s

/-- HEXDEC (R105). -/
def execHexdec (s : State) : Host.Outcome State Fault Refusal := runCommand hexdecRule s

end Sys2Proof.Machine
end

