-- ==== Sys2Proof/Machine/Padding.lean ====
section
/-! DEFINITION. The padding codec (spec/41_padding.md R120, R121) and its two commands, PAD (R122) and UNPAD
(R123). -/

namespace Sys2Proof.Machine

/-- The number r of padding bytes for an input of length n: 1 <= r <= 16 (R120). -/
def padCount (n : Nat) : Nat := Config.BLOCK - n % Config.BLOCK

/-- `padlen(n)`, the length of a padded input of length n (R88, R120). -/
def paddedLen (n : Nat) : Nat := n + padCount n

/-- `Pad(b)`: r bytes appended, each of value r (R120). -/
def pad (b : Bytes) : Bytes :=
  b ++ List.replicate (padCount b.length) (BitVec.ofNat 8 (padCount b.length))

/-- `Unpad(b)`, its five checks in the order of R121. -/
def unpad (b : Bytes) : Except ECode Bytes :=
  match b.getLast? with
  | none => .error .padEmpty
  | some p =>
    if p = 0x00#8 then .error .padZero
    else if p.toNat > Config.BLOCK then .error .padOver
    else if b.length < p.toNat then .error .padShort
    else if (b.drop (b.length - p.toNat)).any (fun c => c != p) then .error .padMismatch
    else .ok (b.take (b.length - p.toNat))

/-- The rule of PAD (R122). -/
def padRule (o : Operands) : Except ECode Bytes :=
  if paddedLen o.inLen > o.cap then .error .capOut else .ok (pad o.input)

/-- The rule of UNPAD (R123). -/
def unpadRule (o : Operands) : Except ECode Bytes := unpad o.input

/-- PAD (R122). -/
def execPad (s : State) : Host.Outcome State Fault Refusal := runCommand padRule s

/-- UNPAD (R123). -/
def execUnpad (s : State) : Host.Outcome State Fault Refusal := runCommand unpadRule s

end Sys2Proof.Machine
end

