-- ==== Sys2Proof/Machine/Composite.lean ====
section
/-! DEFINITION. The composite commands (spec/44_composite.md): ENCRYPT (R190), DECRYPT (R191), ENCRYPTX (R192)
and DECRYPTX (R193). -/

namespace Sys2Proof.Machine

/-- The rule of ENCRYPT: output capacity, then the cipher's checks (R190). -/
def encryptRule (o : Operands) : Except ECode Bytes :=
  if paddedLen o.inLen > o.cap then .error .capOut
  else match cipherCheck (paddedLen o.inLen) o.keyLen o.ivLen with
    | .error c => .error c
    | .ok () => .ok (cbcEnc o.keyv o.ivv (pad o.input))

/-- The rule of DECRYPT (R191). -/
def decryptRule (o : Operands) : Except ECode Bytes :=
  match cipherCheck o.inLen o.keyLen o.ivLen with
  | .error c => .error c
  | .ok () => unpad (cbcDec o.keyv o.ivv o.input)

/-- The rule of ENCRYPTX: the text is the hex IV, the delimiter, the hex ciphertext (R192). -/
def encryptxRule (o : Operands) : Except ECode Bytes :=
  if 33 + 2 * paddedLen o.inLen > o.cap then .error .capOut
  else match cipherCheck (paddedLen o.inLen) o.keyLen o.ivLen with
    | .error c => .error c
    | .ok () => .ok (hexEnc o.ivv ++ [Config.DELIM] ++ hexEnc (cbcEnc o.keyv o.ivv (pad o.input)))

/-- The index d of the first delimiter, if there is one (R193). -/
def delimIndex (s : Bytes) : Option Nat := s.findIdx? (fun c => c == Config.DELIM)

/-- The rule of DECRYPTX once its text is split and decoded: `v` is the decoded IV, `y` the decoded ciphertext.
The length of the IV is the real length of `v` (R193). -/
def decryptxDecoded (keyv : Bytes) (keyLen : Nat) (v y : Bytes) : Except ECode Bytes :=
  match cipherCheck y.length keyLen v.length with
  | .error c => .error c
  | .ok () => unpad (cbcDec keyv v y)

/-- The rule of DECRYPTX: the delimiter, the IV text, the ciphertext text, the cipher's checks, the padding,
in that order; the IV window and `IV_LEN` are not read (R193). -/
def decryptxRule (o : Operands) : Except ECode Bytes :=
  match delimIndex o.input with
  | none => .error .noDelim
  | some d =>
    match hexDec (o.input.take d) with
    | .error c => .error c
    | .ok v =>
      match hexDec (o.input.drop (d + 1)) with
      | .error c => .error c
      | .ok y => decryptxDecoded o.keyv o.keyLen v y

/-- ENCRYPT (R190). -/
def execEncrypt (s : State) : Host.Outcome State Fault Refusal := runCommand encryptRule s

/-- DECRYPT (R191). -/
def execDecrypt (s : State) : Host.Outcome State Fault Refusal := runCommand decryptRule s

/-- ENCRYPTX (R192). -/
def execEncryptx (s : State) : Host.Outcome State Fault Refusal := runCommand encryptxRule s

/-- DECRYPTX (R193). -/
def execDecryptx (s : State) : Host.Outcome State Fault Refusal := runCommand decryptxRule s

end Sys2Proof.Machine
end

