-- ==== Sys2Proof/Machine/Dispatch.lean ====
section
/-! DEFINITION. The meaning of each command: its completion step (spec/30_encoding.md R86), one arm per row of
the opcode map (R81). -/

namespace Sys2Proof.Machine

def exec (i : Instr) (s : State) : Host.Outcome State Fault Refusal :=
  match i with
  -- hex codec (R104, R105)
  | .hexenc => Sys2Proof.Machine.execHexenc s
  | .hexdec => Sys2Proof.Machine.execHexdec s
  -- padding codec (R122, R123)
  | .pad => Sys2Proof.Machine.execPad s
  | .unpad => Sys2Proof.Machine.execUnpad s
  -- cipher invocation (R173, R174)
  | .ciphenc => Sys2Proof.Machine.execCiphenc s
  | .ciphdec => Sys2Proof.Machine.execCiphdec s
  -- composite commands (R190 to R193)
  | .encrypt => Sys2Proof.Machine.execEncrypt s
  | .decrypt => Sys2Proof.Machine.execDecrypt s
  | .encryptx => Sys2Proof.Machine.execEncryptx s
  | .decryptx => Sys2Proof.Machine.execDecryptx s

end Sys2Proof.Machine
end

