-- ==== Sys2Proof/Machine/Bus.lean ====
section
/-! DEFINITION. The host's transactions (spec/20_memory.md): the flat map (R52), what is admitted (R53, R58),
and what each transaction does when the core is idle (R54 to R57) and while a command is in flight (R59). A
read returns its value to the host as a reply and changes nothing in the core (R65); only the model's count of
draws moves, and only when the value is unspecified. -/

namespace Sys2Proof.Machine

/-- The register at an offset (R52, R53): the seven offsets of word transactions. -/
def regAt : Nat → Option Reg
  | 0x00 => some .cmd
  | 0x04 => some .status
  | 0x08 => some .inLen
  | 0x0C => some .outLen
  | 0x10 => some .keyLen
  | 0x14 => some .ivLen
  | 0x18 => some .capr
  | _ => none

/-- The offset of a register (R52). -/
def regOffset : Reg → Nat
  | .cmd => 0x00
  | .status => 0x04
  | .inLen => 0x08
  | .outLen => 0x0C
  | .keyLen => 0x10
  | .ivLen => 0x14
  | .capr => 0x18

/-- The first offset above the seven registers (R52). -/
def regsEnd : Nat := 0x1C

/-- The offset of the first byte of a window (R52). -/
def windowBase : Space → Nat
  | .key => 0x0000040
  | .iv => 0x0000060
  | .inp => 0x1000000
  | .out => 0x2000000

/-- Whether an offset is that of a byte of the window `sp` on an instance with capacity `cap` (R52). -/
def inWindow (cap : Nat) (sp : Space) (off : Nat) : Bool :=
  windowBase sp ≤ off && off < windowBase sp + windowSize cap sp

/-- The window and the index of the byte at an offset, on an instance with capacity `cap` (R52). -/
def windowAt (cap off : Nat) : Option (Space × Nat) :=
  if inWindow cap .key off then some (.key, off - windowBase .key)
  else if inWindow cap .iv off then some (.iv, off - windowBase .iv)
  else if inWindow cap .inp off then some (.inp, off - windowBase .inp)
  else if inWindow cap .out off then some (.out, off - windowBase .out)
  else none

/-- The platform address of an offset of the core's block (R6, R52). -/
def platformAddress (off : Nat) : Nat := Config.BASE + off

/-- The offset of a platform address, if it lies in the core's block of 2^26 bytes (R6, R52). -/
def blockOffset (addr : Nat) : Option Nat :=
  if Config.BASE ≤ addr ∧ addr < Config.BASE + 2 ^ 26 then some (addr - Config.BASE) else none

/-- The transactions that R53 admits, on an instance with capacity `cap`. -/
def Txn.admitted (cap : Nat) : Txn → Bool
  | .rd32 off | .wr32 off _ => (regAt off).isSome
  | .rd8 off | .wr8 off _ => (windowAt cap off).isSome
  | .otherWidth _ _ => false

/-! ### Reads -/

/-- The value that the rules give to a read of a register, or none where they leave it unspecified: `OUT_LEN`
while a command is in flight (R54, R59). `CMD` reads as 0; `CMDR` cannot be read (R30). -/
def State.specifiedWord (s : State) : Reg → Option Word
  | .cmd => some 0x00000000#32
  | .status => some s.status
  | .inLen => some s.inLen
  | .outLen => if s.busy then none else some s.outLen
  | .keyLen => some s.keyLen
  | .ivLen => some s.ivLen
  | .capr => some s.capr

/-- What a read of a register returns: the specified value, or else a free value (U1). -/
def State.wordAt (s : State) (r : Reg) : Word :=
  (s.specifiedWord r).getD (Config.freeWord s.draws s.mem.held)

/-- Return a read's value to the host; a draw is counted when the value was not specified (U1, R65). -/
def State.reply (s : State) (v : Reply) (specified : Bool) : State :=
  { s with
    replies := v :: s.replies
    draws := if specified then s.draws else s.draws + 1 }

/-- `rd32` of a register (R54, R59). -/
def State.readReg (s : State) (r : Reg) : State :=
  s.reply (.word (s.wordAt r)) (s.specifiedWord r).isSome

/-- `rd8` of a byte of a window (R55, R56, R57, R59). -/
def State.readByte (s : State) (sp : Space) (i : Nat) : State :=
  s.reply (.byte (s.byteAt sp i)) (s.specifiedByte sp i).isSome

/-! ### Writes -/

/-- `wr32` of a register while the core is idle (R54): `CMD` launches, the three lengths store, the others
are ignored. -/
def State.writeRegIdle (s : State) (w : Word) : Reg → State
  | .cmd => s.launch w
  | .inLen => { s with inLen := w }
  | .keyLen => { s with keyLen := w }
  | .ivLen => { s with ivLen := w }
  | .status | .outLen | .capr => s

/-- `wr32` of a register: dropped while a command is in flight (R54, R59, R85). -/
def State.writeReg (s : State) (r : Reg) (w : Word) : State :=
  if s.busy then s else s.writeRegIdle w r

/-- `wr8` of a byte of a window while the core is idle: OUT ignores it (R55, R56, R57). -/
def State.writeByteIdle (s : State) (i : Nat) (b : Byte) : Space → State
  | .key => { s with mem := s.mem.store .key i b }
  | .iv => { s with mem := s.mem.store .iv i b }
  | .inp => { s with mem := s.mem.store .inp i b }
  | .out => s

/-- `wr8` of a byte of a window: dropped while a command is in flight (R55, R56, R57, R59). -/
def State.writeByte (s : State) (sp : Space) (i : Nat) (b : Byte) : State :=
  if s.busy then s else s.writeByteIdle i b sp

/-! ### Transactions -/

/-- The refusal of a word access at an offset that is no register's (R58). -/
def stopWord (cap off : Nat) : Host.Outcome State Fault Refusal :=
  if off < regsEnd then .refused (.misalignedWord off)
  else if (windowAt cap off).isSome then .refused (.wordOfWindow off)
  else .refused (.unmapped off)

/-- The refusal of a byte access at an offset that is in no window (R58). -/
def stopByte (off : Nat) : Host.Outcome State Fault Refusal :=
  if off < regsEnd then .refused (.byteOfRegister off) else .refused (.unmapped off)

/-- The refusal of an access of another width (R58). -/
def stopWidth (cap bits off : Nat) : Host.Outcome State Fault Refusal :=
  if off < regsEnd ∨ (windowAt cap off).isSome then .refused (.otherWidth bits off)
  else .refused (.unmapped off)

/-- One host transaction (R53 to R59). -/
def serveTxn (t : Txn) (s : State) : Host.Outcome State Fault Refusal :=
  match t with
  | .rd32 off =>
    match regAt off with
    | some r => .next (s.readReg r)
    | none => stopWord s.cap off
  | .wr32 off w =>
    match regAt off with
    | some r => .next (s.writeReg r w)
    | none => stopWord s.cap off
  | .rd8 off =>
    match windowAt s.cap off with
    | some (sp, i) => .next (s.readByte sp i)
    | none => stopByte off
  | .wr8 off v =>
    match windowAt s.cap off with
    | some (sp, i) => .next (s.writeByte sp i v)
    | none => stopByte off
  | .otherWidth bits off => stopWidth s.cap bits off

end Sys2Proof.Machine
end

