-- ==== Sys2Proof/Machine/Script.lean ====
section
/-! DEFINITION. The script notation (spec/30_encoding.md R92, R93): the pseudo-instructions that expand to a
fixed list of transactions, and the steps of the three whose course depends on what the host reads (`wait`,
`rdout`, `mvout`). One step serves the first of the host's inputs. -/

namespace Sys2Proof.Machine

/-! ### Expansions (R93) -/

/-- `cmd <MNEMONIC>`: `wr32 CMD` of the command's word. -/
def scriptCmd (i : Instr) : List Input := [.txn (.wr32 (regOffset .cmd) (encode i))]

/-- `run <MNEMONIC>`: `cmd`, then `wait`. -/
def scriptRun (i : Instr) : List Input := scriptCmd i ++ [.await]

/-- `wr8 W[i], <byte i>` for a byte sequence laid down from index `i` upward, in rising order. -/
def scriptBytes (sp : Space) : Nat → Bytes → List Input
  | _, [] => []
  | i, b :: rest => .txn (.wr8 (windowBase sp + i) b) :: scriptBytes sp (i + 1) rest

/-- `ldkey <32 bytes>`. -/
def scriptLdkey (k : Bytes) : List Input :=
  scriptBytes .key 0 k ++ [.txn (.wr32 (regOffset .keyLen) 32#32)]

/-- `ldiv <16 bytes>`. -/
def scriptLdiv (v : Bytes) : List Input :=
  scriptBytes .iv 0 v ++ [.txn (.wr32 (regOffset .ivLen) 16#32)]

/-- `ldin <n bytes>`. -/
def scriptLdin (b : Bytes) : List Input :=
  scriptBytes .inp 0 b ++ [.txn (.wr32 (regOffset .inLen) (BitVec.ofNat 32 b.length))]

/-- `rd8 OUT[i]` for i = 0..n-1, the reads of `rdout`. -/
def scriptReadOut (n : Nat) : List Input :=
  (List.range n).map (fun i => .txn (.rd8 (windowBase .out + i)))

/-! ### What the host has read -/

/-- The byte of a reply of a byte read. -/
def Reply.byte? : Reply → Option Byte
  | .byte b => some b
  | .word _ => none

/-- The bytes of the last n replies, in the order in which they were read. -/
def State.lastBytes (s : State) (n : Nat) : Bytes :=
  (s.replies.take n).reverse.filterMap Reply.byte?

/-! ### Steps of the host -/

/-- Put items before the host's remaining inputs. -/
def State.prepend (s : State) (items : List Input) : State :=
  { s with inputs := items ++ s.inputs }

/-- One poll of `wait`: `rd32 STATUS`; the host polls again while the value read has bit 0 = 1 (R93). -/
def serveAwait (s : State) : State :=
  if busyBit (s.wordAt .status) then (s.readReg .status).prepend [.await]
  else s.readReg .status

/-- The first step of `rdout`: `rd32 OUT_LEN` giving n; the reads of `OUT[0]` to `OUT[n-1]` follow (R93). -/
def serveRdout (s : State) : State :=
  (s.readReg .outLen).prepend (scriptReadOut (s.wordAt .outLen).toNat)

/-- The first step of `mvout`: `rdout`, and the copy back of what it will have read (R93). -/
def serveMvout (s : State) : State :=
  (s.readReg .outLen).prepend
    (scriptReadOut (s.wordAt .outLen).toNat ++ [.copyBack (s.wordAt .outLen).toNat])

/-- One item of the host's inputs, already taken from their front. -/
def serveInput (item : Input) (s : State) : Host.Outcome State Fault Refusal :=
  match item with
  | .txn t => serveTxn t s
  | .await => .next (serveAwait s)
  | .rdout => .next (serveRdout s)
  | .mvout => .next (serveMvout s)
  | .copyBack n => .next (s.prepend (scriptLdin (s.lastBytes n)))
  | .reset => .next s.hardReset

/-- Take the first input: the rest remain, and while a command is in flight one host step fewer is left
before the core completes it (notes/assumptions/4.md). -/
def State.takeInput (s : State) (rest : List Input) : State :=
  { s with
    inputs := rest
    latency := if s.busy then s.latency - 1 else s.latency }

/-- A step of the host. With no input left, nothing happens: the core keeps its state (R276). -/
def serveHost (s : State) : Host.Outcome State Fault Refusal :=
  match s.inputs with
  | [] => .next s
  | item :: rest => serveInput item (s.takeInput rest)

end Sys2Proof.Machine
end

