-- ==== Sys2Proof/Machine/Agents.lean ====
section
/-! DEFINITION. The two agents (spec/00_scope.md R16): when the core moves, and what its one step does
(spec/30_encoding.md R86, R89, R90). -/

namespace Sys2Proof.Machine

/-- The completion of an illegal command word (R89, R90): nothing else is checked, not even `IN_LEN` (R232). -/
def completeIllegal (s : State) : Host.Outcome State Fault Refusal :=
  .next (s.failWith .illegalCmd)

/-- The core's step: the completion of the command in flight, `Exec(CMDR)` (R86, R89). -/
def completeCommand (s : State) : Host.Outcome State Fault Refusal :=
  match decode s.cmdr with
  | .ok i => exec i s
  | .error _ => completeIllegal s

/-- Whether the core moves next. Its step is enabled exactly when `BUSY` = 1 (R86); it is taken when the host
steps drawn at the launch have passed, or when the host has nothing more to do (notes/assumptions/4.md). -/
def coreMoves (s : State) : Bool := s.busy && (s.latency == 0 || s.inputs.isEmpty)

end Sys2Proof.Machine
end

