-- ==== Sys2Proof/Machine/Step.lean ====
section
/-! DEFINITION. One step of the machine (spec/00_scope.md R16): the core's completion of the command in flight,
or the host's next input. -/

namespace Sys2Proof.Machine

/-- One step. -/
def step (s : State) : Host.Outcome State Fault Refusal :=
  if coreMoves s then completeCommand s else serveHost s

/-- The state in which the command word `w` of `nbits` bits is the command in flight and the core moves next:
`CMDR` holds it, `STATUS` is that of a launch, no host step is left before the completion. It stands for the
host's `wr32 CMD, w` (R84; notes/assumptions/3.md). -/
def State.withFetchWord (s : State) (nbits w : Nat) : State :=
  { s with
    cmdr := BitVec.ofNat 32 (w % 2 ^ nbits)
    status := statusBusy
    latency := 0 }

end Sys2Proof.Machine
end

