-- ==== Sys2Proof/Safety.lean ====
section
/-! DEFINITION. What counts as a safe state and a safe run, in the terms the statements use: the invariant of
every reachable state (spec/10_state.md R32 among its parts), and runs that do not stop. -/

namespace Sys2Proof.Machine

/-- The fourteen codes that the core can raise (R221). -/
def coreCodes : List ECode :=
  [.hexOdd, .hexDigit, .noDelim, .lenBlock, .keyLen, .ivLen, .padEmpty, .padZero, .padOver, .padShort,
   .padMismatch, .illegalCmd, .capIn, .capOut]

/-- The values STATUS takes (R31): idle after reset, a command in flight, a success, a failure with one of the
fourteen codes. -/
def legalStatus (w : Word) : Bool :=
  w == 0x00000000#32 || w == statusBusy || w == statusSuccess ||
    coreCodes.any (fun c => w == statusFailure c)

/-- What OUT and OUT_LEN hold for each kind of STATUS (R28, R29): after a success exactly the bytes below
`OUT_LEN` are listed and they fit in OUT; otherwise nothing is listed, and `OUT_LEN` is 0 unless a command is
in flight. -/
def resultOk (s : State) : Bool :=
  if s.status = statusSuccess then
    s.mem.out.map Prod.fst == List.range s.outLen.toNat && decide (s.outLen.toNat ≤ s.cap)
  else s.mem.out.isEmpty && (s.busy || s.outLen == 0#32)

/-- The invariant of every reachable state. -/
def State.Inv (s : State) : Prop :=
  capOk s.cap = true ∧ Memory.wf s.cap s.mem = true ∧ legalStatus s.status = true ∧ resultOk s = true

/-! ### What a completed command leaves -/

/-- Between `s` and `t` nothing changed but OUT, `OUT_LEN` and STATUS (R39): every other register holds what
it held, every byte of KEY, IV and IN reads as before, and of the model's own fields only the count of draws
moved on, by one. -/
def KeepsOperands (s t : State) : Prop :=
  t.keyLen = s.keyLen ∧ t.ivLen = s.ivLen ∧ t.inLen = s.inLen ∧ t.cmdr = s.cmdr ∧ t.capr = s.capr ∧
  t.inputs = s.inputs ∧ t.replies = s.replies ∧ t.latency = s.latency ∧ t.draws = s.draws + 1 ∧
  ∀ sp i, sp ≠ Space.out → t.specifiedByte sp i = s.specifiedByte sp i

/-- From `s` a command completed in `t` with `succeed(r)` (R87): STATUS is 0x00000002, `OUT_LEN` is `len(r)`,
`OUT[i]` reads `r[i]` below it and is unspecified above it, and nothing else changed. -/
def Delivers (s t : State) (r : Bytes) : Prop :=
  t.status = 0x00000002#32 ∧ t.outLen.toNat = r.length ∧
  (∀ i, i < r.length → t.specifiedByte .out i = r[i]?) ∧
  (∀ i, r.length ≤ i → t.specifiedByte .out i = none) ∧ KeepsOperands s t

/-- From `s` a command completed in `t` with `fail(c)` (R230): STATUS is `0x00000006 + (c << 8)`, `OUT_LEN` is
0, every byte of OUT is unspecified, and nothing else changed. -/
def Fails (s t : State) (c : ECode) : Prop :=
  t.status = 0x00000006#32 + (c.code.setWidth 32 <<< 8) ∧ t.outLen = 0#32 ∧
  (∀ i, t.specifiedByte .out i = none) ∧ KeepsOperands s t

/-- The command `i` completes in `s` with the failure `c`. -/
def FailsWith (i : Instr) (s : State) (c : ECode) : Prop := ∃ t, exec i s = .next t ∧ Fails s t c

/-- Two states in which a command finds the same input: the same `IN_LEN`, the same `CAP`, and the same bytes
`IN[0:IN_LEN)`. -/
def SameInput (s s' : State) : Prop :=
  s'.inLen = s.inLen ∧ s'.capr = s.capr ∧ ∀ i, i < s.inLen.toNat → s'.byteAt .inp i = s.byteAt .inp i

/-- The same key: the same `KEY_LEN` and the same bytes `KEY[0:32)`. -/
def SameKey (s s' : State) : Prop :=
  s'.keyLen = s.keyLen ∧ ∀ i, i < Config.KEYBYTES → s'.byteAt .key i = s.byteAt .key i

/-- The same IV: the same `IV_LEN` and the same bytes `IV[0:16)`. -/
def SameIv (s s' : State) : Prop :=
  s'.ivLen = s.ivLen ∧ ∀ i, i < Config.IVBYTES → s'.byteAt .iv i = s.byteAt .iv i

/-- The same outcome: the same STATUS, the same `OUT_LEN`, and OUT specified at the same indices with the same
bytes (R40). -/
def SameResult (t t' : State) : Prop :=
  t'.status = t.status ∧ t'.outLen = t.outLen ∧ ∀ i, t'.specifiedByte .out i = t.specifiedByte .out i

/-- Block j of a byte sequence, `b[16j : 16j+16)` (spec/20_memory.md R62). -/
def block (b : Bytes) (j : Nat) : Bytes := (b.drop (Config.BLOCK * j)).take Config.BLOCK

/-! ### Runs -/

/-- The step from `s` gives a next state: no fault and no refusal. -/
def SafeStep (s : State) : Prop := ∃ t, step s = .next t

/-- The first n steps from `s` all give a next state. -/
def SafeRun (n : Nat) (s : State) : Prop := ∃ t, Sys2Proof.core.run n s = .next t

end Sys2Proof.Machine
end

