-- ==== Sys2Proof/Certificates/Slice0/Obligations.lean ====
section
/-! DEFINITION. The statements for the provers, each `def Obligations.<Name> : Prop`. They follow the numbered
rules of spec/. A word or byte that the spec leaves unspecified is a free value of Config; no statement here
rests on one: where a rule says "unspecified", the statement says that the model gives no specified value
(`specifiedByte` or `specifiedWord` answers none). -/

open Sys2Proof Sys2Proof.Machine

/-! ### The step, decoding, launch -/

/-- R86, R89, R90: when the core moves, the step is the meaning of the command that the word in flight decodes
to, exactly; and if it decodes to none, the step completes it with `E_ILLEGAL_CMD`. (That the core moves when
the drawn host steps have passed or the host has no input left is the model's choice,
notes/assumptions/4.md.) -/
def Obligations.StepRunsDecodedCommand : Prop :=
  (∀ (s : State) (i : Instr), s.busy = true → (s.latency = 0 ∨ s.inputs = []) → decode s.cmdr = .ok i →
    i.wf = true ∧ step s = exec i s) ∧
  (∀ (s : State) (e : DecodeError), s.busy = true → (s.latency = 0 ∨ s.inputs = []) →
    decode s.cmdr = .error e →
    step s = completeIllegal s ∧
      ∃ t, step s = .next t ∧ Fails s t .illegalCmd ∧ t.status = 0x00006106#32)

/-- R16, R53, R67: when the core does not move, the step serves the host's first input, taken off the list; a
host step while a command is in flight uses up one of the host steps before the completion (the model's choice,
notes/assumptions/3.md and 4.md); with no input left the idle core keeps its state. -/
def Obligations.StepServesHostInput : Prop :=
  (∀ (s : State) (item : Input) (rest : List Input), s.busy = false → s.inputs = item :: rest →
    step s = serveInput item { s with inputs := rest }) ∧
  (∀ (s : State) (item : Input) (rest : List Input) (n : Nat), s.busy = true → s.latency = n + 1 →
    s.inputs = item :: rest → step s = serveInput item { s with inputs := rest, latency := n }) ∧
  (∀ s : State, s.busy = false → s.inputs = [] → step s = .next s)

/-- R83: the decoder, on every word. -/
def Obligations.DecodeFollowsTheRule : Prop :=
  ∀ w : Word,
    (w.toNat / 256 ≠ 0 → ∃ e, decode w = .error e) ∧
    (w.toNat / 256 = 0 →
      (w.toNat % 256 = 0x01 → decode w = .ok .hexenc) ∧ (w.toNat % 256 = 0x02 → decode w = .ok .hexdec) ∧
      (w.toNat % 256 = 0x03 → decode w = .ok .pad) ∧ (w.toNat % 256 = 0x04 → decode w = .ok .unpad) ∧
      (w.toNat % 256 = 0x05 → decode w = .ok .ciphenc) ∧ (w.toNat % 256 = 0x06 → decode w = .ok .ciphdec) ∧
      (w.toNat % 256 = 0x07 → decode w = .ok .encrypt) ∧ (w.toNat % 256 = 0x08 → decode w = .ok .decrypt) ∧
      (w.toNat % 256 = 0x09 → decode w = .ok .encryptx) ∧ (w.toNat % 256 = 0x0A → decode w = .ok .decryptx) ∧
      (w.toNat % 256 = 0x00 ∨ 0x0B ≤ w.toNat % 256 → ∃ e, decode w = .error e))

/-- R80, R81, R83: decoding and encoding agree in both directions: every command's word decodes to it, and no
other word does. -/
def Obligations.DecodeEncodeAgree : Prop :=
  (∀ i : Instr, i.wf = true → decode (encode i) = .ok i) ∧
  (∀ (w : Word) (i : Instr), decode w = .ok i → w = encode i) ∧
  (∀ w : Word, (∃ i, w = encode i) ↔ wordOk w = true)

/-- R81: the ten words of the opcode map, written out. -/
def Obligations.OpcodeMapWords : Prop :=
  decode 0x00000001#32 = .ok .hexenc ∧ decode 0x00000002#32 = .ok .hexdec ∧
  decode 0x00000003#32 = .ok .pad ∧ decode 0x00000004#32 = .ok .unpad ∧
  decode 0x00000005#32 = .ok .ciphenc ∧ decode 0x00000006#32 = .ok .ciphdec ∧
  decode 0x00000007#32 = .ok .encrypt ∧ decode 0x00000008#32 = .ok .decrypt ∧
  decode 0x00000009#32 = .ok .encryptx ∧ decode 0x0000000A#32 = .ok .decryptx

/-- R90: which words are illegal, how many they are, that launching one on an idle core is a launch like any
other, and that it completes with `E_ILLEGAL_CMD`, STATUS 0x00006106, whatever `IN_LEN` holds. -/
def Obligations.IllegalWordFails : Prop :=
  (∀ w : Word, (∃ e, decode w = .error e) ↔
    (w.toNat % 256 = 0x00 ∨ 0x0B ≤ w.toNat % 256 ∨ w.toNat / 256 ≠ 0)) ∧
  ((Finset.range (2 ^ 32)).filter (fun n => (decode (BitVec.ofNat 32 n)).isOk = false)).card = 4294967286 ∧
  (∀ (s : State) (w : Word) (e : DecodeError), s.busy = false → decode w = .error e →
    ∃ t, serveTxn (.wr32 0x00 w) s = .next t ∧ t.cmdr = w ∧ t.status = 0x00000001#32 ∧
      ∃ u, completeCommand t = .next u ∧ Fails t u .illegalCmd ∧ u.status = 0x00006106#32)

/-- R84: the launch, for every word, legal or not. `OUT` and `OUT_LEN` are unspecified after it, every other
register but `CMDR` and STATUS and every byte of KEY, IV and IN is as before. -/
def Obligations.LaunchEffect : Prop :=
  ∀ (s : State) (w : Word), s.busy = false →
    ∃ t, serveTxn (.wr32 0x00 w) s = .next t ∧
      t.cmdr = w ∧ t.status = 0x00000001#32 ∧
      t.busy = true ∧ t.done = false ∧ t.err = false ∧ t.ecode = 0x00#8 ∧
      t.specifiedWord .outLen = none ∧ (∀ i, t.specifiedByte .out i = none) ∧
      t.keyLen = s.keyLen ∧ t.ivLen = s.ivLen ∧ t.inLen = s.inLen ∧ t.capr = s.capr ∧
      t.inputs = s.inputs ∧ t.replies = s.replies ∧
      ∀ sp i, sp ≠ Space.out → t.specifiedByte sp i = s.specifiedByte sp i

/-! ### Host transactions -/

/-- R54: the register transactions of an idle core. -/
def Obligations.IdleRegisterTransactions : Prop :=
  ∀ (s : State) (w : Word), s.busy = false →
    serveTxn (.rd32 0x00) s = .next { s with replies := .word 0x00000000#32 :: s.replies } ∧
    serveTxn (.rd32 0x04) s = .next { s with replies := .word s.status :: s.replies } ∧
    serveTxn (.rd32 0x08) s = .next { s with replies := .word s.inLen :: s.replies } ∧
    serveTxn (.rd32 0x0C) s = .next { s with replies := .word s.outLen :: s.replies } ∧
    serveTxn (.rd32 0x10) s = .next { s with replies := .word s.keyLen :: s.replies } ∧
    serveTxn (.rd32 0x14) s = .next { s with replies := .word s.ivLen :: s.replies } ∧
    serveTxn (.rd32 0x18) s = .next { s with replies := .word s.capr :: s.replies } ∧
    serveTxn (.wr32 0x00 w) s = .next (s.launch w) ∧
    serveTxn (.wr32 0x04 w) s = .next s ∧
    serveTxn (.wr32 0x08 w) s = .next { s with inLen := w } ∧
    serveTxn (.wr32 0x0C w) s = .next s ∧
    serveTxn (.wr32 0x10 w) s = .next { s with keyLen := w } ∧
    serveTxn (.wr32 0x14 w) s = .next { s with ivLen := w } ∧
    serveTxn (.wr32 0x18 w) s = .next s

/-- R55: the KEY and IV window transactions of an idle core. A write changes that one byte and nothing else:
every register, and every other byte of every window, reads as before. A read returns the byte, or, for a KEY
byte that is unspecified, a value the rules do not give. -/
def Obligations.KeyIvWindowTransactions : Prop :=
  ∀ (s : State) (i : Nat) (v : Byte), s.busy = false →
    (i < 32 →
      (∃ t, serveTxn (.wr8 (0x40 + i) v) s = .next t ∧ t = { s with mem := t.mem } ∧
        t.specifiedByte .key i = some v ∧
        ∀ sp j, (sp, j) ≠ (Space.key, i) → t.specifiedByte sp j = s.specifiedByte sp j) ∧
      (∀ b, s.specifiedByte .key i = some b →
        serveTxn (.rd8 (0x40 + i)) s = .next { s with replies := .byte b :: s.replies }) ∧
      (s.specifiedByte .key i = none → ∃ b,
        serveTxn (.rd8 (0x40 + i)) s = .next { s with replies := .byte b :: s.replies, draws := s.draws + 1 })) ∧
    (i < 16 →
      (∃ t, serveTxn (.wr8 (0x60 + i) v) s = .next t ∧ t = { s with mem := t.mem } ∧
        t.specifiedByte .iv i = some v ∧
        ∀ sp j, (sp, j) ≠ (Space.iv, i) → t.specifiedByte sp j = s.specifiedByte sp j) ∧
      ∃ b, s.specifiedByte .iv i = some b ∧
        serveTxn (.rd8 (0x60 + i)) s = .next { s with replies := .byte b :: s.replies })

/-- R56: the IN window transactions of an idle core. -/
def Obligations.InWindowTransactions : Prop :=
  ∀ (s : State) (i : Nat) (v : Byte), s.busy = false → i < s.cap →
    (∃ t, serveTxn (.wr8 (0x1000000 + i) v) s = .next t ∧ t = { s with mem := t.mem } ∧
      t.specifiedByte .inp i = some v ∧
      ∀ sp j, (sp, j) ≠ (Space.inp, i) → t.specifiedByte sp j = s.specifiedByte sp j) ∧
    (∀ b, s.specifiedByte .inp i = some b →
      serveTxn (.rd8 (0x1000000 + i)) s = .next { s with replies := .byte b :: s.replies }) ∧
    (s.specifiedByte .inp i = none → ∃ b,
      serveTxn (.rd8 (0x1000000 + i)) s =
        .next { s with replies := .byte b :: s.replies, draws := s.draws + 1 })

/-- R57: the OUT window transactions of an idle core that meets the invariant. A write is ignored; a read
returns the result byte when `i < OUT_LEN` and `ERR` = 0, and is unspecified otherwise. -/
def Obligations.OutWindowTransactions : Prop :=
  ∀ (s : State) (i : Nat) (v : Byte), s.Inv → s.busy = false → i < s.cap →
    serveTxn (.wr8 (0x2000000 + i) v) s = .next s ∧
    (i < s.outLen.toNat ∧ s.err = false → ∃ b, (i, b) ∈ s.mem.out ∧ s.specifiedByte .out i = some b ∧
      serveTxn (.rd8 (0x2000000 + i)) s = .next { s with replies := .byte b :: s.replies }) ∧
    (¬(i < s.outLen.toNat ∧ s.err = false) → s.specifiedByte .out i = none ∧ ∃ b,
      serveTxn (.rd8 (0x2000000 + i)) s =
        .next { s with replies := .byte b :: s.replies, draws := s.draws + 1 })

/-- R58: what is not admitted is refused, and what is admitted gives a next state. The offsets are written out
from the map of R52. -/
def Obligations.NotAdmittedIsRefused : Prop :=
  ∀ (s : State) (off bits : Nat) (w : Word) (v : Byte), capOk s.cap = true →
    ((∃ t, serveTxn (.rd32 off) s = .next t) ↔ off ∈ [0x00, 0x04, 0x08, 0x0C, 0x10, 0x14, 0x18]) ∧
    ((∃ t, serveTxn (.wr32 off w) s = .next t) ↔ off ∈ [0x00, 0x04, 0x08, 0x0C, 0x10, 0x14, 0x18]) ∧
    ((∃ t, serveTxn (.rd8 off) s = .next t) ↔
      (0x40 ≤ off ∧ off < 0x70) ∨ (0x1000000 ≤ off ∧ off < 0x1000000 + s.cap) ∨
      (0x2000000 ≤ off ∧ off < 0x2000000 + s.cap)) ∧
    ((∃ t, serveTxn (.wr8 off v) s = .next t) ↔
      (0x40 ≤ off ∧ off < 0x70) ∨ (0x1000000 ≤ off ∧ off < 0x1000000 + s.cap) ∨
      (0x2000000 ≤ off ∧ off < 0x2000000 + s.cap)) ∧
    (¬ ∃ t, serveTxn (.otherWidth bits off) s = .next t) ∧
    ∀ x : Txn, (¬ ∃ t, serveTxn x s = .next t) → ∃ r, serveTxn x s = .refused r

/-- R59: the transactions while a command is in flight, in a state that meets the invariant: every admitted
write changes nothing, and the reads return what the rule says. -/
def Obligations.BusyTransactions : Prop :=
  ∀ s : State, s.Inv → s.busy = true →
    (∀ (off : Nat) (w : Word), (Txn.wr32 off w).admitted s.cap = true → serveTxn (.wr32 off w) s = .next s) ∧
    (∀ (off : Nat) (v : Byte), (Txn.wr8 off v).admitted s.cap = true → serveTxn (.wr8 off v) s = .next s) ∧
    serveTxn (.rd32 0x04) s = .next { s with replies := .word 0x00000001#32 :: s.replies } ∧
    serveTxn (.rd32 0x08) s = .next { s with replies := .word s.inLen :: s.replies } ∧
    serveTxn (.rd32 0x10) s = .next { s with replies := .word s.keyLen :: s.replies } ∧
    serveTxn (.rd32 0x14) s = .next { s with replies := .word s.ivLen :: s.replies } ∧
    serveTxn (.rd32 0x18) s = .next { s with replies := .word s.capr :: s.replies } ∧
    serveTxn (.rd32 0x00) s = .next { s with replies := .word 0x00000000#32 :: s.replies } ∧
    (∀ (sp : Space) (i : Nat) (b : Byte), sp ≠ .out → i < windowSize s.cap sp → s.specifiedByte sp i = some b →
      serveTxn (.rd8 (windowBase sp + i)) s = .next { s with replies := .byte b :: s.replies }) ∧
    (s.specifiedWord .outLen = none ∧ ∃ w,
      serveTxn (.rd32 0x0C) s = .next { s with replies := .word w :: s.replies, draws := s.draws + 1 }) ∧
    (∀ i, i < s.cap → s.specifiedByte .out i = none ∧ ∃ b,
      serveTxn (.rd8 (0x2000000 + i)) s =
        .next { s with replies := .byte b :: s.replies, draws := s.draws + 1 })

/-- R236, R86, R58: the machine goes on from every state unless the host's next transaction is one that is not
admitted. -/
def Obligations.OnlyNotAdmittedStops : Prop :=
  ∀ s : State, SafeStep s ↔
    ¬ (coreMoves s = false ∧ ∃ t rest, s.inputs = .txn t :: rest ∧ t.admitted s.cap = false)

/-! ### All commands -/

/-- R39: every command, in every state, completes in a next state that keeps everything but OUT, `OUT_LEN` and
STATUS. -/
def Obligations.CommandsKeepOperands : Prop :=
  ∀ (i : Instr) (s : State), ∃ t, exec i s = .next t ∧ KeepsOperands s t

/-- R40: the outcome of a launched word, legal or not, depends on the word and the operands alone. -/
def Obligations.OutcomeDependsOnOperandsAlone : Prop :=
  ∀ s s' : State, s'.cmdr = s.cmdr → SameInput s s' → SameKey s s' → SameIv s s' →
    ∃ t t', completeCommand s = .next t ∧ completeCommand s' = .next t' ∧ SameResult t t'

/-- R104, R105, R107, R122, R123: HEXENC, HEXDEC, PAD and UNPAD read no key and no IV. -/
def Obligations.HexAndPaddingReadNoKey : Prop :=
  ∀ (i : Instr) (s s' : State), i ∈ [Instr.hexenc, .hexdec, .pad, .unpad] → SameInput s s' →
    ∃ t t', exec i s = .next t ∧ exec i s' = .next t' ∧ SameResult t t'

/-- R193: DECRYPTX reads neither the IV window nor `IV_LEN`, and leaves both as they were. -/
def Obligations.DecryptxIgnoresIvWindow : Prop :=
  ∀ s s' : State, SameInput s s' → SameKey s s' →
    ∃ t t', exec .decryptx s = .next t ∧ exec .decryptx s' = .next t' ∧ SameResult t t' ∧
      t'.ivLen = s'.ivLen ∧ ∀ i, t'.specifiedByte .iv i = s'.specifiedByte .iv i

/-- R221, R32: a command that fails fails with one of the fourteen codes, the codes are pairwise distinct, and
each has the number that the table of R221 gives it, the three reserved ones (0x23, 0x41, 0x51) too. -/
def Obligations.OnlyTheFourteenCodes : Prop :=
  (∀ s t : State, completeCommand s = .next t → t.err = true →
    ∃ c : ECode, c.raisedByCore = true ∧ Fails s t c ∧ t.ecode = c.code) ∧
  (∀ c d : ECode, c.code = d.code → c = d) ∧ coreCodes.length = 14 ∧
  (∀ c : ECode, c.raisedByCore = true ↔ c ∈ coreCodes) ∧
  [ECode.hexOdd, .hexDigit, .noDelim, .lenBlock, .keyLen, .ivLen, .padEmpty, .padZero, .padOver, .padShort,
    .padMismatch, .illegalCmd, .capIn, .capOut].map ECode.code =
    [0x11#8, 0x12#8, 0x13#8, 0x14#8, 0x21#8, 0x22#8, 0x31#8, 0x32#8, 0x33#8, 0x34#8, 0x35#8, 0x61#8, 0x71#8,
      0x72#8] ∧
  [ECode.internal, .utf8, .io].map ECode.code = [0x23#8, 0x41#8, 0x51#8]

/-- R88, R228: the length of a successful result, command by command, and that it fits in OUT. The p of UNPAD is
the last byte of the input; that of DECRYPT and DECRYPTX is the last byte of the decryption. -/
def Obligations.ResultLengths : Prop :=
  ∀ (i : Instr) (s t : State), exec i s = .next t → t.err = false →
    t.outLen.toNat ≤ s.cap ∧
    match i with
    | .hexenc => t.outLen.toNat = 2 * s.inLen.toNat
    | .hexdec => t.outLen.toNat = s.inLen.toNat / 2 ∧ s.inLen.toNat % 2 = 0
    | .pad | .encrypt => t.outLen.toNat = s.inLen.toNat + 16 - s.inLen.toNat % 16
    | .unpad => ∃ p : Byte, 1 ≤ p.toNat ∧ p.toNat ≤ 16 ∧ 0 < s.inLen.toNat ∧
        s.byteAt .inp (s.inLen.toNat - 1) = p ∧ t.outLen.toNat + p.toNat = s.inLen.toNat
    | .decrypt => ∃ p : Byte, 1 ≤ p.toNat ∧ p.toNat ≤ 16 ∧
        (cbcDec (s.bytesAt .key 32) (s.bytesAt .iv 16) (s.bytesAt .inp s.inLen.toNat)).getLast? = some p ∧
        t.outLen.toNat + p.toNat = s.inLen.toNat
    | .ciphenc | .ciphdec => t.outLen.toNat = s.inLen.toNat
    | .encryptx => t.outLen.toNat = 33 + 2 * (s.inLen.toNat + 16 - s.inLen.toNat % 16)
    | .decryptx => ∃ (d : Nat) (v y : Bytes) (p : Byte), d < s.inLen.toNat ∧ s.byteAt .inp d = 0x3A#8 ∧
        (∀ j, j < d → s.byteAt .inp j ≠ 0x3A#8) ∧
        hexDec ((s.bytesAt .inp s.inLen.toNat).take d) = .ok v ∧
        hexDec ((s.bytesAt .inp s.inLen.toNat).drop (d + 1)) = .ok y ∧
        (cbcDec (s.bytesAt .key 32) v y).getLast? = some p ∧ 1 ≤ p.toNat ∧ p.toNat ≤ 16 ∧
        t.outLen.toNat + p.toNat = (s.inLen.toNat - d - 1) / 2

/-! ### Hex codec -/

/-- R104, R101: HEXENC completes, and OUT holds two lowercase digits for each input byte, high nibble first. -/
def Obligations.HexencDelivers : Prop :=
  ∀ s : State, 2 * s.inLen.toNat ≤ s.cap →
    ∃ t r, exec .hexenc s = .next t ∧ Delivers s t r ∧ r.length = 2 * s.inLen.toNat ∧
      ∀ i, i < s.inLen.toNat →
        r[2 * i]? = some (hexDigitChar (BitVec.ofNat 8 ((s.byteAt .inp i).toNat / 16))) ∧
        r[2 * i + 1]? = some (hexDigitChar (BitVec.ofNat 8 ((s.byteAt .inp i).toNat % 16)))

/-- R105, R103: HEXDEC of an even number of hex digits completes, and each byte of OUT is 16 times the value of
the first digit of its pair plus the value of the second. -/
def Obligations.HexdecDelivers : Prop :=
  ∀ s : State, s.inLen.toNat ≤ s.cap → s.inLen.toNat % 2 = 0 →
    (∀ i, i < s.inLen.toNat → (hexVal (s.byteAt .inp i)).isSome = true) →
    ∃ t r, exec .hexdec s = .next t ∧ Delivers s t r ∧ r.length = s.inLen.toNat / 2 ∧
      ∀ j, j < s.inLen.toNat / 2 → ∃ hi lo b, hexVal (s.byteAt .inp (2 * j)) = some hi ∧
        hexVal (s.byteAt .inp (2 * j + 1)) = some lo ∧ r[j]? = some b ∧
        b.toNat = 16 * hi.toNat + lo.toNat

/-- R104, R105, R232: where HEXENC and HEXDEC fail, with which code, first failing check first. -/
def Obligations.HexCodecFails : Prop :=
  ∀ s : State,
    (s.inLen.toNat > s.cap → FailsWith .hexenc s .capIn ∧ FailsWith .hexdec s .capIn) ∧
    (s.inLen.toNat ≤ s.cap →
      (2 * s.inLen.toNat > s.cap → FailsWith .hexenc s .capOut) ∧
      (s.inLen.toNat % 2 = 1 → FailsWith .hexdec s .hexOdd) ∧
      (s.inLen.toNat % 2 = 0 → (∃ i, i < s.inLen.toNat ∧ hexVal (s.byteAt .inp i) = none) →
        FailsWith .hexdec s .hexDigit))

/-- R106: the four laws of the hex codec, law 2 with the 22 accepted codes written out; and the digits that the
laws rest on: the value of every byte (R100, R102) and the sixteen lowercase digit characters (R100, R101). -/
def Obligations.HexCodecLaws : Prop :=
  (∀ b : Bytes, hexDec (hexEnc b) = .ok b) ∧
  (∀ s : Bytes, (∃ b, hexDec s = .ok b) ↔ s.length % 2 = 0 ∧ ∀ c ∈ s,
    (0x30 ≤ c.toNat ∧ c.toNat ≤ 0x39) ∨ (0x41 ≤ c.toNat ∧ c.toNat ≤ 0x46) ∨
    (0x61 ≤ c.toNat ∧ c.toNat ≤ 0x66)) ∧
  (∀ s b : Bytes, hexDec s = .ok b → hexEnc b =
    s.map (fun c => if 0x41 ≤ c.toNat ∧ c.toNat ≤ 0x46 then c + 0x20#8 else c)) ∧
  (∀ s b : Bytes, hexDec s = .ok b →
    (hexEnc b = s ↔ ∀ c ∈ s, ¬ (0x41 ≤ c.toNat ∧ c.toNat ≤ 0x46))) ∧
  (∀ b : Bytes, (hexEnc b).length = 2 * b.length) ∧
  (∀ s b : Bytes, hexDec s = .ok b → b.length = s.length / 2) ∧
  (∀ c v : Byte, hexVal c = some v ↔
    (0x30 ≤ c.toNat ∧ c.toNat ≤ 0x39 ∧ v.toNat = c.toNat - 0x30) ∨
    (0x41 ≤ c.toNat ∧ c.toNat ≤ 0x46 ∧ v.toNat = c.toNat - 0x41 + 10) ∨
    (0x61 ≤ c.toNat ∧ c.toNat ≤ 0x66 ∧ v.toNat = c.toNat - 0x61 + 10)) ∧
  [0#8, 1#8, 2#8, 3#8, 4#8, 5#8, 6#8, 7#8, 8#8, 9#8, 10#8, 11#8, 12#8, 13#8, 14#8, 15#8].map hexDigitChar =
    [0x30#8, 0x31#8, 0x32#8, 0x33#8, 0x34#8, 0x35#8, 0x36#8, 0x37#8, 0x38#8, 0x39#8, 0x61#8, 0x62#8, 0x63#8,
      0x64#8, 0x65#8, 0x66#8]

/-! ### Padding -/

/-- R122, R120: PAD completes with the input followed by r bytes of value r, 1 <= r <= 16. -/
def Obligations.PadDelivers : Prop :=
  ∀ s : State, s.inLen.toNat + 16 - s.inLen.toNat % 16 ≤ s.cap →
    ∃ t r, exec .pad s = .next t ∧ Delivers s t r ∧
      r.length = s.inLen.toNat + 16 - s.inLen.toNat % 16 ∧
      (∀ i, i < s.inLen.toNat → r[i]? = some (s.byteAt .inp i)) ∧
      ∀ i, s.inLen.toNat ≤ i → i < r.length → r[i]? = some (BitVec.ofNat 8 (16 - s.inLen.toNat % 16))

/-- R123, R121: UNPAD of a well-formed padding completes with the input less its last p bytes. -/
def Obligations.UnpadDelivers : Prop :=
  ∀ (s : State) (p : Nat), s.inLen.toNat ≤ s.cap → 1 ≤ p → p ≤ 16 → p ≤ s.inLen.toNat →
    (∀ i, s.inLen.toNat - p ≤ i → i < s.inLen.toNat → (s.byteAt .inp i).toNat = p) →
    ∃ t r, exec .unpad s = .next t ∧ Delivers s t r ∧ r.length = s.inLen.toNat - p ∧
      ∀ i, i < r.length → r[i]? = some (s.byteAt .inp i)

/-- R122, R123, R232: where PAD and UNPAD fail, with which code, first failing check first. -/
def Obligations.PaddingFails : Prop :=
  ∀ s : State,
    (s.inLen.toNat > s.cap → FailsWith .pad s .capIn ∧ FailsWith .unpad s .capIn) ∧
    (s.inLen.toNat ≤ s.cap →
      (s.inLen.toNat + 16 - s.inLen.toNat % 16 > s.cap → FailsWith .pad s .capOut) ∧
      (s.inLen.toNat = 0 → FailsWith .unpad s .padEmpty) ∧
      (∀ p, 0 < s.inLen.toNat → (s.byteAt .inp (s.inLen.toNat - 1)).toNat = p →
        (p = 0 → FailsWith .unpad s .padZero) ∧
        (p > 16 → FailsWith .unpad s .padOver) ∧
        (1 ≤ p → p ≤ 16 → s.inLen.toNat < p → FailsWith .unpad s .padShort) ∧
        (1 ≤ p → p ≤ 16 → p ≤ s.inLen.toNat →
          (∃ i, s.inLen.toNat - p ≤ i ∧ i < s.inLen.toNat ∧ (s.byteAt .inp i).toNat ≠ p) →
          FailsWith .unpad s .padMismatch)))

/-- R124: the five laws of the padding codec. -/
def Obligations.PaddingLaws : Prop :=
  (∀ b : Bytes, 1 ≤ (pad b).length - b.length ∧ (pad b).length - b.length ≤ 16) ∧
  (∀ b : Bytes, (pad b).length % 16 = 0 ∧ (pad b).length ≥ 16) ∧
  (∀ b : Bytes, unpad (pad b) = .ok b) ∧
  (∀ b c : Bytes, unpad c = .ok b → c.length % 16 = 0 → pad b = c) ∧
  (∀ b c : Bytes, pad b = pad c → b = c)

/-! ### The block cipher -/

/-- R140: the field GF(2^8): the product is commutative and associative, distributes over the exclusive or, has
the unit 0x01, every non-zero byte has exactly one inverse, and the multiples the cipher uses are what the rule
lists. -/
def Obligations.FieldOfBytes : Prop :=
  (∀ a : Byte, xtime a = if a.toNat < 128 then BitVec.ofNat 8 (2 * a.toNat)
    else BitVec.ofNat 8 (2 * a.toNat) ^^^ 0x1B#8) ∧
  (∀ a b : Byte, gfMul a b = gfMul b a) ∧
  (∀ a b c : Byte, gfMul (gfMul a b) c = gfMul a (gfMul b c)) ∧
  (∀ a b c : Byte, gfMul a (b ^^^ c) = gfMul a b ^^^ gfMul a c) ∧
  (∀ a : Byte, gfMul 0x01#8 a = a) ∧
  (∀ a : Byte, a ≠ 0#8 → ∃ b, gfMul a b = 0x01#8 ∧ ∀ c, gfMul a c = 0x01#8 → c = b) ∧
  (∀ a : Byte, mul02 a = gfMul 0x02#8 a ∧ mul03 a = gfMul 0x03#8 a ∧ mul09 a = gfMul 0x09#8 a ∧
    mul0B a = gfMul 0x0B#8 a ∧ mul0D a = gfMul 0x0D#8 a ∧ mul0E a = gfMul 0x0E#8 a)

/-- R141, R142: the table of SBOX agrees with the formula `A(inv(a))`, and INVSBOX is its inverse on both
sides. -/
def Obligations.SboxTables : Prop :=
  sbox 0x00#8 = sboxAffine 0x00#8 ∧
  (∀ a b : Byte, gfMul a b = 0x01#8 → sbox a = sboxAffine b) ∧
  (∀ a : Byte, invSbox (sbox a) = a ∧ sbox (invSbox a) = a)

/-- R145, R147: the operations on key words; and the key expansion of a 32-byte key: 60 words of 4 bytes, the
key first, then the recurrence, and the round keys. -/
def Obligations.KeyExpansionWords : Prop :=
  (∀ x y : Bytes, x.length = y.length → (xorBytes x y).length = x.length ∧
    ∀ i, i < x.length → ∃ a b, x[i]? = some a ∧ y[i]? = some b ∧ (xorBytes x y)[i]? = some (a ^^^ b)) ∧
  (∀ a0 a1 a2 a3 : Byte, rotWord [a0, a1, a2, a3] = [a1, a2, a3, a0] ∧
    subWord [a0, a1, a2, a3] = [sbox a0, sbox a1, sbox a2, sbox a3]) ∧
  (∀ j, rcon j = [rc j, 0x00#8, 0x00#8, 0x00#8]) ∧ rc 1 = 0x01#8 ∧
  (∀ j, 1 ≤ j → rc (j + 1) = xtime (rc j)) ∧
  ∀ k : Bytes, k.length = 32 →
    (keyExpansion k).length = 60 ∧ (∀ v ∈ keyExpansion k, v.length = 4) ∧
    (∀ i, i < 8 → (keyExpansion k)[i]? = some ((k.drop (4 * i)).take 4)) ∧
    (∀ i, 8 ≤ i → i < 60 → ∃ u t,
      (keyExpansion k)[i - 8]? = some u ∧ (keyExpansion k)[i - 1]? = some t ∧
      (keyExpansion k)[i]? = some (xorBytes u
        (if i % 8 = 0 then xorBytes (subWord (rotWord t)) (rcon (i / 8))
          else if i % 8 = 4 then subWord t else t))) ∧
    ∀ r, r ≤ 14 → (roundKey (keyExpansion k) r).length = 16 ∧
      ∀ i, i < 16 → (roundKey (keyExpansion k) r)[i]? =
        ((keyExpansion k)[4 * r + i / 4]?).bind (fun v => v[i % 4]?)

/-- R148 to R153: on blocks of 16 bytes each round transformation is what its rule writes, byte by byte (the
columns through the product of R140), it is undone by its partner, `InvShiftRows` and `InvSubBytes` commute, and
the two block functions run the rounds in the order of R152 and R153, whose states σ are given round by round. -/
def Obligations.RoundTransformationsInvert : Prop :=
  ∀ s : Bytes, s.length = 16 →
    invSubBytes (subBytes s) = s ∧ subBytes (invSubBytes s) = s ∧
    invShiftRows (shiftRows s) = s ∧ shiftRows (invShiftRows s) = s ∧
    invMixColumns (mixColumns s) = s ∧ mixColumns (invMixColumns s) = s ∧
    invShiftRows (invSubBytes s) = invSubBytes (invShiftRows s) ∧
    (∀ i : Nat, (subBytes s)[i]? = s[i]?.map sbox ∧ (invSubBytes s)[i]? = s[i]?.map invSbox) ∧
    (∀ r c : Nat, r < 4 → c < 4 → (shiftRows s)[r + 4 * c]? = s[r + 4 * ((c + r) % 4)]? ∧
      (invShiftRows s)[r + 4 * ((c + r) % 4)]? = s[r + 4 * c]?) ∧
    (∀ c : Nat, c < 4 → ∃ a0 a1 a2 a3, s[4 * c]? = some a0 ∧ s[4 * c + 1]? = some a1 ∧
      s[4 * c + 2]? = some a2 ∧ s[4 * c + 3]? = some a3 ∧
      (mixColumns s)[4 * c]? = some (gfMul 0x02#8 a0 ^^^ gfMul 0x03#8 a1 ^^^ a2 ^^^ a3) ∧
      (mixColumns s)[4 * c + 1]? = some (a0 ^^^ gfMul 0x02#8 a1 ^^^ gfMul 0x03#8 a2 ^^^ a3) ∧
      (mixColumns s)[4 * c + 2]? = some (a0 ^^^ a1 ^^^ gfMul 0x02#8 a2 ^^^ gfMul 0x03#8 a3) ∧
      (mixColumns s)[4 * c + 3]? = some (gfMul 0x03#8 a0 ^^^ a1 ^^^ a2 ^^^ gfMul 0x02#8 a3) ∧
      (invMixColumns s)[4 * c]? =
        some (gfMul 0x0E#8 a0 ^^^ gfMul 0x0B#8 a1 ^^^ gfMul 0x0D#8 a2 ^^^ gfMul 0x09#8 a3) ∧
      (invMixColumns s)[4 * c + 1]? =
        some (gfMul 0x09#8 a0 ^^^ gfMul 0x0E#8 a1 ^^^ gfMul 0x0B#8 a2 ^^^ gfMul 0x0D#8 a3) ∧
      (invMixColumns s)[4 * c + 2]? =
        some (gfMul 0x0D#8 a0 ^^^ gfMul 0x09#8 a1 ^^^ gfMul 0x0E#8 a2 ^^^ gfMul 0x0B#8 a3) ∧
      (invMixColumns s)[4 * c + 3]? =
        some (gfMul 0x0B#8 a0 ^^^ gfMul 0x0D#8 a1 ^^^ gfMul 0x09#8 a2 ^^^ gfMul 0x0E#8 a3)) ∧
    ∀ k : Bytes, k.length = 32 →
      (∀ r, r ≤ 14 → addRoundKey (addRoundKey s (keyExpansion k) r) (keyExpansion k) r = s ∧
        ∀ i, i < 16 → ∃ a v b, s[i]? = some a ∧ (keyExpansion k)[4 * r + i / 4]? = some v ∧
          v[i % 4]? = some b ∧ (addRoundKey s (keyExpansion k) r)[i]? = some (a ^^^ b)) ∧
      (∀ σ : Nat → Bytes, σ 0 = addRoundKey s (keyExpansion k) 0 →
        (∀ r, r < 13 →
          σ (r + 1) = addRoundKey (mixColumns (shiftRows (subBytes (σ r)))) (keyExpansion k) (r + 1)) →
        aesEncBlock (keyExpansion k) s = addRoundKey (shiftRows (subBytes (σ 13))) (keyExpansion k) 14) ∧
      ∀ σ : Nat → Bytes, σ 0 = addRoundKey s (keyExpansion k) 14 →
        (∀ r, r < 13 → σ (r + 1) =
          invMixColumns (addRoundKey (invSubBytes (invShiftRows (σ r))) (keyExpansion k) (13 - r))) →
        aesDecBlock (keyExpansion k) s = addRoundKey (invSubBytes (invShiftRows (σ 13))) (keyExpansion k) 0

/-- R154: the two block functions are inverse to each other for every key and every block. -/
def Obligations.AesBlockInverse : Prop :=
  ∀ k x : Bytes, k.length = 32 → x.length = 16 →
    (aesEncBlock (keyExpansion k) x).length = 16 ∧ (aesDecBlock (keyExpansion k) x).length = 16 ∧
    aesDecBlock (keyExpansion k) (aesEncBlock (keyExpansion k) x) = x ∧
    aesEncBlock (keyExpansion k) (aesDecBlock (keyExpansion k) x) = x

/-! ### CBC and the cipher commands -/

/-- R170, R171: CBC block by block: a ciphertext block is the encryption of the plaintext block combined with
the ciphertext block before it (the IV for the first), and decryption undoes it. -/
def Obligations.CbcByBlocks : Prop :=
  ∀ k v x : Bytes, k.length = 32 → v.length = 16 → x.length % 16 = 0 →
    (cbcEnc k v x).length = x.length ∧ (cbcDec k v x).length = x.length ∧
    ∀ j, j < x.length / 16 →
      block (cbcEnc k v x) j = aesEncBlock (keyExpansion k)
        (xorBytes (block x j) (if j = 0 then v else block (cbcEnc k v x) (j - 1))) ∧
      block (cbcDec k v x) j =
        xorBytes (aesDecBlock (keyExpansion k) (block x j)) (if j = 0 then v else block x (j - 1))

/-- R178 law 1: decryption under the same key and IV gives back the input, both ways round. -/
def Obligations.CbcRoundTrip : Prop :=
  ∀ k v x : Bytes, k.length = 32 → v.length = 16 → x.length % 16 = 0 →
    cbcDec k v (cbcEnc k v x) = x ∧ cbcEnc k v (cbcDec k v x) = x

/-- R178 laws 3 to 5: the prefix property; a wrong IV changes block 0 only, by the difference of the IVs; a
changed ciphertext block changes its own block and, by exactly the change, the next one, and nothing else. -/
def Obligations.CbcErrorPropagation : Prop :=
  (∀ (k v x x' : Bytes) (j : Nat), k.length = 32 → v.length = 16 → x.length % 16 = 0 → x'.length % 16 = 0 →
    j < x.length / 16 → j < x'.length / 16 → x.take (16 * j + 16) = x'.take (16 * j + 16) →
    block (cbcEnc k v x) j = block (cbcEnc k v x') j) ∧
  (∀ k v v' y : Bytes, k.length = 32 → v.length = 16 → v'.length = 16 → y.length % 16 = 0 →
    ∀ j, j < y.length / 16 → block (cbcDec k v' y) j =
      if j = 0 then xorBytes (block (cbcDec k v y) j) (xorBytes v v') else block (cbcDec k v y) j) ∧
  (∀ (k v y y' : Bytes) (j : Nat), k.length = 32 → v.length = 16 → y.length % 16 = 0 →
    y'.length = y.length → j < y.length / 16 →
    (∀ i, i < y.length / 16 → (block y' i = block y i ↔ i ≠ j)) →
    ∀ i, i < y.length / 16 →
      (i = j → block (cbcDec k v y') i ≠ block (cbcDec k v y) i) ∧
      (i = j + 1 → block (cbcDec k v y') i =
        xorBytes (block (cbcDec k v y) i) (xorBytes (block y j) (block y' j))) ∧
      (i ≠ j → i ≠ j + 1 → block (cbcDec k v y') i = block (cbcDec k v y) i))

/-- R173: CIPHENC of a positive whole number of blocks, with key and IV declared, completes with `CbcEnc`. -/
def Obligations.CiphencDelivers : Prop :=
  ∀ s : State, s.inLen.toNat ≤ s.cap → 0 < s.inLen.toNat → s.inLen.toNat % 16 = 0 →
    s.keyLen = 32#32 → s.ivLen = 16#32 →
    ∃ t, exec .ciphenc s = .next t ∧
      Delivers s t (cbcEnc (s.bytesAt .key 32) (s.bytesAt .iv 16) (s.bytesAt .inp s.inLen.toNat))

/-- R174: CIPHDEC completes under the same conditions with `CbcDec`, whatever the input holds. -/
def Obligations.CiphdecDelivers : Prop :=
  ∀ s : State, s.inLen.toNat ≤ s.cap → 0 < s.inLen.toNat → s.inLen.toNat % 16 = 0 →
    s.keyLen = 32#32 → s.ivLen = 16#32 →
    ∃ t, exec .ciphdec s = .next t ∧
      Delivers s t (cbcDec (s.bytesAt .key 32) (s.bytesAt .iv 16) (s.bytesAt .inp s.inLen.toNat))

/-- R172, R173, R174, R191, R232: where CIPHENC, CIPHDEC and DECRYPT fail before any block is processed. -/
def Obligations.CipherChecksFail : Prop :=
  ∀ (s : State) (i : Instr), i ∈ [Instr.ciphenc, .ciphdec, .decrypt] →
    (s.inLen.toNat > s.cap → FailsWith i s .capIn) ∧
    (s.inLen.toNat ≤ s.cap →
      (s.inLen.toNat = 0 ∨ s.inLen.toNat % 16 ≠ 0 → FailsWith i s .lenBlock) ∧
      (0 < s.inLen.toNat → s.inLen.toNat % 16 = 0 →
        (s.keyLen ≠ 32#32 → FailsWith i s .keyLen) ∧
        (s.keyLen = 32#32 → s.ivLen ≠ 16#32 → FailsWith i s .ivLen)))

/-! ### Composite commands -/

/-- R190: ENCRYPT completes with `CbcEnc` of the padded input. -/
def Obligations.EncryptDelivers : Prop :=
  ∀ s : State, s.inLen.toNat + 16 - s.inLen.toNat % 16 ≤ s.cap → s.keyLen = 32#32 → s.ivLen = 16#32 →
    ∃ t, exec .encrypt s = .next t ∧
      Delivers s t (cbcEnc (s.bytesAt .key 32) (s.bytesAt .iv 16) (pad (s.bytesAt .inp s.inLen.toNat)))

/-- R191: DECRYPT completes with the unpadded decryption where the padding is well formed. -/
def Obligations.DecryptDelivers : Prop :=
  ∀ (s : State) (b : Bytes), s.inLen.toNat ≤ s.cap → 0 < s.inLen.toNat → s.inLen.toNat % 16 = 0 →
    s.keyLen = 32#32 → s.ivLen = 16#32 →
    unpad (cbcDec (s.bytesAt .key 32) (s.bytesAt .iv 16) (s.bytesAt .inp s.inLen.toNat)) = .ok b →
    ∃ t, exec .decrypt s = .next t ∧ Delivers s t b

/-- R191, R221, R123: the padding failures of DECRYPT and DECRYPTX: only `E_PAD_ZERO`, `E_PAD_OVER` and
`E_PAD_MISMATCH` can arise, and which of them is decided by the decrypted bytes. -/
def Obligations.DecryptPaddingFails : Prop :=
  ∀ (s : State) (c : ECode), s.inLen.toNat ≤ s.cap → 0 < s.inLen.toNat → s.inLen.toNat % 16 = 0 →
    s.keyLen = 32#32 → s.ivLen = 16#32 →
    unpad (cbcDec (s.bytesAt .key 32) (s.bytesAt .iv 16) (s.bytesAt .inp s.inLen.toNat)) = .error c →
    FailsWith .decrypt s c ∧ c ∈ [ECode.padZero, .padOver, .padMismatch]

/-- R192: ENCRYPTX completes with the hex IV, the delimiter 0x3A and the hex ciphertext. -/
def Obligations.EncryptxDelivers : Prop :=
  ∀ s : State, 33 + 2 * (s.inLen.toNat + 16 - s.inLen.toNat % 16) ≤ s.cap →
    s.keyLen = 32#32 → s.ivLen = 16#32 →
    ∃ t, exec .encryptx s = .next t ∧
      Delivers s t (hexEnc (s.bytesAt .iv 16) ++ [0x3A#8] ++ hexEnc
        (cbcEnc (s.bytesAt .key 32) (s.bytesAt .iv 16) (pad (s.bytesAt .inp s.inLen.toNat))))

/-- R190, R192, R232: where ENCRYPT and ENCRYPTX fail: input capacity, output capacity, key length, IV
length. -/
def Obligations.EncryptChecksFail : Prop :=
  ∀ (s : State) (n : Nat), s.inLen.toNat + 16 - s.inLen.toNat % 16 = n →
    (s.inLen.toNat > s.cap → FailsWith .encrypt s .capIn ∧ FailsWith .encryptx s .capIn) ∧
    (s.inLen.toNat ≤ s.cap →
      (n > s.cap → FailsWith .encrypt s .capOut) ∧
      (33 + 2 * n > s.cap → FailsWith .encryptx s .capOut) ∧
      (s.keyLen ≠ 32#32 →
        (n ≤ s.cap → FailsWith .encrypt s .keyLen) ∧
        (33 + 2 * n ≤ s.cap → FailsWith .encryptx s .keyLen)) ∧
      (s.keyLen = 32#32 → s.ivLen ≠ 16#32 →
        (n ≤ s.cap → FailsWith .encrypt s .ivLen) ∧
        (33 + 2 * n ≤ s.cap → FailsWith .encryptx s .ivLen)))

/-- R193: DECRYPTX completes where the text splits at its first 0x3A into the hex of a 16-byte IV and the hex of
a positive whole number of blocks whose decryption is well padded. -/
def Obligations.DecryptxDelivers : Prop :=
  ∀ (s : State) (ivText ctText v y b : Bytes), s.inLen.toNat ≤ s.cap →
    s.bytesAt .inp s.inLen.toNat = ivText ++ [0x3A#8] ++ ctText → 0x3A#8 ∉ ivText →
    hexDec ivText = .ok v → hexDec ctText = .ok y → 0 < y.length → y.length % 16 = 0 →
    s.keyLen = 32#32 → v.length = 16 → unpad (cbcDec (s.bytesAt .key 32) v y) = .ok b →
    ∃ t, exec .decryptx s = .next t ∧ Delivers s t b

/-- R193, R232: where DECRYPTX fails, with which code, first failing check first. -/
def Obligations.DecryptxFails : Prop :=
  ∀ s : State,
    (s.inLen.toNat > s.cap → FailsWith .decryptx s .capIn) ∧
    (s.inLen.toNat ≤ s.cap →
      (0x3A#8 ∉ s.bytesAt .inp s.inLen.toNat → FailsWith .decryptx s .noDelim) ∧
      ∀ ivText ctText : Bytes, s.bytesAt .inp s.inLen.toNat = ivText ++ [0x3A#8] ++ ctText →
        0x3A#8 ∉ ivText →
        (∀ c, hexDec ivText = .error c → FailsWith .decryptx s c) ∧
        ∀ v, hexDec ivText = .ok v →
          (∀ c, hexDec ctText = .error c → FailsWith .decryptx s c) ∧
          ∀ y, hexDec ctText = .ok y →
            (y.length = 0 ∨ y.length % 16 ≠ 0 → FailsWith .decryptx s .lenBlock) ∧
            (0 < y.length → y.length % 16 = 0 →
              (s.keyLen ≠ 32#32 → FailsWith .decryptx s .keyLen) ∧
              (s.keyLen = 32#32 → v.length ≠ 16 → FailsWith .decryptx s .ivLen) ∧
              (s.keyLen = 32#32 → v.length = 16 →
                ∀ c, unpad (cbcDec (s.bytesAt .key 32) v y) = .error c →
                  FailsWith .decryptx s c ∧ c ∈ [ECode.padZero, .padOver, .padMismatch])))

/-- R194 law 1: ENCRYPT then DECRYPT of its result, under the same key and IV, gives back the input. The second
state is any state that holds that result as its input and the same key and IV. -/
def Obligations.EncryptDecryptRoundTrip : Prop :=
  ∀ s s' : State, s.keyLen = 32#32 → s.ivLen = 16#32 → s.inLen.toNat + 16 - s.inLen.toNat % 16 ≤ s.cap →
    ∃ t, exec .encrypt s = .next t ∧ t.status = 0x00000002#32 ∧
      (SameKey s s' → SameIv s s' → s'.capr = s.capr → s'.inLen = t.outLen →
        (∀ i, i < t.outLen.toNat → t.specifiedByte .out i = some (s'.byteAt .inp i)) →
        ∃ t', exec .decrypt s' = .next t' ∧ Delivers s' t' (s.bytesAt .inp s.inLen.toNat))

/-- R194 law 2: ENCRYPTX then DECRYPTX of its text, under the same key, gives back the input, whatever the IV
window of the second state holds. -/
def Obligations.EncryptxDecryptxRoundTrip : Prop :=
  ∀ s s' : State, s.keyLen = 32#32 → s.ivLen = 16#32 →
    33 + 2 * (s.inLen.toNat + 16 - s.inLen.toNat % 16) ≤ s.cap →
    ∃ t, exec .encryptx s = .next t ∧ t.status = 0x00000002#32 ∧
      (SameKey s s' → s'.capr = s.capr → s'.inLen = t.outLen →
        (∀ i, i < t.outLen.toNat → t.specifiedByte .out i = some (s'.byteAt .inp i)) →
        ∃ t', exec .decryptx s' = .next t' ∧ Delivers s' t' (s.bytesAt .inp s.inLen.toNat))

/-- R194 law 3: ENCRYPT is PAD then CIPHENC, and DECRYPT is CIPHDEC then UNPAD, with the same outcome, success
or padding failure: the intermediate state is any that holds the first command's result as its input. -/
def Obligations.CompositesAreSequences : Prop :=
  (∀ s t s' : State, s.keyLen = 32#32 → s.ivLen = 16#32 →
    exec .pad s = .next t → t.err = false → SameKey s s' → SameIv s s' → s'.capr = s.capr →
    s'.inLen = t.outLen → (∀ i, i < t.outLen.toNat → t.specifiedByte .out i = some (s'.byteAt .inp i)) →
    ∃ u u', exec .encrypt s = .next u ∧ exec .ciphenc s' = .next u' ∧ u.status = 0x00000002#32 ∧
      SameResult u u') ∧
  (∀ s t s' : State, exec .ciphdec s = .next t → t.err = false → s'.capr = s.capr →
    s'.inLen = t.outLen → (∀ i, i < t.outLen.toNat → t.specifiedByte .out i = some (s'.byteAt .inp i)) →
    ∃ u u', exec .decrypt s = .next u ∧ exec .unpad s' = .next u' ∧ SameResult u u')

/-! ### Reset, invariants, progress -/

/-- R44: the state after reset. KEY, IN and OUT have no specified byte, each byte of IV is 0x00, and `CAPR` is
`CAP` (256, the instance of the reset state, is the model's choice: notes/assumptions/2.md). -/
def Obligations.ResetStateValues : Prop :=
  (∀ i, i < 32 → State.reset.specifiedByte .key i = none) ∧ State.reset.keyLen = 0#32 ∧
  (∀ i, i < 16 → State.reset.specifiedByte .iv i = some 0x00#8) ∧ State.reset.ivLen = 16#32 ∧
  (∀ i, i < State.reset.cap → State.reset.specifiedByte .inp i = none) ∧ State.reset.inLen = 0#32 ∧
  (∀ i, i < State.reset.cap → State.reset.specifiedByte .out i = none) ∧ State.reset.outLen = 0#32 ∧
  State.reset.cmdr = 0#32 ∧ State.reset.status = 0x00000000#32 ∧ State.reset.cap = Config.resetCap ∧
  capOk State.reset.cap = true

/-- R260, R261: the external reset, in any state, also while a command is in flight: every element takes its
reset value, and the command in flight is abandoned. That the host's inputs and replies go on is the model's
choice (notes/assumptions/7.md). -/
def Obligations.ExternalReset : Prop :=
  ∀ s : State, ∃ t, serveInput .reset s = .next t ∧
    (∀ i, t.specifiedByte .key i = none) ∧ t.keyLen = 0#32 ∧
    (∀ i, t.specifiedByte .iv i = some 0x00#8) ∧ t.ivLen = 16#32 ∧
    (∀ i, t.specifiedByte .inp i = none) ∧ t.inLen = 0#32 ∧
    (∀ i, t.specifiedByte .out i = none) ∧ t.outLen = 0#32 ∧
    t.cmdr = 0#32 ∧ t.status = 0x00000000#32 ∧ t.capr = s.capr ∧
    t.inputs = s.inputs ∧ t.replies = s.replies ∧ coreMoves t = false

/-- Every step keeps the invariant: the windows in canonical form, STATUS legal, the result in OUT as long as
`OUT_LEN` says and within `CAP`, and `CAP` in its range (R31, R28, R29, R228, R6). -/
def Obligations.StepKeepsInvariant : Prop :=
  ∀ s t : State, s.Inv → step s = .next t → t.Inv ∧ t.capr = s.capr

/-- The reset state meets the invariant, with any inputs placed. -/
def Obligations.ResetHasInvariant : Prop :=
  ∀ inputs : List Input, ({ State.reset with inputs := inputs } : State).Inv

/-- R32: the invariants of STATUS, in every state that meets the model's invariant. -/
def Obligations.StatusInvariants : Prop :=
  ∀ s : State, s.Inv →
    ¬ (s.busy = true ∧ s.done = true) ∧ (s.err = true → s.done = true) ∧
    (s.err = true → ∃ c : ECode, c.raisedByCore = true ∧ s.ecode = c.code) ∧
    (s.err = false → s.ecode = 0x00#8) ∧ (s.err = true → s.outLen = 0#32)

/-- R86, R275: a command in flight completes after at most as many host steps as its latency says, while the
host's inputs are admitted transactions; a transaction cannot postpone it, and none is blocked. -/
def Obligations.LaunchedCommandCompletes : Prop :=
  ∀ s : State, s.busy = true →
    (∀ item ∈ s.inputs, ∃ x : Txn, item = .txn x ∧ x.admitted s.cap = true) →
    ∃ (k : Nat) (t : State), k ≤ s.latency + 1 ∧ Sys2Proof.core.run k s = .next t ∧
      t.busy = false ∧ t.done = true ∧ t.cmdr = s.cmdr ∧ t.inputs = s.inputs.drop (k - 1)

/-- R93, R86: `wait` after a launch ends, and the last value it reads is the STATUS of the completed
command. -/
def Obligations.WaitEnds : Prop :=
  ∀ (s : State) (rest : List Input), s.busy = true → s.inputs = .await :: rest →
    ∃ (k : Nat) (t : State), k ≤ s.latency + 2 ∧ Sys2Proof.core.run k s = .next t ∧
      t.busy = false ∧ t.done = true ∧ t.inputs = rest ∧ t.replies.head? = some (.word t.status)

/-- R67 (c), R65, R268: once a command has completed, its STATUS, `OUT_LEN` and every byte of OUT stay through
every step that is neither a launch nor a reset. -/
def Obligations.ResultStaysUntilLaunch : Prop :=
  ∀ (s t : State) (item : Input) (rest : List Input), s.busy = false → s.inputs = item :: rest →
    item ≠ .reset → (∀ w, item ≠ .txn (.wr32 0x00 w)) → step s = .next t →
    t.status = s.status ∧ t.outLen = s.outLen ∧ t.cmdr = s.cmdr ∧
      ∀ i, t.specifiedByte .out i = s.specifiedByte .out i

/-- R93, R55, R263: `ldkey` of 32 bytes on an idle core leaves KEY holding them and `KEY_LEN` = 32, with every
other register and every byte of the other windows as before. -/
def Obligations.LdkeyLoadsKey : Prop :=
  ∀ (s : State) (k : Bytes) (rest : List Input), s.busy = false → keyLoadOk k = true →
    s.inputs = scriptLdkey k ++ rest →
    ∃ t, Sys2Proof.core.run 33 s = .next t ∧ t = { s with mem := t.mem, keyLen := 32#32, inputs := rest } ∧
      (∀ i, i < 32 → t.specifiedByte .key i = k[i]?) ∧
      ∀ sp i, sp ≠ Space.key → t.specifiedByte sp i = s.specifiedByte sp i

/-- R93, R57: `rdout` after a success returns `OUT_LEN` and then the bytes of the result in order, and changes
nothing in the core. -/
def Obligations.RdoutReturnsResult : Prop :=
  ∀ (s : State) (rest : List Input), s.Inv → s.status = 0x00000002#32 → s.inputs = .rdout :: rest →
    ∃ (t : State) (b : Bytes), Sys2Proof.core.run (s.outLen.toNat + 1) s = .next t ∧
      b.length = s.outLen.toNat ∧ (∀ i, i < b.length → s.specifiedByte .out i = b[i]?) ∧
      t = { s with inputs := rest, replies := (b.map Reply.byte).reverse ++ .word s.outLen :: s.replies }

/-- R93: `mvout` after a success leaves the result as the input: IN holds its bytes and `IN_LEN` its length, OUT
and STATUS stay, and every other register is as before. The rule's expansion has 2 * `OUT_LEN` + 2 transactions;
the one step more is the model's own `copyBack`, between the reads and the writes (notes/assumptions/3.md). -/
def Obligations.MvoutCopiesResult : Prop :=
  ∀ (s : State) (rest : List Input), s.Inv → s.status = 0x00000002#32 → s.inputs = .mvout :: rest →
    ∃ t : State, Sys2Proof.core.run (2 * s.outLen.toNat + 3) s = .next t ∧
      t.inLen = s.outLen ∧ t.outLen = s.outLen ∧ t.status = s.status ∧ t.keyLen = s.keyLen ∧
      t.ivLen = s.ivLen ∧ t.cmdr = s.cmdr ∧ t.capr = s.capr ∧ t.inputs = rest ∧
      (∀ i, i < s.outLen.toNat → t.specifiedByte .inp i = s.specifiedByte .out i) ∧
      (∀ i, s.outLen.toNat ≤ i → t.specifiedByte .inp i = s.specifiedByte .inp i) ∧
      ∀ sp i, sp ≠ Space.inp → t.specifiedByte sp i = s.specifiedByte sp i
end

