-- ==== Sys2Proof/Laws/Codec.lean ====
section
/-! SUPPORT. What each of the functions that commands share can answer: the hex codec, the padding codec, the
cipher's checks, the exclusive or of sequences. -/

namespace Sys2Proof.Machine

/-! ### Hex codec -/

theorem hexEnc_length (b : Bytes) : (hexEnc b).length = 2 * b.length := by
  induction b with
  | nil => rfl
  | cons x rest ih => simp [hexEnc, ih]; omega

theorem hexPairs_length : ∀ s : Bytes, (hexPairs s).length = s.length / 2
  | [] => rfl
  | [_] => by simp [hexPairs]
  | _ :: _ :: rest => by simp [hexPairs, hexPairs_length rest]; omega

/-- When `HexDec` succeeds, and with what (R103). -/
theorem hexDec_ok_iff (s b : Bytes) : hexDec s = .ok b ↔
    s.length % 2 = 0 ∧ (∀ c ∈ s, (hexVal c).isSome = true) ∧ b = hexPairs s := by
  unfold hexDec
  split
  · next h => simp [h]
  · next h =>
    have h0 : s.length % 2 = 0 := by omega
    split
    · next hd =>
      obtain ⟨c, hc, hn⟩ := List.any_eq_true.1 hd
      simp only [reduceCtorEq, false_iff]
      rintro ⟨-, hall, -⟩
      have := hall c hc
      rw [Option.isNone_iff_eq_none] at hn
      simp [hn] at this
    · next hd =>
      have hall : ∀ c ∈ s, (hexVal c).isSome = true := by
        intro c hc
        cases hv : hexVal c with
        | none => exact absurd (List.any_eq_true.2 ⟨c, hc, by simp [hv]⟩) hd
        | some v => rfl
      simp only [Except.ok.injEq]
      exact ⟨fun h => ⟨h0, hall, h.symm⟩, fun h => h.2.2.symm⟩

/-- The two ways in which `HexDec` fails, the length first (R103). -/
theorem hexDec_error_cases (s : Bytes) (c : ECode) (h : hexDec s = .error c) :
    (c = .hexOdd ∧ s.length % 2 = 1) ∨
    (c = .hexDigit ∧ s.length % 2 = 0 ∧ ∃ d ∈ s, hexVal d = none) := by
  unfold hexDec at h
  split at h
  · next ho => exact .inl ⟨by simpa using h.symm, ho⟩
  · next ho =>
    split at h
    · next hd =>
      obtain ⟨d, hm, hn⟩ := List.any_eq_true.1 hd
      exact .inr ⟨by simpa using h.symm, by omega, d, hm, Option.isNone_iff_eq_none.1 hn⟩
    · simp at h

/-! ### Padding -/

theorem paddedLen_eq (n : Nat) : paddedLen n = n + 16 - n % 16 := by
  simp only [paddedLen, padCount, Config.BLOCK]; omega

theorem pad_length (b : Bytes) : (pad b).length = paddedLen b.length := by simp [pad, paddedLen]

/-- The five ways in which `Unpad` fails (R121). -/
theorem unpad_error_codes (b : Bytes) (c : ECode) (h : unpad b = .error c) :
    c ∈ [ECode.padEmpty, .padZero, .padOver, .padShort, .padMismatch] := by
  unfold unpad at h
  repeat' split at h
  all_goals first
    | (injection h with h; subst h; simp)
    | simp at h

/-- What a successful `Unpad` answers: the input less the number of bytes that its last byte says (R121). -/
theorem unpad_ok_length (c b : Bytes) (h : unpad c = .ok b) :
    ∃ p : Byte, c.getLast? = some p ∧ 1 ≤ p.toNat ∧ p.toNat ≤ 16 ∧ p.toNat ≤ c.length ∧
      b = c.take (c.length - p.toNat) := by
  unfold unpad at h
  split at h
  · simp at h
  · next p hp =>
    split at h
    · simp at h
    · next h0 =>
      split at h
      · simp at h
      · next h1 =>
        split at h
        · simp at h
        · next h2 =>
          split at h
          · simp at h
          · have hpos : p.toNat ≠ 0 := fun hz => h0 (BitVec.eq_of_toNat_eq (by simpa using hz))
            exact ⟨p, hp, by omega, by simpa [Config.BLOCK] using h1, by omega, by simpa using h.symm⟩

/-! ### The cipher's checks, and the exclusive or of sequences -/

theorem cipherCheck_ok_iff (n klen vlen : Nat) : cipherCheck n klen vlen = .ok () ↔
    n ≠ 0 ∧ n % 16 = 0 ∧ klen = 32 ∧ vlen = 16 := by
  unfold cipherCheck Config.BLOCK Config.KEYBYTES Config.IVBYTES
  split
  · next h => simp only [reduceCtorEq, false_iff]; omega
  · next h =>
    split
    · next hk => simp only [reduceCtorEq, false_iff]; omega
    · next hk =>
      split
      · next hv => simp only [reduceCtorEq, false_iff]; omega
      · next hv => simp only [true_iff]; omega

theorem cipherCheck_error_codes (n klen vlen : Nat) (c : ECode) (h : cipherCheck n klen vlen = .error c) :
    c ∈ [ECode.lenBlock, .keyLen, .ivLen] := by
  unfold cipherCheck at h
  repeat' split at h
  all_goals first
    | (injection h with h; subst h; simp)
    | simp at h

theorem xorBytes_length (x y : Bytes) : (xorBytes x y).length = min x.length y.length := by simp [xorBytes]

end Sys2Proof.Machine
end

