-- ==== Sys2Proof/Laws/State.lean ====
section
/-! SUPPORT. One lemma for each field under each update of the state, true by `rfl` and tagged `@[simp]`, so that
no later proof unfolds a record update; and the same for the windows of `Memory`. -/

namespace Sys2Proof.Machine

/-! ### The windows -/

@[simp] theorem withCells_cells_same (m : Memory) (sp : Space) (l : List Host.Cell) :
    (m.withCells sp l).cells sp = l := by cases sp <;> rfl

theorem withCells_cells_other (m : Memory) (sp sp' : Space) (l : List Host.Cell) (h : sp' ≠ sp) :
    (m.withCells sp l).cells sp' = m.cells sp' := by cases sp <;> cases sp' <;> first | rfl | exact absurd rfl h

@[simp] theorem withCells_key_key (m : Memory) (l : List Host.Cell) : (m.withCells .key l).key = l := rfl
@[simp] theorem withCells_key_iv (m : Memory) (l : List Host.Cell) : (m.withCells .key l).iv = m.iv := rfl
@[simp] theorem withCells_key_inp (m : Memory) (l : List Host.Cell) : (m.withCells .key l).inp = m.inp := rfl
@[simp] theorem withCells_key_out (m : Memory) (l : List Host.Cell) : (m.withCells .key l).out = m.out := rfl
@[simp] theorem withCells_iv_key (m : Memory) (l : List Host.Cell) : (m.withCells .iv l).key = m.key := rfl
@[simp] theorem withCells_iv_iv (m : Memory) (l : List Host.Cell) : (m.withCells .iv l).iv = l := rfl
@[simp] theorem withCells_iv_inp (m : Memory) (l : List Host.Cell) : (m.withCells .iv l).inp = m.inp := rfl
@[simp] theorem withCells_iv_out (m : Memory) (l : List Host.Cell) : (m.withCells .iv l).out = m.out := rfl
@[simp] theorem withCells_inp_key (m : Memory) (l : List Host.Cell) : (m.withCells .inp l).key = m.key := rfl
@[simp] theorem withCells_inp_iv (m : Memory) (l : List Host.Cell) : (m.withCells .inp l).iv = m.iv := rfl
@[simp] theorem withCells_inp_inp (m : Memory) (l : List Host.Cell) : (m.withCells .inp l).inp = l := rfl
@[simp] theorem withCells_inp_out (m : Memory) (l : List Host.Cell) : (m.withCells .inp l).out = m.out := rfl
@[simp] theorem withCells_out_key (m : Memory) (l : List Host.Cell) : (m.withCells .out l).key = m.key := rfl
@[simp] theorem withCells_out_iv (m : Memory) (l : List Host.Cell) : (m.withCells .out l).iv = m.iv := rfl
@[simp] theorem withCells_out_inp (m : Memory) (l : List Host.Cell) : (m.withCells .out l).inp = m.inp := rfl
@[simp] theorem withCells_out_out (m : Memory) (l : List Host.Cell) : (m.withCells .out l).out = l := rfl
@[simp] theorem cells_key (m : Memory) : m.cells .key = m.key := rfl
@[simp] theorem cells_iv (m : Memory) : m.cells .iv = m.iv := rfl
@[simp] theorem cells_inp (m : Memory) : m.cells .inp = m.inp := rfl
@[simp] theorem cells_out (m : Memory) : m.cells .out = m.out := rfl

/-! ### The fields after `launch` -/

@[simp] theorem launch_mem (s : State) (w : Word) : (s.launch w).mem = s.mem.withCells .out [] := rfl
@[simp] theorem launch_keyLen (s : State) (w : Word) : (s.launch w).keyLen = s.keyLen := rfl
@[simp] theorem launch_ivLen (s : State) (w : Word) : (s.launch w).ivLen = s.ivLen := rfl
@[simp] theorem launch_inLen (s : State) (w : Word) : (s.launch w).inLen = s.inLen := rfl
@[simp] theorem launch_outLen (s : State) (w : Word) : (s.launch w).outLen = Config.freeWord s.draws s.mem.held := rfl
@[simp] theorem launch_cmdr (s : State) (w : Word) : (s.launch w).cmdr = w := rfl
@[simp] theorem launch_status (s : State) (w : Word) : (s.launch w).status = statusBusy := rfl
@[simp] theorem launch_capr (s : State) (w : Word) : (s.launch w).capr = s.capr := rfl
@[simp] theorem launch_inputs (s : State) (w : Word) : (s.launch w).inputs = s.inputs := rfl
@[simp] theorem launch_replies (s : State) (w : Word) : (s.launch w).replies = s.replies := rfl
@[simp] theorem launch_latency (s : State) (w : Word) : (s.launch w).latency = Config.freeLatency s.draws s.mem.held w [s.inLen, s.keyLen, s.ivLen] := rfl
@[simp] theorem launch_draws (s : State) (w : Word) : (s.launch w).draws = s.draws + 1 := rfl

/-! ### The fields after `succeedWith` -/

@[simp] theorem succeedWith_mem (s : State) (r : Bytes) :
    (s.succeedWith r).mem = s.mem.withCells .out (cellsFrom 0 r) := rfl
@[simp] theorem succeedWith_keyLen (s : State) (r : Bytes) : (s.succeedWith r).keyLen = s.keyLen := rfl
@[simp] theorem succeedWith_ivLen (s : State) (r : Bytes) : (s.succeedWith r).ivLen = s.ivLen := rfl
@[simp] theorem succeedWith_inLen (s : State) (r : Bytes) : (s.succeedWith r).inLen = s.inLen := rfl
@[simp] theorem succeedWith_outLen (s : State) (r : Bytes) :
    (s.succeedWith r).outLen = BitVec.ofNat 32 r.length := rfl
@[simp] theorem succeedWith_cmdr (s : State) (r : Bytes) : (s.succeedWith r).cmdr = s.cmdr := rfl
@[simp] theorem succeedWith_status (s : State) (r : Bytes) : (s.succeedWith r).status = statusSuccess := rfl
@[simp] theorem succeedWith_capr (s : State) (r : Bytes) : (s.succeedWith r).capr = s.capr := rfl
@[simp] theorem succeedWith_inputs (s : State) (r : Bytes) : (s.succeedWith r).inputs = s.inputs := rfl
@[simp] theorem succeedWith_replies (s : State) (r : Bytes) : (s.succeedWith r).replies = s.replies := rfl
@[simp] theorem succeedWith_latency (s : State) (r : Bytes) : (s.succeedWith r).latency = s.latency := rfl
@[simp] theorem succeedWith_draws (s : State) (r : Bytes) : (s.succeedWith r).draws = s.draws + 1 := rfl

/-! ### The fields after `failWith` -/

@[simp] theorem failWith_mem (s : State) (c : ECode) : (s.failWith c).mem = s.mem.withCells .out [] := rfl
@[simp] theorem failWith_keyLen (s : State) (c : ECode) : (s.failWith c).keyLen = s.keyLen := rfl
@[simp] theorem failWith_ivLen (s : State) (c : ECode) : (s.failWith c).ivLen = s.ivLen := rfl
@[simp] theorem failWith_inLen (s : State) (c : ECode) : (s.failWith c).inLen = s.inLen := rfl
@[simp] theorem failWith_outLen (s : State) (c : ECode) : (s.failWith c).outLen = 0#32 := rfl
@[simp] theorem failWith_cmdr (s : State) (c : ECode) : (s.failWith c).cmdr = s.cmdr := rfl
@[simp] theorem failWith_status (s : State) (c : ECode) : (s.failWith c).status = statusFailure c := rfl
@[simp] theorem failWith_capr (s : State) (c : ECode) : (s.failWith c).capr = s.capr := rfl
@[simp] theorem failWith_inputs (s : State) (c : ECode) : (s.failWith c).inputs = s.inputs := rfl
@[simp] theorem failWith_replies (s : State) (c : ECode) : (s.failWith c).replies = s.replies := rfl
@[simp] theorem failWith_latency (s : State) (c : ECode) : (s.failWith c).latency = s.latency := rfl
@[simp] theorem failWith_draws (s : State) (c : ECode) : (s.failWith c).draws = s.draws + 1 := rfl

/-! ### The fields after `hardReset` -/

@[simp] theorem hardReset_mem (s : State) :
    (s.hardReset).mem = { key := [], iv := [], inp := [], out := [] } := rfl
@[simp] theorem hardReset_keyLen (s : State) : (s.hardReset).keyLen = 0#32 := rfl
@[simp] theorem hardReset_ivLen (s : State) : (s.hardReset).ivLen = 16#32 := rfl
@[simp] theorem hardReset_inLen (s : State) : (s.hardReset).inLen = 0#32 := rfl
@[simp] theorem hardReset_outLen (s : State) : (s.hardReset).outLen = 0#32 := rfl
@[simp] theorem hardReset_cmdr (s : State) : (s.hardReset).cmdr = 0#32 := rfl
@[simp] theorem hardReset_status (s : State) : (s.hardReset).status = 0x00000000#32 := rfl
@[simp] theorem hardReset_capr (s : State) : (s.hardReset).capr = s.capr := rfl
@[simp] theorem hardReset_inputs (s : State) : (s.hardReset).inputs = s.inputs := rfl
@[simp] theorem hardReset_replies (s : State) : (s.hardReset).replies = s.replies := rfl
@[simp] theorem hardReset_latency (s : State) : (s.hardReset).latency = 0 := rfl
@[simp] theorem hardReset_draws (s : State) : (s.hardReset).draws = s.draws + 1 := rfl

/-! ### The fields after `reply` -/

@[simp] theorem reply_mem (s : State) (v : Reply) (b : Bool) : (s.reply v b).mem = s.mem := rfl
@[simp] theorem reply_keyLen (s : State) (v : Reply) (b : Bool) : (s.reply v b).keyLen = s.keyLen := rfl
@[simp] theorem reply_ivLen (s : State) (v : Reply) (b : Bool) : (s.reply v b).ivLen = s.ivLen := rfl
@[simp] theorem reply_inLen (s : State) (v : Reply) (b : Bool) : (s.reply v b).inLen = s.inLen := rfl
@[simp] theorem reply_outLen (s : State) (v : Reply) (b : Bool) : (s.reply v b).outLen = s.outLen := rfl
@[simp] theorem reply_cmdr (s : State) (v : Reply) (b : Bool) : (s.reply v b).cmdr = s.cmdr := rfl
@[simp] theorem reply_status (s : State) (v : Reply) (b : Bool) : (s.reply v b).status = s.status := rfl
@[simp] theorem reply_capr (s : State) (v : Reply) (b : Bool) : (s.reply v b).capr = s.capr := rfl
@[simp] theorem reply_inputs (s : State) (v : Reply) (b : Bool) : (s.reply v b).inputs = s.inputs := rfl
@[simp] theorem reply_replies (s : State) (v : Reply) (b : Bool) : (s.reply v b).replies = v :: s.replies := rfl
@[simp] theorem reply_latency (s : State) (v : Reply) (b : Bool) : (s.reply v b).latency = s.latency := rfl
@[simp] theorem reply_draws (s : State) (v : Reply) (b : Bool) :
    (s.reply v b).draws = if b then s.draws else s.draws + 1 := rfl

/-! ### The fields after `prepend` -/

@[simp] theorem prepend_mem (s : State) (l : List Input) : (s.prepend l).mem = s.mem := rfl
@[simp] theorem prepend_keyLen (s : State) (l : List Input) : (s.prepend l).keyLen = s.keyLen := rfl
@[simp] theorem prepend_ivLen (s : State) (l : List Input) : (s.prepend l).ivLen = s.ivLen := rfl
@[simp] theorem prepend_inLen (s : State) (l : List Input) : (s.prepend l).inLen = s.inLen := rfl
@[simp] theorem prepend_outLen (s : State) (l : List Input) : (s.prepend l).outLen = s.outLen := rfl
@[simp] theorem prepend_cmdr (s : State) (l : List Input) : (s.prepend l).cmdr = s.cmdr := rfl
@[simp] theorem prepend_status (s : State) (l : List Input) : (s.prepend l).status = s.status := rfl
@[simp] theorem prepend_capr (s : State) (l : List Input) : (s.prepend l).capr = s.capr := rfl
@[simp] theorem prepend_inputs (s : State) (l : List Input) : (s.prepend l).inputs = l ++ s.inputs := rfl
@[simp] theorem prepend_replies (s : State) (l : List Input) : (s.prepend l).replies = s.replies := rfl
@[simp] theorem prepend_latency (s : State) (l : List Input) : (s.prepend l).latency = s.latency := rfl
@[simp] theorem prepend_draws (s : State) (l : List Input) : (s.prepend l).draws = s.draws := rfl

/-! ### The fields after `takeInput` -/

@[simp] theorem takeInput_mem (s : State) (l : List Input) : (s.takeInput l).mem = s.mem := rfl
@[simp] theorem takeInput_keyLen (s : State) (l : List Input) : (s.takeInput l).keyLen = s.keyLen := rfl
@[simp] theorem takeInput_ivLen (s : State) (l : List Input) : (s.takeInput l).ivLen = s.ivLen := rfl
@[simp] theorem takeInput_inLen (s : State) (l : List Input) : (s.takeInput l).inLen = s.inLen := rfl
@[simp] theorem takeInput_outLen (s : State) (l : List Input) : (s.takeInput l).outLen = s.outLen := rfl
@[simp] theorem takeInput_cmdr (s : State) (l : List Input) : (s.takeInput l).cmdr = s.cmdr := rfl
@[simp] theorem takeInput_status (s : State) (l : List Input) : (s.takeInput l).status = s.status := rfl
@[simp] theorem takeInput_capr (s : State) (l : List Input) : (s.takeInput l).capr = s.capr := rfl
@[simp] theorem takeInput_inputs (s : State) (l : List Input) : (s.takeInput l).inputs = l := rfl
@[simp] theorem takeInput_replies (s : State) (l : List Input) : (s.takeInput l).replies = s.replies := rfl
@[simp] theorem takeInput_latency (s : State) (l : List Input) :
    (s.takeInput l).latency = if s.busy then s.latency - 1 else s.latency := rfl
@[simp] theorem takeInput_draws (s : State) (l : List Input) : (s.takeInput l).draws = s.draws := rfl

/-! ### The fields after `withFetchWord` -/

@[simp] theorem withFetchWord_mem (s : State) (n w : Nat) : (s.withFetchWord n w).mem = s.mem := rfl
@[simp] theorem withFetchWord_keyLen (s : State) (n w : Nat) : (s.withFetchWord n w).keyLen = s.keyLen := rfl
@[simp] theorem withFetchWord_ivLen (s : State) (n w : Nat) : (s.withFetchWord n w).ivLen = s.ivLen := rfl
@[simp] theorem withFetchWord_inLen (s : State) (n w : Nat) : (s.withFetchWord n w).inLen = s.inLen := rfl
@[simp] theorem withFetchWord_outLen (s : State) (n w : Nat) : (s.withFetchWord n w).outLen = s.outLen := rfl
@[simp] theorem withFetchWord_cmdr (s : State) (n w : Nat) :
    (s.withFetchWord n w).cmdr = BitVec.ofNat 32 (w % 2 ^ n) := rfl
@[simp] theorem withFetchWord_status (s : State) (n w : Nat) : (s.withFetchWord n w).status = statusBusy := rfl
@[simp] theorem withFetchWord_capr (s : State) (n w : Nat) : (s.withFetchWord n w).capr = s.capr := rfl
@[simp] theorem withFetchWord_inputs (s : State) (n w : Nat) : (s.withFetchWord n w).inputs = s.inputs := rfl
@[simp] theorem withFetchWord_replies (s : State) (n w : Nat) : (s.withFetchWord n w).replies = s.replies := rfl
@[simp] theorem withFetchWord_latency (s : State) (n w : Nat) : (s.withFetchWord n w).latency = 0 := rfl
@[simp] theorem withFetchWord_draws (s : State) (n w : Nat) : (s.withFetchWord n w).draws = s.draws := rfl

/-! ### The bits of STATUS after a launch and after each completion -/

@[simp] theorem busyBit_statusBusy : busyBit statusBusy = true := by decide
@[simp] theorem doneBit_statusBusy : doneBit statusBusy = false := by decide
@[simp] theorem errBit_statusBusy : errBit statusBusy = false := by decide
@[simp] theorem busyBit_statusSuccess : busyBit statusSuccess = false := by decide
@[simp] theorem doneBit_statusSuccess : doneBit statusSuccess = true := by decide
@[simp] theorem errBit_statusSuccess : errBit statusSuccess = false := by decide
@[simp] theorem busyBit_statusFailure (c : ECode) : busyBit (statusFailure c) = false := by
  cases c <;> decide
@[simp] theorem doneBit_statusFailure (c : ECode) : doneBit (statusFailure c) = true := by
  cases c <;> decide
@[simp] theorem errBit_statusFailure (c : ECode) : errBit (statusFailure c) = true := by
  cases c <;> decide
@[simp] theorem ecodeField_statusFailure (c : ECode) : ecodeField (statusFailure c) = c.code := by
  cases c <;> decide

@[simp] theorem launch_busy (s : State) (w : Word) : (s.launch w).busy = true := by simp [State.busy]
@[simp] theorem succeedWith_busy (s : State) (r : Bytes) : (s.succeedWith r).busy = false := by
  simp [State.busy]
@[simp] theorem succeedWith_err (s : State) (r : Bytes) : (s.succeedWith r).err = false := by
  simp [State.err]
@[simp] theorem failWith_busy (s : State) (c : ECode) : (s.failWith c).busy = false := by
  simp [State.busy]
@[simp] theorem failWith_err (s : State) (c : ECode) : (s.failWith c).err = true := by simp [State.err]
@[simp] theorem hardReset_busy (s : State) : s.hardReset.busy = false := by
  simp [State.busy, busyBit]
@[simp] theorem reply_busy (s : State) (v : Reply) (b : Bool) : (s.reply v b).busy = s.busy := rfl
@[simp] theorem prepend_busy (s : State) (l : List Input) : (s.prepend l).busy = s.busy := rfl
@[simp] theorem takeInput_busy (s : State) (l : List Input) : (s.takeInput l).busy = s.busy := rfl

end Sys2Proof.Machine
end

