-- ==== Sys2Proof/Laws/Memory.lean ====
section
/-! SUPPORT. What the memory operations do: reading after writing, and that every one of them keeps the
canonical form `Memory.wf`. -/

namespace Sys2Proof.Machine

/-! ### Lists of cells -/

theorem lookup_put_same (i : Nat) (b : Byte) (l : List Host.Cell) :
    cellsLookup i (cellsPut i b l) = some b := by
  induction l with
  | nil => simp [cellsPut, cellsLookup]
  | cons c rest ih =>
    obtain ⟨j, v⟩ := c
    simp only [cellsPut]
    split
    · simp [cellsLookup]
    · split
      · simp [cellsLookup]
      · next h => simp [cellsLookup, h, ih]

theorem lookup_put_other (i k : Nat) (b : Byte) (l : List Host.Cell) (h : k ≠ i) :
    cellsLookup k (cellsPut i b l) = cellsLookup k l := by
  induction l with
  | nil => simp [cellsPut, cellsLookup, h]
  | cons c rest ih =>
    obtain ⟨j, v⟩ := c
    simp only [cellsPut]
    split
    · simp [cellsLookup, h]
    · split
      · next hij => subst hij; simp [cellsLookup, h]
      · simp [cellsLookup, ih]

theorem lookup_erase_same (i : Nat) (l : List Host.Cell) : cellsLookup i (cellsErase i l) = none := by
  induction l with
  | nil => rfl
  | cons c rest ih =>
    obtain ⟨j, v⟩ := c
    by_cases h : j = i
    · subst h; simpa [cellsErase] using ih
    · simpa [cellsErase, cellsLookup, h, Ne.symm h] using ih

theorem lookup_erase_other (i k : Nat) (l : List Host.Cell) (h : k ≠ i) :
    cellsLookup k (cellsErase i l) = cellsLookup k l := by
  induction l with
  | nil => rfl
  | cons c rest ih =>
    obtain ⟨j, v⟩ := c
    by_cases hj : j = i
    · subst hj; simpa [cellsErase, cellsLookup, h] using ih
    · by_cases hk : k = j
      · subst hk; simp [cellsErase, cellsLookup, h]
      · simpa [cellsErase, cellsLookup, hj, hk] using ih

/-- What a sequence laid down from index `i` lists. -/
theorem lookup_from (i k : Nat) (r : Bytes) :
    cellsLookup k (cellsFrom i r) = if i ≤ k then r[k - i]? else none := by
  induction r generalizing i with
  | nil => simp [cellsFrom, cellsLookup]
  | cons b rest ih =>
    simp only [cellsFrom, cellsLookup, ih]
    by_cases h : k = i
    · subst h; simp
    · by_cases hik : i ≤ k
      · have h1 : i + 1 ≤ k := by omega
        have h2 : k - i = (k - (i + 1)) + 1 := by omega
        simp [h, hik, h1, h2]
      · have h1 : ¬ i + 1 ≤ k := by omega
        simp [h, hik, h1]

theorem from_map_fst (i : Nat) (r : Bytes) : (cellsFrom i r).map Prod.fst = List.range' i r.length := by
  induction r generalizing i with
  | nil => rfl
  | cons b rest ih => simp [cellsFrom, ih, List.range'_succ]

/-! ### The canonical form -/

theorem mem_put (i : Nat) (b : Byte) (l : List Host.Cell) (c : Host.Cell) (h : c ∈ cellsPut i b l) :
    c = (i, b) ∨ c ∈ l := by
  induction l with
  | nil => simpa [cellsPut] using h
  | cons d rest ih =>
    obtain ⟨j, v⟩ := d
    simp only [cellsPut] at h
    split at h
    · simpa using h
    · split at h
      · rcases List.mem_cons.1 h with h | h
        · exact .inl h
        · exact .inr (List.mem_cons_of_mem _ h)
      · rcases List.mem_cons.1 h with h | h
        · exact .inr (by simp [h])
        · rcases ih h with h | h
          · exact .inl h
          · exact .inr (List.mem_cons_of_mem _ h)

theorem put_rising (i : Nat) (b : Byte) (l : List Host.Cell) (h : l.Pairwise (fun a b => a.1 < b.1)) :
    (cellsPut i b l).Pairwise (fun a b => a.1 < b.1) := by
  induction l with
  | nil => simp [cellsPut]
  | cons c rest ih =>
    obtain ⟨j, v⟩ := c
    rw [List.pairwise_cons] at h
    simp only [cellsPut]
    split
    · next hij =>
      refine List.pairwise_cons.2 ⟨fun a ha => ?_, List.pairwise_cons.2 h⟩
      rcases List.mem_cons.1 ha with ha | ha
      · simpa [ha] using hij
      · exact Nat.lt_trans hij (h.1 a ha)
    · split
      · next hij => subst hij; exact List.pairwise_cons.2 h
      · next h1 h2 =>
        refine List.pairwise_cons.2 ⟨fun a ha => ?_, ih h.2⟩
        rcases mem_put i b rest a ha with ha | ha
        · simp only [ha]; omega
        · exact h.1 a ha

theorem cellsWf_iff (size : Nat) (unl : Option Byte) (l : List Host.Cell) :
    cellsWf size unl l = true ↔
      l.Pairwise (fun a b => a.1 < b.1) ∧ ∀ c ∈ l, c.1 < size ∧ unl ≠ some c.2 := by
  simp [cellsWf, List.all_eq_true]

@[simp] theorem cellsWf_nil (size : Nat) (unl : Option Byte) : cellsWf size unl [] = true := by
  simp [cellsWf]

theorem cellsWf_put (size : Nat) (unl : Option Byte) (i : Nat) (b : Byte) (l : List Host.Cell)
    (hl : cellsWf size unl l = true) (hi : i < size) (hb : unl ≠ some b) :
    cellsWf size unl (cellsPut i b l) = true := by
  rw [cellsWf_iff] at hl ⊢
  refine ⟨put_rising i b l hl.1, fun c hc => ?_⟩
  rcases mem_put i b l c hc with rfl | hc
  · exact ⟨hi, hb⟩
  · exact hl.2 c hc

theorem cellsWf_erase (size : Nat) (unl : Option Byte) (i : Nat) (l : List Host.Cell)
    (hl : cellsWf size unl l = true) : cellsWf size unl (cellsErase i l) = true := by
  rw [cellsWf_iff] at hl ⊢
  exact ⟨hl.1.filter _, fun c hc => hl.2 c (List.mem_of_mem_filter hc)⟩

theorem mem_from (i : Nat) (r : Bytes) (c : Host.Cell) (h : c ∈ cellsFrom i r) :
    i ≤ c.1 ∧ c.1 < i + r.length := by
  have : c.1 ∈ (cellsFrom i r).map Prod.fst := List.mem_map_of_mem h
  rw [from_map_fst] at this
  simpa [List.mem_range'_1] using this

/-- A result that fits in a window without a listed reset value is in canonical form there. -/
theorem cellsWf_from (size : Nat) (r : Bytes) (h : r.length ≤ size) :
    cellsWf size none (cellsFrom 0 r) = true := by
  rw [cellsWf_iff]
  refine ⟨?_, fun c hc => ⟨?_, by simp⟩⟩
  · have hp : ((cellsFrom 0 r).map Prod.fst).Pairwise (· < ·) := by
      rw [from_map_fst]; exact List.pairwise_lt_range'
    exact List.pairwise_map.1 hp
  · have := mem_from 0 r c hc; omega

theorem wf_iff (cap : Nat) (m : Memory) :
    m.wf cap = true ↔ ∀ sp, cellsWf (windowSize cap sp) (unlisted sp) (m.cells sp) = true := by
  constructor
  · intro h sp
    simp only [Memory.wf, Bool.and_eq_true] at h
    cases sp
    · exact h.1.1.1
    · exact h.1.1.2
    · exact h.1.2
    · exact h.2
  · intro h
    simp only [Memory.wf, Bool.and_eq_true]
    exact ⟨⟨⟨h .key, h .iv⟩, h .inp⟩, h .out⟩

/-- Replacing the cells of one window by cells in canonical form keeps the canonical form. -/
theorem wf_withCells (cap : Nat) (m : Memory) (sp : Space) (l : List Host.Cell) (hm : m.wf cap = true)
    (hl : cellsWf (windowSize cap sp) (unlisted sp) l = true) : (m.withCells sp l).wf cap = true := by
  rw [wf_iff] at hm ⊢
  intro sp'
  by_cases h : sp' = sp
  · subst h; simpa using hl
  · simpa [withCells_cells_other m sp sp' l h] using hm sp'

/-- A store inside a window keeps the canonical form. -/
theorem wf_store (cap : Nat) (m : Memory) (sp : Space) (i : Nat) (b : Byte) (hm : m.wf cap = true)
    (hi : i < windowSize cap sp) : (m.store sp i b).wf cap = true := by
  have hc := (wf_iff cap m).1 hm sp
  unfold Memory.store
  split
  · exact wf_withCells cap m sp _ hm (cellsWf_erase _ _ i _ hc)
  · next h => exact wf_withCells cap m sp _ hm (cellsWf_put _ _ i b _ hc hi h)

/-- Dropping OUT keeps the canonical form (launch, failure). -/
theorem wf_dropOut (cap : Nat) (m : Memory) (hm : m.wf cap = true) : (m.withCells .out []).wf cap = true :=
  wf_withCells cap m .out [] hm (by simp)

/-- A result that fits keeps the canonical form (success). -/
theorem wf_result (cap : Nat) (m : Memory) (r : Bytes) (hm : m.wf cap = true) (hr : r.length ≤ cap) :
    (m.withCells .out (cellsFrom 0 r)).wf cap = true :=
  wf_withCells cap m .out _ hm (cellsWf_from cap r hr)

/-- The windows with nothing listed are in canonical form (reset). -/
@[simp] theorem wf_empty (cap : Nat) :
    Memory.wf cap { key := [], iv := [], inp := [], out := [] } = true := by simp [Memory.wf]

theorem wf_reset : State.reset.mem.wf State.reset.cap = true := wf_empty _

/-! ### Reading after a store -/

/-- A byte that was stored reads back. -/
theorem read_store_same (m : Memory) (sp : Space) (i : Nat) (b : Byte) :
    (cellsLookup i ((m.store sp i b).cells sp)).or (unlisted sp) = some b := by
  unfold Memory.store
  split
  · next h => simp [lookup_erase_same, h]
  · simp [lookup_put_same]

/-- A store leaves what every other index of its window lists. -/
theorem lookup_store_other (m : Memory) (sp : Space) (i k : Nat) (b : Byte) (h : k ≠ i) :
    cellsLookup k ((m.store sp i b).cells sp) = cellsLookup k (m.cells sp) := by
  unfold Memory.store
  split
  · simp [lookup_erase_other i k _ h]
  · simp [lookup_put_other i k b _ h]

/-- A store leaves the other windows. -/
theorem store_cells_other (m : Memory) (sp sp' : Space) (i : Nat) (b : Byte) (h : sp' ≠ sp) :
    (m.store sp i b).cells sp' = m.cells sp' := by
  unfold Memory.store
  split <;> exact withCells_cells_other m sp sp' _ h

end Sys2Proof.Machine
end

