-- ==== Sys2Proof/Laws/Ops.lean ====
section
/-! SUPPORT. One lemma for each shared operation that says once what it does: the reads of a byte and of a
register, launch, the two completions, the common frame, the host's transactions, and the step. -/

namespace Sys2Proof.Machine

/-! ### Reads of a byte -/

theorem specifiedByte_of_ne_out (s : State) (sp : Space) (i : Nat) (h : sp ≠ .out) :
    s.specifiedByte sp i = (cellsLookup i (s.mem.cells sp)).or (unlisted sp) := by
  cases sp
  · rfl
  · rfl
  · rfl
  · exact absurd rfl h

theorem specifiedByte_out (s : State) (i : Nat) :
    s.specifiedByte .out i =
      if s.busy || s.err || !(decide (i < s.outLen.toNat)) then none else cellsLookup i s.mem.out := rfl

theorem bytesAt_length (s : State) (sp : Space) (n : Nat) : (s.bytesAt sp n).length = n := by
  simp [State.bytesAt]

theorem bytesAt_getElem? (s : State) (sp : Space) (n i : Nat) (h : i < n) :
    (s.bytesAt sp n)[i]? = some (s.byteAt sp i) := by
  simp [State.bytesAt, h]

/-! ### The windows other than OUT are left alone by launch and by both completions -/

theorem specifiedByte_congr (s t : State) (sp : Space) (i : Nat) (h : sp ≠ .out)
    (hc : t.mem.cells sp = s.mem.cells sp) : t.specifiedByte sp i = s.specifiedByte sp i := by
  rw [specifiedByte_of_ne_out t sp i h, specifiedByte_of_ne_out s sp i h, hc]

theorem launch_specifiedByte (s : State) (w : Word) (sp : Space) (i : Nat) :
    (s.launch w).specifiedByte sp i = if sp = .out then none else s.specifiedByte sp i := by
  cases sp <;> simp [State.specifiedByte]

theorem failWith_specifiedByte (s : State) (c : ECode) (sp : Space) (i : Nat) :
    (s.failWith c).specifiedByte sp i = if sp = .out then none else s.specifiedByte sp i := by
  cases sp <;> simp [State.specifiedByte]

theorem succeedWith_specifiedByte (s : State) (r : Bytes) (hr : r.length < 2 ^ 32) (sp : Space) (i : Nat) :
    (s.succeedWith r).specifiedByte sp i = if sp = .out then r[i]? else s.specifiedByte sp i := by
  cases sp
  · simp [State.specifiedByte]
  · simp [State.specifiedByte]
  · simp [State.specifiedByte]
  · have h : r.length % 2 ^ 32 = r.length := Nat.mod_eq_of_lt hr
    simp only [State.specifiedByte, succeedWith_busy, succeedWith_err, succeedWith_outLen,
      succeedWith_mem, withCells_out_out, BitVec.toNat_ofNat, h, lookup_from]
    by_cases hi : i < r.length
    · simp [hi]
    · simp [hi]

/-! ### The common frame -/

/-- Every command completes: its meaning is the completion with its outcome. -/
theorem runCommand_next (rule : Operands → Except ECode Bytes) (s : State) :
    runCommand rule s = .next (s.complete (commandOutcome rule s)) := rfl

theorem commandOutcome_capIn (rule : Operands → Except ECode Bytes) (s : State)
    (h : s.inLen.toNat > s.cap) : commandOutcome rule s = .error .capIn := by
  simp [commandOutcome, h]

theorem commandOutcome_rule (rule : Operands → Except ECode Bytes) (s : State)
    (h : s.inLen.toNat ≤ s.cap) : commandOutcome rule s = rule s.operands := by
  simp [commandOutcome, Nat.not_lt.2 h]

/-- The rule of each command. -/
def ruleOf : Instr → Operands → Except ECode Bytes
  | .hexenc => hexencRule
  | .hexdec => hexdecRule
  | .pad => padRule
  | .unpad => unpadRule
  | .ciphenc => ciphencRule
  | .ciphdec => ciphdecRule
  | .encrypt => encryptRule
  | .decrypt => decryptRule
  | .encryptx => encryptxRule
  | .decryptx => decryptxRule

/-- Every meaning is the common frame over the command's rule. -/
theorem exec_eq (i : Instr) (s : State) :
    exec i s = .next (s.complete (commandOutcome (ruleOf i) s)) := by
  cases i <;> rfl

/-- What a command in flight becomes: a completion with some outcome, by the word's decoding. -/
theorem completeCommand_cases (s : State) :
    (∃ i, decode s.cmdr = .ok i ∧
      completeCommand s = .next (s.complete (commandOutcome (ruleOf i) s))) ∨
    (∃ e, decode s.cmdr = .error e ∧ completeCommand s = .next (s.failWith .illegalCmd)) := by
  unfold completeCommand
  cases h : decode s.cmdr with
  | ok i => exact .inl ⟨i, rfl, exec_eq i s⟩
  | error e => exact .inr ⟨e, rfl, rfl⟩

/-- A completion is a success or a failure. -/
theorem complete_cases (s : State) (o : Except ECode Bytes) :
    (∃ r, o = .ok r ∧ s.complete o = s.succeedWith r) ∨
    (∃ c, o = .error c ∧ s.complete o = s.failWith c) := by
  cases o with
  | ok r => exact .inl ⟨r, rfl, rfl⟩
  | error c => exact .inr ⟨c, rfl, rfl⟩

/-! ### Transactions -/

/-- The index that an admitted byte access names lies in its window. -/
theorem windowAt_lt (cap off i : Nat) (sp : Space) (h : windowAt cap off = some (sp, i)) :
    i < windowSize cap sp ∧ off = windowBase sp + i := by
  unfold windowAt at h
  split at h
  · next hw =>
    simp only [Option.some.injEq, Prod.mk.injEq] at h; obtain ⟨rfl, rfl⟩ := h
    simp only [inWindow, Bool.and_eq_true, decide_eq_true_eq] at hw; omega
  · split at h
    · next hw =>
      simp only [Option.some.injEq, Prod.mk.injEq] at h; obtain ⟨rfl, rfl⟩ := h
      simp only [inWindow, Bool.and_eq_true, decide_eq_true_eq] at hw; omega
    · split at h
      · next hw =>
        simp only [Option.some.injEq, Prod.mk.injEq] at h; obtain ⟨rfl, rfl⟩ := h
        simp only [inWindow, Bool.and_eq_true, decide_eq_true_eq] at hw; omega
      · split at h
        · next hw =>
          simp only [Option.some.injEq, Prod.mk.injEq] at h; obtain ⟨rfl, rfl⟩ := h
          simp only [inWindow, Bool.and_eq_true, decide_eq_true_eq] at hw; omega
        · simp at h

/-- There is no fault: a step that stops is refused (R236, R58). -/
theorem no_fault (f : Fault) : False := nomatch f

/-- Everything a transaction that gives a next state can do. -/
theorem serveTxn_cases (x : Txn) (s t : State) (h : serveTxn x s = .next t) :
    (∃ off r, x = .rd32 off ∧ regAt off = some r ∧ t = s.readReg r) ∨
    (∃ off w r, x = .wr32 off w ∧ regAt off = some r ∧ t = s.writeReg r w) ∨
    (∃ off sp i, x = .rd8 off ∧ windowAt s.cap off = some (sp, i) ∧ t = s.readByte sp i) ∨
    (∃ off v sp i, x = .wr8 off v ∧ windowAt s.cap off = some (sp, i) ∧ t = s.writeByte sp i v) := by
  have hstopWord (cap off : Nat) : stopWord cap off ≠ .next t := by
    unfold stopWord; split
    · simp
    · split <;> simp
  have hstopByte (off : Nat) : stopByte off ≠ .next t := by unfold stopByte; split <;> simp
  have hstopWidth (cap bits off : Nat) : stopWidth cap bits off ≠ .next t := by
    unfold stopWidth; split <;> simp
  cases x with
  | rd32 off =>
    simp only [serveTxn] at h
    cases hr : regAt off with
    | none => rw [hr] at h; exact absurd h (hstopWord _ _)
    | some r =>
      rw [hr] at h
      simp only [Host.Outcome.next.injEq] at h
      exact .inl ⟨off, r, rfl, hr, h.symm⟩
  | wr32 off w =>
    simp only [serveTxn] at h
    cases hr : regAt off with
    | none => rw [hr] at h; exact absurd h (hstopWord _ _)
    | some r =>
      rw [hr] at h
      simp only [Host.Outcome.next.injEq] at h
      exact .inr (.inl ⟨off, w, r, rfl, hr, h.symm⟩)
  | rd8 off =>
    simp only [serveTxn] at h
    cases hr : windowAt s.cap off with
    | none => rw [hr] at h; exact absurd h (hstopByte _)
    | some p =>
      rw [hr] at h
      simp only [Host.Outcome.next.injEq] at h
      exact .inr (.inr (.inl ⟨off, p.1, p.2, rfl, hr, h.symm⟩))
  | wr8 off v =>
    simp only [serveTxn] at h
    cases hr : windowAt s.cap off with
    | none => rw [hr] at h; exact absurd h (hstopByte _)
    | some p =>
      rw [hr] at h
      simp only [Host.Outcome.next.injEq] at h
      exact .inr (.inr (.inr ⟨off, v, p.1, p.2, rfl, hr, h.symm⟩))
  | otherWidth bits off =>
    simp only [serveTxn] at h
    exact absurd h (hstopWidth _ _ _)

/-- Everything the service of one input that gives a next state can do. -/
theorem serveInput_cases (item : Input) (s t : State) (h : serveInput item s = .next t) :
    (∃ x, item = .txn x ∧ serveTxn x s = .next t) ∨ (item = .await ∧ t = serveAwait s) ∨
    (item = .rdout ∧ t = serveRdout s) ∨ (item = .mvout ∧ t = serveMvout s) ∨
    (∃ n, item = .copyBack n ∧ t = s.prepend (scriptLdin (s.lastBytes n))) ∨
    (item = .reset ∧ t = s.hardReset) := by
  cases item <;> simp_all [serveInput, eq_comm]

/-! ### The step -/

/-- Everything a step that gives a next state can do: the core completes, the idle core keeps its state, or the
host's first input is served. -/
theorem step_cases (s t : State) (h : step s = .next t) :
    (coreMoves s = true ∧ completeCommand s = .next t) ∨
    (coreMoves s = false ∧ s.inputs = [] ∧ t = s) ∨
    (coreMoves s = false ∧ ∃ item rest, s.inputs = item :: rest ∧
      serveInput item (s.takeInput rest) = .next t) := by
  unfold step at h
  cases hm : coreMoves s with
  | true => rw [hm] at h; exact .inl ⟨rfl, h⟩
  | false =>
    rw [hm] at h
    simp only [serveHost, Bool.false_eq_true, if_false] at h
    cases hi : s.inputs with
    | nil =>
      rw [hi] at h
      simp only [Host.Outcome.next.injEq] at h
      exact .inr (.inl ⟨rfl, rfl, h.symm⟩)
    | cons item rest =>
      rw [hi] at h
      exact .inr (.inr ⟨rfl, item, rest, rfl, h⟩)

end Sys2Proof.Machine
end

