-- ==== Sys2Proof/Laws/PerInstr.lean ====
section
/-! SUPPORT. Statements about every command as syntax, proved one command at a time: the command word of a
well-formed command has 0 in its field ZERO and the command's opcode in its field OPC, one of the ten of the
opcode map (spec/30_encoding.md R80, R81). -/

namespace Sys2Proof.Laws.EncodedFields

/-- The fields of a command's word (R80, R81). -/
def Statement (i : Instr) : Prop :=
  i.wf = true → zeroField (encode i) = 0x000000#24 ∧ opcField (encode i) = opcode i ∧
    wordOk (encode i) = true

theorem hexenc : Statement .hexenc := by unfold Statement; decide
theorem hexdec : Statement .hexdec := by unfold Statement; decide
theorem pad : Statement .pad := by unfold Statement; decide
theorem unpad : Statement .unpad := by unfold Statement; decide
theorem ciphenc : Statement .ciphenc := by unfold Statement; decide
theorem ciphdec : Statement .ciphdec := by unfold Statement; decide
theorem encrypt : Statement .encrypt := by unfold Statement; decide
theorem decrypt : Statement .decrypt := by unfold Statement; decide
theorem encryptx : Statement .encryptx := by unfold Statement; decide
theorem decryptx : Statement .decryptx := by unfold Statement; decide

end Sys2Proof.Laws.EncodedFields
end

