-- ==== Sys2Proof/Tests/Slice0.lean ====
section
/-! SUPPORT. Tests on values that the spec gives, and for every statement with hypotheses a witness that meets
them. The source of each expected value stands in the test's comment. -/

set_option Elab.async false

namespace Sys2Proof.Tests

open Sys2Proof Sys2Proof.Machine

/-! ### Helpers -/

/-- The n bytes whose digits the numeral v writes, first byte first. -/
def hx (n v : Nat) : Bytes := (List.range n).map (fun i => BitVec.ofNat 8 (v / 256 ^ (n - 1 - i)))

/-- An idle instance with `CAP` = 256, these bytes in IN, KEY and IV, `IN_LEN` the length of the input. -/
def load (input key iv : Bytes) (keyLen ivLen : Nat) : State :=
  { State.reset with
    mem := { key := cellsFrom 0 key, iv := (cellsFrom 0 iv).filter (fun c => c.2 != 0#8),
             inp := cellsFrom 0 input, out := [] }
    inLen := BitVec.ofNat 32 input.length
    keyLen := BitVec.ofNat 32 keyLen
    ivLen := BitVec.ofNat 32 ivLen }

/-- An idle instance with nothing loaded and this declared input length. -/
def declared (inLen keyLen ivLen : Nat) : State :=
  { State.reset with inLen := BitVec.ofNat 32 inLen, keyLen := BitVec.ofNat 32 keyLen,
                     ivLen := BitVec.ofNat 32 ivLen }

/-- The key K1 of spec/95_test_vectors.md. -/
def k1 : Bytes := hx 32 0x000102030405060708090a0b0c0d0e0f101112131415161718191a1b1c1d1e1f
/-- The key KS. -/
def ks : Bytes := hx 32 0x8d1e8a86bbf2cb0fe3a1b993ee22b2ab2a1b96628b6460b3e05207475ae88db4
/-- The IV IVS. -/
def ivs : Bytes := hx 16 0x000102030405060708090a0b0c0d0e0f
/-- The plaintext PS. -/
def ps : Bytes := hx 32 0x5061756c20467265616b792c20616e64206372616369206576656e206d6f7265
/-- The ciphertext CS. -/
def cs : Bytes := hx 48
  0x06927f2ac414514246fd0b806fd9aecface8157e9e6ded7bb1ffb1cf904bd89cc66076102870a0d08a4843c868754c08
/-- Sixteen bytes 0x00, the IV of reset. -/
def iv0 : Bytes := List.replicate 16 0x00#8

/-- STATUS and the bytes of the result after one step that completes the word w, from the state s. -/
def ran (w : Nat) (s : State) : Option (Word × Bytes) :=
  match step (s.withFetchWord 32 w) with
  | .next t => some (t.status, t.mem.out.map Prod.snd)
  | .fault _ => none
  | .refused _ => none

/-- The state after a command, or the state before it where the command gives none. -/
def after (i : Instr) (s : State) : State :=
  match exec i s with
  | .next t => t
  | .fault _ => s
  | .refused _ => s

/-- The state with this STATUS word, latency and list of inputs. -/
def pending (s : State) (status : Word) (latency : Nat) (inputs : List Input) : State :=
  { s with status := status, latency := latency, inputs := inputs }

/-! ### Well-formedness: an ill-formed term for each check -/

theorem test_wf_zero_field : zeroFieldOk 0x00000101#32 = false := by decide
theorem test_wf_opcode_zero : opcodeOk 0x00000000#32 = false := by decide
theorem test_wf_opcode_above : opcodeOk 0x0000000B#32 = false := by decide
theorem test_wf_word : wordOk 0xFFFFFFFF#32 = false := by decide
theorem test_wf_cap_low : capOk 255 = false := by decide
theorem test_wf_cap_high : capOk (2 ^ 24 + 1) = false := by decide
theorem test_wf_key_load : keyLoadOk (List.replicate 31 0#8) = false := by decide
theorem test_wf_iv_load : ivLoadOk (List.replicate 15 0#8) = false := by decide

/-! ### Decoding: the ten words of R81, written out, and the illegal words of V90 to V92b -/

theorem test_decode_hexenc : decode 0x00000001#32 = .ok .hexenc := by decide
theorem test_decode_hexdec : decode 0x00000002#32 = .ok .hexdec := by decide
theorem test_decode_pad : decode 0x00000003#32 = .ok .pad := by decide
theorem test_decode_unpad : decode 0x00000004#32 = .ok .unpad := by decide
theorem test_decode_ciphenc : decode 0x00000005#32 = .ok .ciphenc := by decide
theorem test_decode_ciphdec : decode 0x00000006#32 = .ok .ciphdec := by decide
theorem test_decode_encrypt : decode 0x00000007#32 = .ok .encrypt := by decide
theorem test_decode_decrypt : decode 0x00000008#32 = .ok .decrypt := by decide
theorem test_decode_encryptx : decode 0x00000009#32 = .ok .encryptx := by decide
theorem test_decode_decryptx : decode 0x0000000A#32 = .ok .decryptx := by decide
theorem test_decode_zero : decode 0x00000000#32 = .error .unassignedOpcode := by decide
theorem test_decode_above : decode 0x0000000B#32 = .error .unassignedOpcode := by decide
theorem test_decode_zero_field : decode 0x00000101#32 = .error .nonZeroField := by decide
theorem test_decode_ones : decode 0xFFFFFFFF#32 = .error .nonZeroField := by decide
theorem test_decode_table_word : decodeTableWord 32 0x0000000A = some .decryptx := by decide
theorem test_decode_table_word_illegal : decodeTableWord 32 0x0100000A = none := by decide

/-! ### The functions of the cipher -/

/-- R140's examples. -/
theorem test_field : xtime 0x57#8 = 0xAE#8 ∧ xtime 0xAE#8 = 0x47#8 ∧ gfMul 0x57#8 0x13#8 = 0xFE#8 ∧
    gfMul 0x57#8 0x83#8 = 0xC1#8 := by decide

/-- R141's and R142's examples. -/
theorem test_sbox : sbox 0x53#8 = 0xed#8 ∧ invSbox 0xed#8 = 0x53#8 := by decide

/-- R145's table of round constants. -/
theorem test_round_constants : (List.range 7).map (fun j => rc (j + 1)) =
    [0x01#8, 0x02#8, 0x04#8, 0x08#8, 0x10#8, 0x20#8, 0x40#8] := by decide

/-- R147's worked example: w[8] to w[15], and w[56] to w[59]. -/
theorem test_key_expansion :
    ((keyExpansion (hx 32 0x603deb1015ca71be2b73aef0857d77811f352c073b6108d72d9810a30914dff4)).drop 8).take 8 =
      [hx 4 0x9ba35411, hx 4 0x8e6925af, hx 4 0xa51a8b5f, hx 4 0x2067fcde,
       hx 4 0xa8b09c1a, hx 4 0x93d194cd, hx 4 0xbe49846e, hx 4 0xb75d5b9a] ∧
    (keyExpansion (hx 32 0x603deb1015ca71be2b73aef0857d77811f352c073b6108d72d9810a30914dff4)).drop 56 =
      [hx 4 0xfe4890d1, hx 4 0xe6188d0b, hx 4 0x046df344, hx 4 0x706c631e] := by decide +kernel

/-- R150: the flat order agrees with the formula `s'[r + 4c] = s[r + 4*((c + r) mod 4)]`. -/
theorem test_shift_rows_order : shiftRowsOrder =
    (List.range 16).map (fun j => j % 4 + 4 * ((j / 4 + j % 4) % 4)) := by decide

/-- R150: the inverse order undoes the order. -/
theorem test_inv_shift_rows_order : invShiftRowsOrder.map (fun j => shiftRowsOrder.getD j 0) = List.range 16 ∧
    invShiftRows (shiftRows ivs) = ivs := by decide

/-- R151's example column. -/
theorem test_mix_column : mixColumn 0xdb#8 0x13#8 0x53#8 0x45#8 = [0x8e#8, 0x4d#8, 0xa1#8, 0xbc#8] := by decide

/-- R158: the states of round 1. -/
theorem test_round_one :
    subBytes (hx 16 0x00102030405060708090a0b0c0d0e0f0) = hx 16 0x63cab7040953d051cd60e0e7ba70e18c ∧
    shiftRows (hx 16 0x63cab7040953d051cd60e0e7ba70e18c) = hx 16 0x6353e08c0960e104cd70b751bacad0e7 ∧
    mixColumns (hx 16 0x6353e08c0960e104cd70b751bacad0e7) = hx 16 0x5f72641557f5bc92f7be3b291db9f91a ∧
    addRoundKey (hx 16 0x5f72641557f5bc92f7be3b291db9f91a) (keyExpansion k1) 1 =
      hx 16 0x4f63760643e0aa85efa7213201a4e705 := by decide +kernel

/-- R158: the block cipher's example, both ways. -/
theorem test_aes_example :
    aesEncBlock (keyExpansion k1) (hx 16 0x00112233445566778899aabbccddeeff) =
      hx 16 0x8ea2b7ca516745bfeafc49904b496089 ∧
    aesDecBlock (keyExpansion k1) (hx 16 0x8ea2b7ca516745bfeafc49904b496089) =
      hx 16 0x00112233445566778899aabbccddeeff := by decide +kernel

/-- R100, R102: the 22 accepted codes and their neighbours. -/
theorem test_hex_digits :
    (List.range 256).filter (fun c => (hexVal (BitVec.ofNat 8 c)).isSome) =
      List.range' 0x30 10 ++ List.range' 0x41 6 ++ List.range' 0x61 6 ∧
    hexVal 0x41#8 = some 10#8 ∧ hexVal 0x61#8 = some 10#8 ∧ hexVal 0x39#8 = some 9#8 := by decide +kernel

/-! ### The commands, one step each -/

/-- V10. -/
theorem test_hexenc_digits : ran 0x01 (load (hx 5 0x0001abff10) k1 iv0 32 16) =
    some (0x00000002#32, hx 10 0x30303031616266663130) := by decide +kernel
/-- V96: 129 bytes do not fit. -/
theorem test_hexenc_capacity : ran 0x01 (declared 129 0 16) = some (0x00007206#32, []) := by decide +kernel
/-- V12. -/
theorem test_hexdec_mixed_case : ran 0x02 (load (hx 8 0x4465616442454546) k1 iv0 32 16) =
    some (0x00000002#32, hx 4 0xdeadbeef) := by decide +kernel
/-- V14: the source's example is of odd length and has a bad digit: the length is reported. -/
theorem test_hexdec_odd_first : ran 0x02 (load (hx 5 0x61623a7a31) k1 iv0 32 16) =
    some (0x00001106#32, []) := by decide +kernel
/-- V20. -/
theorem test_pad_one_byte : ran 0x03 (load [0x41#8] k1 iv0 32 16) =
    some (0x00000002#32, hx 16 0x410f0f0f0f0f0f0f0f0f0f0f0f0f0f0f) := by decide +kernel
/-- V21: the empty input. -/
theorem test_pad_empty : ran 0x03 (load [] k1 iv0 32 16) =
    some (0x00000002#32, List.replicate 16 0x10#8) := by decide +kernel
/-- V25. -/
theorem test_unpad : ran 0x04 (load (hx 4 0x41030303) k1 iv0 32 16) =
    some (0x00000002#32, [0x41#8]) := by decide +kernel
/-- V34: the byte at index 1 differs. -/
theorem test_unpad_mismatch : ran 0x04 (load (hx 4 0x41020303) k1 iv0 32 16) =
    some (0x00003506#32, []) := by decide +kernel
/-- V53: two equal blocks give different ciphertext blocks. -/
theorem test_ciphenc_chains : ran 0x05 (load (List.replicate 32 0x00#8) k1 iv0 32 16) =
    some (0x00000002#32,
      hx 32 0xf29000b62a499fd0a9f39a6add2e7780d4e96925c0bfcffb52f8a187ee774aab) := by decide +kernel
/-- V49: both lengths wrong, the key's is reported. -/
theorem test_ciphenc_key_first : ran 0x05 (load iv0 k1 iv0 0 0) = some (0x00002106#32, []) := by decide +kernel
/-- V6: three blocks under KS and IVS, the padding left on. -/
theorem test_ciphdec_three_blocks : ran 0x06 (load cs ks ivs 32 16) =
    some (0x00000002#32, ps ++ List.replicate 16 0x10#8) := by decide +kernel
/-- V50. -/
theorem test_ciphdec_iv_length : ran 0x06 (load iv0 k1 iv0 32 15) = some (0x00002206#32, []) := by decide +kernel
/-- V2: the source's scenario, raw. -/
theorem test_encrypt_scenario : ran 0x07 (load ps ks ivs 32 16) = some (0x00000002#32, cs) := by decide +kernel
/-- V98: 256 bytes do not fit, also with no key loaded. -/
theorem test_encrypt_capacity_first : ran 0x07 (declared 256 0 16) = some (0x00007206#32, []) := by decide +kernel
/-- V61: the wrong key, found by the padding. -/
theorem test_decrypt_wrong_key :
    ran 0x08 (load (hx 16 0x9f3b7504926f8bd36e3118e903a4cd4a) (k1.map (fun b => b + 1#8)) iv0 32 16) =
      some (0x00003306#32, []) := by decide +kernel
/-- V9: 17 bytes, with no key loaded. -/
theorem test_decrypt_length_first :
    ran 0x08 (load (hx 17 0x303132333435363738393a3b3c3d3e3f40) [] iv0 0 0) =
      some (0x00001406#32, []) := by decide +kernel
/-- R192's example: the empty plaintext as text. -/
theorem test_encryptx_empty : ran 0x09 (load [] k1 iv0 32 16) =
    some (0x00000002#32, List.replicate 32 0x30#8 ++ [0x3A#8] ++
      hx 32 0x3966336237353034393236663862643336653331313865393033613463643461) := by decide +kernel
/-- V97: 96 bytes do not fit. -/
theorem test_encryptx_capacity : ran 0x09 (declared 96 32 16) = some (0x00007206#32, []) := by decide +kernel
/-- V89b, with an IV window and `IV_LEN` that play no part. -/
theorem test_decryptx_good : ran 0x0A (load (List.replicate 32 0x30#8 ++ [0x3A#8] ++
      hx 32 0x3438666633396665346334386237353664306130643432653435316433393434) k1 ivs 32 5) =
    some (0x00000002#32, [0x41#8]) := by decide +kernel
/-- V86: the split is at the first delimiter. -/
theorem test_decryptx_two_delimiters : ran 0x0A (load (List.replicate 32 0x30#8 ++ [0x3A#8] ++
      List.replicate 16 0x30#8 ++ [0x3A#8] ++ List.replicate 15 0x30#8) k1 iv0 32 16) =
    some (0x00001206#32, []) := by decide +kernel
/-- V93: the illegal word is reported before the capacity. -/
theorem test_illegal_before_capacity : ran 0x00 (declared 300 0 16) = some (0x00006106#32, []) := by
  decide +kernel
/-- V94b: `IN_LEN` = 2^32 - 1. -/
theorem test_capacity_any_length : ran 0x02 (declared 0xFFFFFFFF 0 16) = some (0x00007106#32, []) := by
  decide +kernel

/-- The step runs the word placed by `withFetchWord` as the first command after reset. -/
theorem test_first_step : step (State.reset.withFetchWord 32 0x03) =
    exec .pad (State.reset.withFetchWord 32 0x03) := rfl

/-! ### Transactions -/

/-- The replies after one transaction, or none where it stops. -/
def replies (x : Txn) (s : State) : Option (List Reply) :=
  match serveTxn x s with
  | .next t => some t.replies
  | .fault _ => none
  | .refused _ => none

/-- V100: registers and IV after reset. -/
theorem test_reset_reads : [Txn.rd32 0x04, .rd32 0x08, .rd32 0x0C, .rd32 0x10, .rd32 0x14, .rd32 0x18, .rd32 0x00,
      .rd8 0x60, .rd8 0x6F].map (fun x => replies x State.reset) =
    [some [.word 0#32], some [.word 0#32], some [.word 0#32], some [.word 0#32], some [.word 16#32],
      some [.word 256#32], some [.word 0#32], some [.byte 0#8], some [.byte 0#8]] := by decide
/-- V101, R54, R57: writes to read-only locations change nothing. -/
theorem test_read_only : serveTxn (.wr32 0x04 0xFFFFFFFF#32) State.reset = .next State.reset ∧
    serveTxn (.wr32 0x18 0x1000#32) State.reset = .next State.reset ∧
    serveTxn (.wr8 0x2000000 0xAA#8) State.reset = .next State.reset := ⟨rfl, rfl, rfl⟩
/-- V104: what is not admitted is refused. -/
theorem test_not_admitted : serveTxn (.rd8 0x04) State.reset = .refused (.byteOfRegister 0x04) ∧
    serveTxn (.wr32 0x1000000 0#32) State.reset = .refused (.wordOfWindow 0x1000000) ∧
    serveTxn (.rd32 0x02) State.reset = .refused (.misalignedWord 0x02) ∧
    serveTxn (.rd32 0x1C) State.reset = .refused (.unmapped 0x1C) ∧
    serveTxn (.rd8 0x70) State.reset = .refused (.unmapped 0x70) ∧
    serveTxn (.wr8 0x1000100 0#8) State.reset = .refused (.unmapped 0x1000100) ∧
    serveTxn (.rd8 0x2000100) State.reset = .refused (.unmapped 0x2000100) ∧
    serveTxn (.otherWidth 16 0x00) State.reset = .refused (.otherWidth 16 0x00) :=
  ⟨rfl, rfl, rfl, rfl, rfl, rfl, rfl, rfl⟩
/-- V105: the last byte of each window, for both ends of the range of `CAP`. -/
theorem test_last_bytes : windowAt 256 0x10000FF = some (.inp, 255) ∧ windowAt 256 0x20000FF = some (.out, 255) ∧
    windowAt 256 0x5F = some (.key, 31) ∧ windowAt 256 0x6F = some (.iv, 15) ∧
    windowAt (2 ^ 24) 0x1FFFFFF = some (.inp, 2 ^ 24 - 1) ∧
    windowAt (2 ^ 24) 0x2FFFFFF = some (.out, 2 ^ 24 - 1) := by decide

/-! ### Witnesses: for each statement with hypotheses, a concrete state and operands that meet them together,
clause by clause, at the ends of their ranges -/

/-- A word in flight, on the operands of the state. -/
def inFlight (w : Word) (s : State) : State := { s with cmdr := w, status := 0x00000001#32 }

/-- The empty plaintext's ciphertext under K1 and the IV of reset (V7). -/
def c7 : Bytes := hx 16 0x9f3b7504926f8bd36e3118e903a4cd4a

/-- The state with the result of another state as its input, and an OUT of its own. -/
def fed (t : State) (s : State) : State :=
  { s with mem := { s.mem with inp := t.mem.out, out := [] }, inLen := t.outLen }

theorem witness_StepRunsDecodedCommand_latency :
    (pending (inFlight 0x0A#32 State.reset) 1#32 0 [.await]).busy = true ∧
    (pending (inFlight 0x0A#32 State.reset) 1#32 0 [.await]).latency = 0 ∧
    decode (pending (inFlight 0x0A#32 State.reset) 1#32 0 [.await]).cmdr = .ok .decryptx := by decide
theorem witness_StepRunsDecodedCommand_inputs :
    (pending (inFlight 0x01#32 State.reset) 1#32 7 []).busy = true ∧
    (pending (inFlight 0x01#32 State.reset) 1#32 7 []).inputs = [] ∧
    decode (pending (inFlight 0x01#32 State.reset) 1#32 7 []).cmdr = .ok .hexenc := by decide
theorem witness_StepRunsDecodedCommand_illegal :
    (pending (inFlight 0x0B#32 State.reset) 1#32 0 [.await]).busy = true ∧
    (pending (inFlight 0x0B#32 State.reset) 1#32 0 [.await]).latency = 0 ∧
    decode (pending (inFlight 0x0B#32 State.reset) 1#32 0 [.await]).cmdr = .error .unassignedOpcode ∧
    (pending (inFlight 0x101#32 State.reset) 1#32 7 []).inputs = [] ∧
    decode (pending (inFlight 0x101#32 State.reset) 1#32 7 []).cmdr = .error .nonZeroField := by decide
theorem witness_StepServesHostInput_idle :
    (pending State.reset 0#32 0 [.await]).busy = false ∧
    (pending State.reset 0#32 0 [.await]).inputs = [.await] := by decide
theorem witness_StepServesHostInput_busy :
    (pending State.reset 1#32 1 [.await, .rdout]).busy = true ∧
    (pending State.reset 1#32 1 [.await, .rdout]).latency = 0 + 1 ∧
    (pending State.reset 1#32 1 [.await, .rdout]).inputs = .await :: [.rdout] := by decide
theorem witness_StepServesHostInput_nothing : State.reset.busy = false ∧ State.reset.inputs = [] := by decide
theorem witness_DecodeFollowsTheRule :
    (0x00000100#32).toNat / 256 ≠ 0 ∧ (0x00000001#32).toNat / 256 = 0 ∧ (0x00000001#32).toNat % 256 = 0x01 ∧
    (0x0000000A#32).toNat / 256 = 0 ∧ (0x0000000A#32).toNat % 256 = 0x0A ∧
    (0x00000000#32).toNat % 256 = 0x00 ∧ 0x0B ≤ (0x0000000B#32).toNat % 256 ∧
    0x0B ≤ (0x000000FF#32).toNat % 256 ∧ (0x000000FF#32).toNat / 256 = 0 := by decide
theorem witness_DecodeEncodeAgree :
    Instr.wf .hexenc = true ∧ decode 0x0000000A#32 = .ok .decryptx ∧ wordOk 0x0000000A#32 = true := by decide
theorem witness_IllegalWordFails :
    State.reset.busy = false ∧ decode 0x0000000B#32 = .error .unassignedOpcode ∧
    decode 0x00000101#32 = .error .nonZeroField := by decide
theorem witness_LaunchEffect : (pending State.reset 0x00000002#32 0 []).busy = false := by decide
theorem witness_IdleRegisterTransactions : (pending State.reset 0x00007206#32 0 []).busy = false := by decide
theorem witness_KeyIvWindowTransactions :
    (load [] k1 ivs 32 16).busy = false ∧ 31 < 32 ∧ (load [] k1 ivs 32 16).specifiedByte .key 31 = some 0x1f#8 ∧
    State.reset.specifiedByte .key 31 = none ∧ State.reset.busy = false ∧ 15 < 16 := by decide
theorem witness_InWindowTransactions :
    (load (List.replicate 256 7#8) [] [] 0 16).busy = false ∧ 255 < (load (List.replicate 256 7#8) [] [] 0 16).cap ∧
    (load (List.replicate 256 7#8) [] [] 0 16).specifiedByte .inp 255 = some 7#8 ∧
    State.reset.specifiedByte .inp 255 = none := by decide +kernel
theorem witness_OutWindowTransactions_result :
    (after .hexenc (load [0xA5#8] [] [] 0 16)).Inv ∧ (after .hexenc (load [0xA5#8] [] [] 0 16)).busy = false ∧
    1 < (after .hexenc (load [0xA5#8] [] [] 0 16)).cap ∧
    1 < (after .hexenc (load [0xA5#8] [] [] 0 16)).outLen.toNat ∧
    (after .hexenc (load [0xA5#8] [] [] 0 16)).err = false := by unfold State.Inv; decide +kernel
theorem witness_OutWindowTransactions_tail :
    2 < (after .hexenc (load [0xA5#8] [] [] 0 16)).cap ∧
    ¬ (2 < (after .hexenc (load [0xA5#8] [] [] 0 16)).outLen.toNat) := by decide +kernel
theorem witness_OutWindowTransactions_failure :
    (after .hexdec (load [0xA5#8] [] [] 0 16)).Inv ∧ (after .hexdec (load [0xA5#8] [] [] 0 16)).busy = false ∧
    255 < (after .hexdec (load [0xA5#8] [] [] 0 16)).cap ∧
    (after .hexdec (load [0xA5#8] [] [] 0 16)).err = true := by unfold State.Inv; decide +kernel
theorem witness_NotAdmittedIsRefused :
    capOk State.reset.cap = true ∧ capOk ({ State.reset with capr := 0x01000000#32 } : State).cap = true := by decide
theorem witness_NotAdmittedIsRefused_stop : ¬ ∃ t, serveTxn (.rd8 0x70) State.reset = .next t :=
  fun ⟨_, h⟩ => nomatch h
theorem witness_BusyTransactions :
    (inFlight 0x07#32 (load [0x41#8] k1 ivs 32 16)).Inv ∧ (inFlight 0x07#32 (load [0x41#8] k1 ivs 32 16)).busy = true ∧
    (Txn.wr32 0x00 1#32).admitted 256 = true ∧ (Txn.wr8 0x20000FF 1#8).admitted 256 = true ∧
    (inFlight 0x07#32 (load [0x41#8] k1 ivs 32 16)).specifiedByte .inp 0 = some 0x41#8 ∧
    (inFlight 0x07#32 (load [0x41#8] k1 ivs 32 16)).specifiedByte .iv 15 = some 15#8 := by
  unfold State.Inv; decide +kernel
theorem witness_OutcomeDependsOnOperandsAlone :
    (inFlight 0x07#32 (load [0x41#8] k1 iv0 32 16)).cmdr = 0x07#32 ∧
    SameInput (inFlight 0x07#32 (load [0x41#8] k1 iv0 32 16))
      { inFlight 0x07#32 (load [0x41#8] k1 iv0 32 16) with draws := 9, latency := 3, outLen := 77#32 } ∧
    SameKey (inFlight 0x07#32 (load [0x41#8] k1 iv0 32 16))
      { inFlight 0x07#32 (load [0x41#8] k1 iv0 32 16) with draws := 9, latency := 3, outLen := 77#32 } ∧
    SameIv (inFlight 0x07#32 (load [0x41#8] k1 iv0 32 16))
      { inFlight 0x07#32 (load [0x41#8] k1 iv0 32 16) with draws := 9, latency := 3, outLen := 77#32 } := by
  unfold SameInput SameKey SameIv; decide +kernel
theorem witness_HexAndPaddingReadNoKey :
    Instr.unpad ∈ [Instr.hexenc, .hexdec, .pad, .unpad] ∧
    SameInput (load [0x41#8] k1 iv0 32 16) (load [0x41#8] ks ivs 31 0) := by
  unfold SameInput; decide +kernel
theorem witness_DecryptxIgnoresIvWindow :
    SameInput (load [0x3A#8] k1 iv0 32 16) (load [0x3A#8] k1 ivs 32 0) ∧
    SameKey (load [0x3A#8] k1 iv0 32 16) (load [0x3A#8] k1 ivs 32 0) := by
  unfold SameInput SameKey; decide +kernel
theorem witness_OnlyTheFourteenCodes :
    ∃ t, completeCommand (inFlight 0x05#32 (declared 16 31 16)) = .next t ∧ t.err = true :=
  ⟨_, rfl, by decide +kernel⟩
theorem witness_ResultLengths_hex :
    ∃ t u, exec .hexenc (load [0xA5#8] [] [] 0 16) = .next t ∧ t.err = false ∧
      exec .hexdec (load [0x41#8, 0x35#8] [] [] 0 16) = .next u ∧ u.err = false :=
  ⟨_, _, rfl, by decide +kernel, rfl, by decide +kernel⟩
theorem witness_ResultLengths_padding :
    ∃ t u, exec .pad (load [] [] [] 0 16) = .next t ∧ t.err = false ∧
      exec .unpad (load [0x01#8] [] [] 0 16) = .next u ∧ u.err = false :=
  ⟨_, _, rfl, by decide +kernel, rfl, by decide +kernel⟩
theorem witness_ResultLengths_cipher :
    ∃ t u, exec .ciphenc (load iv0 k1 iv0 32 16) = .next t ∧ t.err = false ∧
      exec .ciphdec (load iv0 k1 iv0 32 16) = .next u ∧ u.err = false :=
  ⟨_, _, rfl, by decide +kernel, rfl, by decide +kernel⟩
theorem witness_ResultLengths_composite :
    ∃ t u, exec .encrypt (load [] k1 iv0 32 16) = .next t ∧ t.err = false ∧
      exec .decrypt (load c7 k1 iv0 32 16) = .next u ∧ u.err = false :=
  ⟨_, _, rfl, by decide +kernel, rfl, by decide +kernel⟩
theorem witness_ResultLengths_text :
    ∃ t u, exec .encryptx (load [] k1 iv0 32 16) = .next t ∧ t.err = false ∧
      exec .decryptx (load (hexEnc iv0 ++ [0x3A#8] ++ hexEnc c7) k1 ivs 32 0) = .next u ∧ u.err = false :=
  ⟨_, _, rfl, by decide +kernel, rfl, by decide +kernel⟩

/-! Hex codec -/

theorem witness_HexencDelivers :
    2 * (declared 128 0 16).inLen.toNat ≤ (declared 128 0 16).cap ∧ 2 * State.reset.inLen.toNat ≤ State.reset.cap := by
  decide
theorem witness_HexdecDelivers :
    (load (List.replicate 256 0x66#8) [] [] 0 16).inLen.toNat ≤ (load (List.replicate 256 0x66#8) [] [] 0 16).cap ∧
    (load (List.replicate 256 0x66#8) [] [] 0 16).inLen.toNat % 2 = 0 ∧
    ∀ i, i < (load (List.replicate 256 0x66#8) [] [] 0 16).inLen.toNat →
      (hexVal ((load (List.replicate 256 0x66#8) [] [] 0 16).byteAt .inp i)).isSome = true := by decide +kernel
theorem witness_HexCodecFails_capacity :
    (declared 257 0 16).inLen.toNat > (declared 257 0 16).cap ∧
    (declared 129 0 16).inLen.toNat ≤ (declared 129 0 16).cap ∧
    2 * (declared 129 0 16).inLen.toNat > (declared 129 0 16).cap := by decide
theorem witness_HexCodecFails_odd :
    (declared 255 0 16).inLen.toNat ≤ (declared 255 0 16).cap ∧ (declared 255 0 16).inLen.toNat % 2 = 1 := by decide
theorem witness_HexCodecFails_digit :
    (load [0x30#8, 0x67#8] [] [] 0 16).inLen.toNat ≤ (load [0x30#8, 0x67#8] [] [] 0 16).cap ∧
    (load [0x30#8, 0x67#8] [] [] 0 16).inLen.toNat % 2 = 0 ∧
    1 < (load [0x30#8, 0x67#8] [] [] 0 16).inLen.toNat ∧
    hexVal ((load [0x30#8, 0x67#8] [] [] 0 16).byteAt .inp 1) = none := by decide
theorem witness_HexCodecLaws :
    hexDec [0x41#8, 0x46#8] = .ok [0xAF#8] ∧ [0x41#8, 0x46#8].length % 2 = 0 := by decide

/-! Padding -/

theorem witness_PadDelivers :
    (declared 255 0 16).inLen.toNat + 16 - (declared 255 0 16).inLen.toNat % 16 ≤ (declared 255 0 16).cap ∧
    (declared 240 0 16).inLen.toNat + 16 - (declared 240 0 16).inLen.toNat % 16 ≤ (declared 240 0 16).cap ∧
    State.reset.inLen.toNat + 16 - State.reset.inLen.toNat % 16 ≤ State.reset.cap := by decide
theorem witness_UnpadDelivers_one :
    (load [0x01#8] [] [] 0 16).inLen.toNat ≤ (load [0x01#8] [] [] 0 16).cap ∧
    1 ≤ (load [0x01#8] [] [] 0 16).inLen.toNat ∧
    ∀ i, i < (load [0x01#8] [] [] 0 16).inLen.toNat → (load [0x01#8] [] [] 0 16).inLen.toNat - 1 ≤ i →
      ((load [0x01#8] [] [] 0 16).byteAt .inp i).toNat = 1 := by decide
theorem witness_UnpadDelivers_sixteen :
    16 ≤ (load (List.replicate 16 0x10#8) [] [] 0 16).inLen.toNat ∧
    ∀ i, i < (load (List.replicate 16 0x10#8) [] [] 0 16).inLen.toNat →
      (load (List.replicate 16 0x10#8) [] [] 0 16).inLen.toNat - 16 ≤ i →
      ((load (List.replicate 16 0x10#8) [] [] 0 16).byteAt .inp i).toNat = 16 := by decide +kernel
theorem witness_PaddingFails_capacity :
    (declared 257 0 16).inLen.toNat > (declared 257 0 16).cap ∧
    (declared 256 0 16).inLen.toNat ≤ (declared 256 0 16).cap ∧
    (declared 256 0 16).inLen.toNat + 16 - (declared 256 0 16).inLen.toNat % 16 > (declared 256 0 16).cap ∧
    State.reset.inLen.toNat ≤ State.reset.cap ∧ State.reset.inLen.toNat = 0 := by decide
theorem witness_PaddingFails_zero :
    0 < (load [0x00#8] [] [] 0 16).inLen.toNat ∧ (load [0x00#8] [] [] 0 16).inLen.toNat ≤ (load [0x00#8] [] [] 0 16).cap ∧
    ((load [0x00#8] [] [] 0 16).byteAt .inp ((load [0x00#8] [] [] 0 16).inLen.toNat - 1)).toNat = 0 := by decide
theorem witness_PaddingFails_over :
    0 < (load [0x11#8] [] [] 0 16).inLen.toNat ∧
    ((load [0x11#8] [] [] 0 16).byteAt .inp ((load [0x11#8] [] [] 0 16).inLen.toNat - 1)).toNat = 17 ∧ 17 > 16 ∧
    ((load [0xFF#8] [] [] 0 16).byteAt .inp ((load [0xFF#8] [] [] 0 16).inLen.toNat - 1)).toNat = 255 := by decide
theorem witness_PaddingFails_short :
    0 < (load [0x02#8] [] [] 0 16).inLen.toNat ∧ (load [0x02#8] [] [] 0 16).inLen.toNat < 2 ∧
    ((load [0x02#8] [] [] 0 16).byteAt .inp ((load [0x02#8] [] [] 0 16).inLen.toNat - 1)).toNat = 2 ∧
    (load (List.replicate 15 0x10#8) [] [] 0 16).inLen.toNat < 16 ∧
    ((load (List.replicate 15 0x10#8) [] [] 0 16).byteAt .inp 14).toNat = 16 := by decide +kernel
theorem witness_PaddingFails_mismatch :
    2 ≤ (load [0x01#8, 0x02#8] [] [] 0 16).inLen.toNat ∧
    ((load [0x01#8, 0x02#8] [] [] 0 16).byteAt .inp ((load [0x01#8, 0x02#8] [] [] 0 16).inLen.toNat - 1)).toNat = 2 ∧
    0 < (load [0x01#8, 0x02#8] [] [] 0 16).inLen.toNat ∧
    ((load [0x01#8, 0x02#8] [] [] 0 16).byteAt .inp 0).toNat ≠ 2 := by decide
theorem witness_PaddingLaws :
    unpad (List.replicate 16 0x10#8) = .ok [] ∧ (List.replicate 16 0x10#8).length % 16 = 0 ∧
    pad [0x41#8] = pad [0x41#8] := by decide +kernel

/-! The block cipher and CBC -/

theorem witness_FieldOfBytes : (0x53#8 : Byte) ≠ 0#8 := by decide
theorem witness_SboxTables : gfMul 0x53#8 0xCA#8 = 0x01#8 := by decide
theorem witness_KeyExpansionWords : k1.length = 32 ∧ 8 ≤ 8 ∧ 8 ≤ 59 ∧ 59 < 60 := by decide
theorem witness_KeyExpansionWords_operations : (hx 4 0x9ba35411).length = (hx 4 0x8e6925af).length ∧
    3 < (hx 4 0x9ba35411).length ∧ 1 ≤ 1 := by decide
theorem witness_RoundTransformationsInvert : ivs.length = 16 ∧ k1.length = 32 ∧ 14 ≤ 14 := by decide

/-- The states of encryption, round by round (R152). -/
def encStates (s : Bytes) (w : List Bytes) : Nat → Bytes
  | 0 => addRoundKey s w 0
  | r + 1 => addRoundKey (mixColumns (shiftRows (subBytes (encStates s w r)))) w (r + 1)

/-- The states of decryption, round by round (R153). -/
def decStates (s : Bytes) (w : List Bytes) : Nat → Bytes
  | 0 => addRoundKey s w 14
  | r + 1 => invMixColumns (addRoundKey (invSubBytes (invShiftRows (decStates s w r))) w (13 - r))

theorem witness_RoundTransformationsInvert_encryption :
    encStates ivs (keyExpansion k1) 0 = addRoundKey ivs (keyExpansion k1) 0 ∧
    ∀ r, r < 13 → encStates ivs (keyExpansion k1) (r + 1) = addRoundKey
      (mixColumns (shiftRows (subBytes (encStates ivs (keyExpansion k1) r)))) (keyExpansion k1) (r + 1) :=
  ⟨rfl, fun _ _ => rfl⟩
theorem witness_RoundTransformationsInvert_decryption :
    decStates ivs (keyExpansion k1) 0 = addRoundKey ivs (keyExpansion k1) 14 ∧
    ∀ r, r < 13 → decStates ivs (keyExpansion k1) (r + 1) = invMixColumns
      (addRoundKey (invSubBytes (invShiftRows (decStates ivs (keyExpansion k1) r))) (keyExpansion k1) (13 - r)) :=
  ⟨rfl, fun _ _ => rfl⟩
theorem witness_AesBlockInverse : k1.length = 32 ∧ ivs.length = 16 := by decide
theorem witness_CbcByBlocks :
    k1.length = 32 ∧ ivs.length = 16 ∧ cs.length % 16 = 0 ∧ 0 < cs.length / 16 ∧ 2 < cs.length / 16 := by decide
theorem witness_CbcRoundTrip : k1.length = 32 ∧ ivs.length = 16 ∧ cs.length % 16 = 0 := by decide
theorem witness_CbcErrorPropagation_prefix :
    cs.length % 16 = 0 ∧ (cs.take 16).length % 16 = 0 ∧ 0 < cs.length / 16 ∧ 0 < (cs.take 16).length / 16 ∧
    cs.take (16 * 0 + 16) = (cs.take 16).take (16 * 0 + 16) := by decide +kernel
theorem witness_CbcErrorPropagation_iv :
    ks.length = 32 ∧ ivs.length = 16 ∧ iv0.length = 16 ∧ cs.length % 16 = 0 ∧ 0 < cs.length / 16 := by decide
theorem witness_CbcErrorPropagation_block :
    ks.length = 32 ∧ ivs.length = 16 ∧ cs.length % 16 = 0 ∧ (cs.take 32 ++ iv0).length = cs.length ∧
    2 < cs.length / 16 ∧
    ∀ i, i < cs.length / 16 → (block (cs.take 32 ++ iv0) i = block cs i ↔ i ≠ 2) := by decide +kernel
theorem witness_CiphencDelivers :
    (declared 256 32 16).inLen.toNat ≤ (declared 256 32 16).cap ∧ 0 < (declared 16 32 16).inLen.toNat ∧
    (declared 256 32 16).inLen.toNat % 16 = 0 ∧ (declared 256 32 16).keyLen = 32#32 ∧
    (declared 256 32 16).ivLen = 16#32 ∧ 0 < (declared 256 32 16).inLen.toNat := by decide
theorem witness_CiphdecDelivers :
    (declared 16 32 16).inLen.toNat ≤ (declared 16 32 16).cap ∧ 0 < (declared 16 32 16).inLen.toNat ∧
    (declared 16 32 16).inLen.toNat % 16 = 0 ∧ (declared 16 32 16).keyLen = 32#32 ∧
    (declared 16 32 16).ivLen = 16#32 := by decide
theorem witness_CipherChecksFail_input :
    Instr.decrypt ∈ [Instr.ciphenc, .ciphdec, .decrypt] ∧
    (declared 257 32 16).inLen.toNat > (declared 257 32 16).cap ∧
    (declared 255 32 16).inLen.toNat ≤ (declared 255 32 16).cap ∧ (declared 255 32 16).inLen.toNat % 16 ≠ 0 ∧
    State.reset.inLen.toNat = 0 := by decide
theorem witness_CipherChecksFail_lengths :
    0 < (declared 16 31 0).inLen.toNat ∧ (declared 16 31 0).inLen.toNat % 16 = 0 ∧
    (declared 16 31 0).keyLen ≠ 32#32 ∧ (declared 16 32 17).keyLen = 32#32 ∧
    (declared 16 32 17).ivLen ≠ 16#32 := by decide

/-! Composite commands -/

theorem witness_EncryptDelivers :
    (declared 255 32 16).inLen.toNat + 16 - (declared 255 32 16).inLen.toNat % 16 ≤ (declared 255 32 16).cap ∧
    (declared 255 32 16).keyLen = 32#32 ∧ (declared 255 32 16).ivLen = 16#32 := by decide
theorem witness_DecryptDelivers :
    (load c7 k1 iv0 32 16).inLen.toNat ≤ (load c7 k1 iv0 32 16).cap ∧ 0 < (load c7 k1 iv0 32 16).inLen.toNat ∧
    (load c7 k1 iv0 32 16).inLen.toNat % 16 = 0 ∧ (load c7 k1 iv0 32 16).keyLen = 32#32 ∧
    (load c7 k1 iv0 32 16).ivLen = 16#32 ∧
    unpad (cbcDec ((load c7 k1 iv0 32 16).bytesAt .key 32) ((load c7 k1 iv0 32 16).bytesAt .iv 16)
      ((load c7 k1 iv0 32 16).bytesAt .inp (load c7 k1 iv0 32 16).inLen.toNat)) = .ok [] := by decide +kernel
theorem witness_DecryptPaddingFails :
    (load c7 ks iv0 32 16).inLen.toNat ≤ (load c7 ks iv0 32 16).cap ∧ 0 < (load c7 ks iv0 32 16).inLen.toNat ∧
    (load c7 ks iv0 32 16).inLen.toNat % 16 = 0 ∧ (load c7 ks iv0 32 16).keyLen = 32#32 ∧
    (load c7 ks iv0 32 16).ivLen = 16#32 ∧
    unpad (cbcDec ((load c7 ks iv0 32 16).bytesAt .key 32) ((load c7 ks iv0 32 16).bytesAt .iv 16)
      ((load c7 ks iv0 32 16).bytesAt .inp (load c7 ks iv0 32 16).inLen.toNat)) = .error .padOver := by
  decide +kernel
theorem witness_EncryptxDelivers :
    33 + 2 * ((declared 95 32 16).inLen.toNat + 16 - (declared 95 32 16).inLen.toNat % 16) ≤ (declared 95 32 16).cap ∧
    (declared 95 32 16).keyLen = 32#32 ∧ (declared 95 32 16).ivLen = 16#32 := by decide
theorem witness_EncryptChecksFail_capacity :
    (declared 257 32 16).inLen.toNat > (declared 257 32 16).cap ∧
    (declared 256 0 16).inLen.toNat + 16 - (declared 256 0 16).inLen.toNat % 16 = 272 ∧
    272 > (declared 256 0 16).cap ∧ (declared 256 0 16).inLen.toNat ≤ (declared 256 0 16).cap ∧
    (declared 96 0 16).inLen.toNat + 16 - (declared 96 0 16).inLen.toNat % 16 = 112 ∧
    33 + 2 * 112 > (declared 96 0 16).cap ∧ (declared 96 0 16).inLen.toNat ≤ (declared 96 0 16).cap := by decide
theorem witness_EncryptChecksFail_lengths :
    (declared 95 33 0).inLen.toNat + 16 - (declared 95 33 0).inLen.toNat % 16 = 96 ∧
    (declared 95 33 0).inLen.toNat ≤ (declared 95 33 0).cap ∧ (declared 95 33 0).keyLen ≠ 32#32 ∧
    33 + 2 * 96 ≤ (declared 95 33 0).cap ∧ (declared 255 32 15).keyLen = 32#32 ∧
    (declared 255 32 15).ivLen ≠ 16#32 ∧
    (declared 255 32 15).inLen.toNat + 16 - (declared 255 32 15).inLen.toNat % 16 = 256 ∧
    256 ≤ (declared 255 32 15).cap ∧ (declared 255 32 15).inLen.toNat ≤ (declared 255 32 15).cap := by decide

/-- A well-formed combined input under K1. -/
def text : State := load (hexEnc iv0 ++ [0x3A#8] ++ hexEnc c7) k1 ivs 32 0

theorem witness_DecryptxDelivers :
    text.inLen.toNat ≤ text.cap ∧ text.bytesAt .inp text.inLen.toNat = hexEnc iv0 ++ [0x3A#8] ++ hexEnc c7 ∧
    0x3A#8 ∉ hexEnc iv0 ∧ hexDec (hexEnc iv0) = .ok iv0 ∧ hexDec (hexEnc c7) = .ok c7 ∧ 0 < c7.length ∧
    c7.length % 16 = 0 ∧ text.keyLen = 32#32 ∧ iv0.length = 16 ∧
    unpad (cbcDec (text.bytesAt .key 32) iv0 c7) = .ok [] := by decide +kernel
theorem witness_DecryptxFails_split :
    (declared 257 32 16).inLen.toNat > (declared 257 32 16).cap ∧
    State.reset.inLen.toNat ≤ State.reset.cap ∧ 0x3A#8 ∉ State.reset.bytesAt .inp State.reset.inLen.toNat ∧
    (load [0x30#8, 0x3A#8, 0x7A#8] k1 iv0 32 16).bytesAt .inp 3 = [0x30#8] ++ [0x3A#8] ++ [0x7A#8] ∧
    hexDec [0x30#8] = .error .hexOdd ∧ hexDec [] = .ok [] ∧ hexDec [0x7A#8, 0x7A#8] = .error .hexDigit := by
  decide +kernel
theorem witness_DecryptxFails_lengths :
    (load [0x3A#8] k1 iv0 0 16).bytesAt .inp 1 = [] ++ [0x3A#8] ++ [] ∧ ([] : Bytes).length = 0 ∧
    (load ([0x3A#8] ++ hexEnc c7) k1 iv0 0 16).bytesAt .inp 33 = [] ++ [0x3A#8] ++ hexEnc c7 ∧
    (load ([0x3A#8] ++ hexEnc c7) k1 iv0 0 16).keyLen ≠ 32#32 ∧ hexDec (hexEnc c7) = .ok c7 ∧
    (load ([0x3A#8] ++ hexEnc c7) k1 iv0 32 16).keyLen = 32#32 ∧ ([] : Bytes).length ≠ 16 := by decide +kernel
theorem witness_DecryptxFails_padding :
    (load (hexEnc iv0 ++ [0x3A#8] ++ hexEnc c7) ks ivs 32 0).bytesAt .inp 65 =
      hexEnc iv0 ++ [0x3A#8] ++ hexEnc c7 ∧ 0x3A#8 ∉ hexEnc iv0 ∧ hexDec (hexEnc iv0) = .ok iv0 ∧
    hexDec (hexEnc c7) = .ok c7 ∧ (load (hexEnc iv0 ++ [0x3A#8] ++ hexEnc c7) ks ivs 32 0).keyLen = 32#32 ∧
    iv0.length = 16 ∧
    unpad (cbcDec ((load (hexEnc iv0 ++ [0x3A#8] ++ hexEnc c7) ks ivs 32 0).bytesAt .key 32) iv0 c7) =
      .error .padOver := by decide +kernel
theorem witness_EncryptDecryptRoundTrip :
    ∃ s s' t : State, s.keyLen = 32#32 ∧ s.ivLen = 16#32 ∧ s.inLen.toNat + 16 - s.inLen.toNat % 16 ≤ s.cap ∧
      exec .encrypt s = .next t ∧ SameKey s s' ∧ SameIv s s' ∧ s'.capr = s.capr ∧ s'.inLen = t.outLen ∧
      ∀ i, i < t.outLen.toNat → t.specifiedByte .out i = some (s'.byteAt .inp i) :=
  ⟨load [] k1 iv0 32 16, load c7 k1 iv0 32 16, _, by decide, by decide, by decide, rfl,
    by unfold SameKey; decide +kernel, by unfold SameIv; decide +kernel, by decide, by decide +kernel,
    by decide +kernel⟩
theorem witness_EncryptxDecryptxRoundTrip :
    ∃ s s' t : State, s.keyLen = 32#32 ∧ s.ivLen = 16#32 ∧
      33 + 2 * (s.inLen.toNat + 16 - s.inLen.toNat % 16) ≤ s.cap ∧
      exec .encryptx s = .next t ∧ SameKey s s' ∧ s'.capr = s.capr ∧ s'.inLen = t.outLen ∧
      ∀ i, i < t.outLen.toNat → t.specifiedByte .out i = some (s'.byteAt .inp i) :=
  ⟨load [] k1 iv0 32 16, text, _, by decide, by decide, by decide, rfl,
    by unfold SameKey; decide +kernel, by decide, by decide +kernel, by decide +kernel⟩
theorem witness_CompositesAreSequences_encrypt :
    ∃ s t s' : State, s.keyLen = 32#32 ∧ s.ivLen = 16#32 ∧ exec .pad s = .next t ∧ t.err = false ∧ SameKey s s' ∧
      SameIv s s' ∧ s'.capr = s.capr ∧ s'.inLen = t.outLen ∧
      ∀ i, i < t.outLen.toNat → t.specifiedByte .out i = some (s'.byteAt .inp i) :=
  ⟨load [] k1 iv0 32 16, _, load (List.replicate 16 0x10#8) k1 iv0 32 16, by decide, by decide, rfl,
    by decide +kernel, by unfold SameKey; decide +kernel, by unfold SameIv; decide +kernel, by decide,
    by decide +kernel, by decide +kernel⟩
theorem witness_CompositesAreSequences_decrypt :
    ∃ s t s' : State, exec .ciphdec s = .next t ∧ t.err = false ∧ s'.capr = s.capr ∧ s'.inLen = t.outLen ∧
      ∀ i, i < t.outLen.toNat → t.specifiedByte .out i = some (s'.byteAt .inp i) :=
  ⟨load c7 k1 iv0 32 16, _, load (List.replicate 16 0x10#8) [] [] 0 0, rfl, by decide +kernel, by decide,
    by decide +kernel, by decide +kernel⟩

/-! Invariants and progress -/

theorem witness_StepKeepsInvariant :
    ∃ t, (inFlight 0x03#32 (load [0x41#8] k1 ivs 32 16)).Inv ∧
      step (inFlight 0x03#32 (load [0x41#8] k1 ivs 32 16)) = .next t :=
  ⟨_, by unfold State.Inv; decide +kernel, rfl⟩
theorem witness_StatusInvariants :
    (inFlight 0x03#32 State.reset).Inv ∧ (after .hexdec (load [0x30#8] [] [] 0 16)).Inv ∧
    (after .hexdec (load [0x30#8] [] [] 0 16)).err = true ∧
    (after .hexdec (load [] [] [] 0 16)).Inv ∧ (after .hexdec (load [] [] [] 0 16)).err = false := by
  unfold State.Inv; decide +kernel
theorem witness_LaunchedCommandCompletes :
    (pending State.reset 1#32 2 [.txn (.rd32 0x04), .txn (.wr8 0x40 1#8)]).busy = true ∧
    ∀ item ∈ (pending State.reset 1#32 2 [.txn (.rd32 0x04), .txn (.wr8 0x40 1#8)]).inputs,
      ∃ x : Txn, item = .txn x ∧
        x.admitted (pending State.reset 1#32 2 [.txn (.rd32 0x04), .txn (.wr8 0x40 1#8)]).cap = true := by
  refine ⟨by decide, fun item h => ?_⟩
  rcases List.mem_cons.1 h with rfl | h
  · exact ⟨_, rfl, by decide⟩
  · rcases List.mem_cons.1 h with rfl | h
    · exact ⟨_, rfl, by decide⟩
    · exact absurd h List.not_mem_nil
theorem witness_WaitEnds :
    (pending State.reset 1#32 3 [.await, .rdout]).busy = true ∧
    (pending State.reset 1#32 3 [.await, .rdout]).inputs = .await :: [.rdout] := by decide
theorem witness_ResultStaysUntilLaunch :
    ∃ s t item rest, s.busy = false ∧ s.status = 0x00000002#32 ∧ s.inputs = item :: rest ∧ item ≠ Input.reset ∧
      (∀ w, item ≠ .txn (.wr32 0x00 w)) ∧ step s = .next t :=
  ⟨pending (after .hexenc (load [0xA5#8] [] [] 0 16)) 2#32 0 [.txn (.wr8 0x2000000 1#8)], _,
    .txn (.wr8 0x2000000 1#8), [], by decide +kernel, rfl, rfl, by decide, by simp, rfl⟩
theorem witness_LdkeyLoadsKey :
    (pending State.reset 0#32 0 (scriptLdkey k1 ++ [.await])).busy = false ∧ keyLoadOk k1 = true ∧
    (pending State.reset 0#32 0 (scriptLdkey k1 ++ [.await])).inputs = scriptLdkey k1 ++ [.await] :=
  ⟨by decide, by decide, rfl⟩
theorem witness_RdoutReturnsResult :
    (pending (after .hexenc (load [0xA5#8] [] [] 0 16)) 2#32 0 [.rdout]).Inv ∧
    (pending (after .hexenc (load [0xA5#8] [] [] 0 16)) 2#32 0 [.rdout]).status = 0x00000002#32 ∧
    (pending (after .hexenc (load [0xA5#8] [] [] 0 16)) 2#32 0 [.rdout]).inputs = .rdout :: [] := by
  unfold State.Inv; decide +kernel
theorem witness_MvoutCopiesResult :
    (pending (after .hexenc (load [0xA5#8] [] [] 0 16)) 2#32 0 [.mvout]).Inv ∧
    (pending (after .hexenc (load [0xA5#8] [] [] 0 16)) 2#32 0 [.mvout]).status = 0x00000002#32 ∧
    (pending (after .hexenc (load [0xA5#8] [] [] 0 16)) 2#32 0 [.mvout]).inputs = .mvout :: [] := by
  unfold State.Inv; decide +kernel

end Sys2Proof.Tests
end

section
/-! The host's half of the step (spec/00_scope.md R16): when the core stands still, and what the step then is. -/

namespace Sys2Proof.Machine

/-! ### When the core does not move -/

theorem coreMoves_eq_false_of_idle {s : State} (hidle : s.busy = false) : coreMoves s = false := by
  simp [coreMoves, hidle]

theorem coreMoves_eq_false_of_waiting {s : State} {item : Input} {rest : List Input} {n : Nat}
    (hlat : s.latency = n + 1) (hin : s.inputs = item :: rest) : coreMoves s = false := by
  simp [coreMoves, hlat, hin]

/-! ### What taking an input off the list leaves -/

theorem takeInput_of_idle {s : State} (hidle : s.busy = false) (rest : List Input) :
    s.takeInput rest = { s with inputs := rest } := by
  simp [State.takeInput, hidle]

theorem takeInput_of_busy {s : State} {n : Nat} (hbusy : s.busy = true) (hlat : s.latency = n + 1)
    (rest : List Input) : s.takeInput rest = { s with inputs := rest, latency := n } := by
  simp [State.takeInput, hbusy, hlat]

/-! ### The step when the core does not move -/

theorem step_of_stalled_cons {s : State} {item : Input} {rest : List Input} (hcore : coreMoves s = false)
    (hin : s.inputs = item :: rest) : step s = serveInput item (s.takeInput rest) := by
  simp [step, hcore, serveHost, hin]

theorem step_of_stalled_nil {s : State} (hcore : coreMoves s = false) (hin : s.inputs = []) :
    step s = .next s := by
  simp [step, hcore, serveHost, hin]

/-- Settles O2: an idle core, and a busy one with host steps left and an input to serve, do not move, so the step
is the host's, and `takeInput` is the state that the clause names. -/
theorem stepServesHostInput : Obligations.StepServesHostInput := by
  refine ⟨fun s item rest hidle hin => ?idle, fun s item rest n hbusy hlat hin => ?busy,
    fun s hidle hin => ?nothing⟩
  case idle =>
    rw [step_of_stalled_cons (coreMoves_eq_false_of_idle hidle) hin, takeInput_of_idle hidle]
  case busy =>
    rw [step_of_stalled_cons (coreMoves_eq_false_of_waiting hlat hin) hin, takeInput_of_busy hbusy hlat]
  case nothing => exact step_of_stalled_nil (coreMoves_eq_false_of_idle hidle) hin

end Sys2Proof.Machine
end

section
/-! What a command does and what it reads (spec/10_state.md R39, R40): each completion keeps the operands, and its
outcome is a function of the command word and the operands alone. -/

namespace Sys2Proof.Machine

/-! ### A completion keeps the operands -/

theorem succeedWith_keepsOperands (s : State) (r : Bytes) : KeepsOperands s (s.succeedWith r) :=
  ⟨rfl, rfl, rfl, rfl, rfl, rfl, rfl, rfl, rfl, fun sp i hsp =>
    specifiedByte_congr s _ sp i hsp (withCells_cells_other s.mem .out sp _ hsp)⟩

theorem failWith_keepsOperands (s : State) (c : ECode) : KeepsOperands s (s.failWith c) :=
  ⟨rfl, rfl, rfl, rfl, rfl, rfl, rfl, rfl, rfl, fun sp i hsp =>
    specifiedByte_congr s _ sp i hsp (withCells_cells_other s.mem .out sp _ hsp)⟩

theorem complete_keepsOperands (s : State) : ∀ o : Except ECode Bytes, KeepsOperands s (s.complete o)
  | .ok r => succeedWith_keepsOperands s r
  | .error c => failWith_keepsOperands s c

/-- Settles O15: the meaning of every command is a completion, and both completions keep the operands. -/
theorem commandsKeepOperands : Obligations.CommandsKeepOperands :=
  fun i s => ⟨_, exec_eq i s, complete_keepsOperands s _⟩

/-! ### The outcome is a function of the word and the operands -/

theorem bytesAt_congr {s s' : State} {sp : Space} {n : Nat}
    (h : ∀ i, i < n → s'.byteAt sp i = s.byteAt sp i) : s'.bytesAt sp n = s.bytesAt sp n :=
  List.map_congr_left fun i hi => h i (List.mem_range.1 hi)

theorem operands_congr {s s' : State} (hinput : SameInput s s') (hkey : SameKey s s') (hiv : SameIv s s') :
    s'.operands = s.operands := by
  obtain ⟨hinLen, hcapr, hinp⟩ := hinput
  obtain ⟨hkeyLen, hkeyv⟩ := hkey
  obtain ⟨hivLen, hivv⟩ := hiv
  simp only [State.operands, State.cap, hinLen, hcapr, hkeyLen, hivLen, bytesAt_congr hinp,
    bytesAt_congr hkeyv, bytesAt_congr hivv]

/-- The common frame reads the state through its operands only (R89). -/
theorem commandOutcome_congr (rule : Operands → Except ECode Bytes) {s s' : State}
    (h : s'.operands = s.operands) : commandOutcome rule s' = commandOutcome rule s := by
  have hinLen : s'.inLen.toNat = s.inLen.toNat := congrArg Operands.inLen h
  have hcap : s'.cap = s.cap := congrArg Operands.cap h
  simp only [commandOutcome, h, hinLen, hcap]

/-- What a completion shows depends on its outcome only, not on the state that it completes. -/
theorem complete_sameResult (s s' : State) (o : Except ECode Bytes) :
    SameResult (s.complete o) (s'.complete o) := by
  cases o with
  | ok r => exact ⟨rfl, rfl, fun _ => rfl⟩
  | error c => exact ⟨rfl, rfl, fun _ => rfl⟩

/-- The outcome of a launched word: that of the command it decodes to, or `E_ILLEGAL_CMD` (R86, R90). -/
def launchedOutcome (s : State) : Except ECode Bytes :=
  match decode s.cmdr with
  | .ok i => commandOutcome (ruleOf i) s
  | .error _ => .error .illegalCmd

theorem completeCommand_eq (s : State) : completeCommand s = .next (s.complete (launchedOutcome s)) := by
  unfold completeCommand launchedOutcome
  cases decode s.cmdr with
  | ok i => exact exec_eq i s
  | error e => rfl

theorem launchedOutcome_congr {s s' : State} (hcmdr : s'.cmdr = s.cmdr) (h : s'.operands = s.operands) :
    launchedOutcome s' = launchedOutcome s := by
  unfold launchedOutcome
  rw [hcmdr]
  cases decode s.cmdr with
  | ok i => exact commandOutcome_congr (ruleOf i) h
  | error e => rfl

/-- Settles O16: the same word and the same operands give the same outcome, and the completion shows nothing
else. -/
theorem outcomeDependsOnOperandsAlone : Obligations.OutcomeDependsOnOperandsAlone := by
  intro s s' hcmdr hinput hkey hiv
  have houtcome : launchedOutcome s' = launchedOutcome s :=
    launchedOutcome_congr hcmdr (operands_congr hinput hkey hiv)
  refine ⟨_, _, completeCommand_eq s, completeCommand_eq s', ?_⟩
  rw [houtcome]
  exact complete_sameResult s s' _

end Sys2Proof.Machine
end

section
/-! What an outcome can be (60_exceptions.md R221, R228): a result that fits in OUT, or one of the fourteen codes
that the core raises. -/

namespace Sys2Proof.Machine

/-! ### Lengths that the cipher never exceeds -/

theorem xorBytes_length_le_left (x y : Bytes) : (xorBytes x y).length ≤ x.length := by
  rw [xorBytes_length]; exact Nat.min_le_left _ _

theorem aesEncBlock_length_le (w : List Bytes) (x : Bytes) : (aesEncBlock w x).length ≤ 16 := by
  refine (xorBytes_length_le_left _ _).trans ?_
  simp [shiftRows, shiftRowsOrder]

theorem aesDecBlock_length_le (w : List Bytes) (y : Bytes) : (aesDecBlock w y).length ≤ 16 := by
  refine (xorBytes_length_le_left _ _).trans ?_
  simp [invSubBytes, invShiftRows, invShiftRowsOrder]

theorem cbcEncBlocks_length_le (w : List Bytes) (m : Nat) (c x : Bytes) :
    (cbcEncBlocks w m c x).length ≤ 16 * m := by
  induction m generalizing c x with
  | zero => simp [cbcEncBlocks]
  | succ m ih =>
    simp only [cbcEncBlocks, List.length_append]
    have hblock := aesEncBlock_length_le w (xorBytes (x.take Config.BLOCK) c)
    have hrest := ih (aesEncBlock w (xorBytes (x.take Config.BLOCK) c)) (x.drop Config.BLOCK)
    omega

theorem cbcDecBlocks_length_le (w : List Bytes) (m : Nat) (c y : Bytes) :
    (cbcDecBlocks w m c y).length ≤ 16 * m := by
  induction m generalizing c y with
  | zero => simp [cbcDecBlocks]
  | succ m ih =>
    simp only [cbcDecBlocks, List.length_append]
    have hblock := (xorBytes_length_le_left (aesDecBlock w (y.take Config.BLOCK)) c).trans
      (aesDecBlock_length_le w (y.take Config.BLOCK))
    have hrest := ih (y.take Config.BLOCK) (y.drop Config.BLOCK)
    omega

theorem cbcEnc_length_le (k v x : Bytes) : (cbcEnc k v x).length ≤ x.length :=
  (cbcEncBlocks_length_le _ _ v x).trans (Nat.mul_div_le x.length 16)

theorem cbcDec_length_le (k v y : Bytes) : (cbcDec k v y).length ≤ y.length :=
  (cbcDecBlocks_length_le _ _ v y).trans (Nat.mul_div_le y.length 16)

/-! ### Admissible outcomes -/

/-- An outcome that a core of capacity `cap` may complete with: a result of at most `cap` bytes, or one of the
fourteen codes (R221, R228). -/
def Admissible (cap : Nat) : Except ECode Bytes → Prop
  | .ok r => r.length ≤ cap
  | .error c => c ∈ coreCodes

@[simp] theorem admissible_ok (cap : Nat) (r : Bytes) : Admissible cap (.ok r) ↔ r.length ≤ cap := Iff.rfl

@[simp] theorem admissible_error (cap : Nat) (c : ECode) : Admissible cap (.error c) ↔ c ∈ coreCodes := Iff.rfl

theorem Admissible.mono {m n : Nat} (hmn : m ≤ n) : ∀ {o : Except ECode Bytes}, Admissible m o → Admissible n o
  | .ok _, h => Nat.le_trans h hmn
  | .error _, h => h

theorem capOut_mem_coreCodes : ECode.capOut ∈ coreCodes := by decide

theorem cipherCheck_error_mem_coreCodes {n klen vlen : Nat} {c : ECode}
    (h : cipherCheck n klen vlen = .error c) : c ∈ coreCodes :=
  (show [ECode.lenBlock, .keyLen, .ivLen] ⊆ coreCodes by decide) (cipherCheck_error_codes _ _ _ c h)

theorem hexDec_error_mem_coreCodes {b : Bytes} {c : ECode} (h : hexDec b = .error c) : c ∈ coreCodes := by
  obtain ⟨rfl, -⟩ | ⟨rfl, -⟩ := hexDec_error_cases b c h
  · decide
  · decide

theorem hexDec_ok_length_le {s b : Bytes} (h : hexDec s = .ok b) : b.length ≤ s.length := by
  obtain ⟨-, -, rfl⟩ := (hexDec_ok_iff s b).1 h
  rw [hexPairs_length]
  exact Nat.div_le_self _ _

theorem unpad_error_mem_coreCodes {b : Bytes} {c : ECode} (h : unpad b = .error c) : c ∈ coreCodes :=
  (show [ECode.padEmpty, .padZero, .padOver, .padShort, .padMismatch] ⊆ coreCodes by decide)
    (unpad_error_codes b c h)

theorem hexDec_admissible (s : Bytes) : Admissible s.length (hexDec s) := by
  cases h : hexDec s with
  | ok b => exact hexDec_ok_length_le h
  | error c => exact hexDec_error_mem_coreCodes h

theorem unpad_admissible (b : Bytes) : Admissible b.length (unpad b) := by
  cases h : unpad b with
  | ok r =>
    obtain ⟨p, -, -, -, -, rfl⟩ := unpad_ok_length b r h
    exact List.length_take_le' _ _
  | error c => exact unpad_error_mem_coreCodes h

/-- Unpadding a decryption gives at most as many bytes as were decrypted. -/
theorem unpad_cbcDec_admissible (k v y : Bytes) : Admissible y.length (unpad (cbcDec k v y)) :=
  (unpad_admissible _).mono (cbcDec_length_le k v y)

/-! ### The outcome of each command's rule -/

/-- What the input capacity check leaves true of the operands (R89): the input is `IN_LEN` bytes and fits. -/
structure Operands.Fit (o : Operands) : Prop where
  /-- The input has the declared length. -/
  input_length : o.input.length = o.inLen
  /-- The check on `IN_LEN` has passed. -/
  inLen_le_cap : o.inLen ≤ o.cap
  /-- The IV window has 16 bytes. -/
  ivv_length : o.ivv.length = 16

theorem operands_fit {s : State} (h : s.inLen.toNat ≤ s.cap) : s.operands.Fit :=
  ⟨bytesAt_length s _ _, h, bytesAt_length s _ _⟩

section
variable {o : Operands}

theorem Operands.Fit.input_le (ho : o.Fit) : o.input.length ≤ o.cap :=
  ho.input_length.trans_le ho.inLen_le_cap

theorem hexencRule_admissible (ho : o.Fit) : Admissible o.cap (hexencRule o) := by
  unfold hexencRule
  split
  · exact capOut_mem_coreCodes
  · next hfits =>
    rw [admissible_ok, hexEnc_length, ho.input_length]
    exact Nat.not_lt.1 hfits

theorem hexdecRule_admissible (ho : o.Fit) : Admissible o.cap (hexdecRule o) :=
  (hexDec_admissible o.input).mono ho.input_le

theorem padRule_admissible (ho : o.Fit) : Admissible o.cap (padRule o) := by
  unfold padRule
  split
  · exact capOut_mem_coreCodes
  · next hfits =>
    rw [admissible_ok, pad_length, ho.input_length]
    exact Nat.not_lt.1 hfits

theorem unpadRule_admissible (ho : o.Fit) : Admissible o.cap (unpadRule o) :=
  (unpad_admissible o.input).mono ho.input_le

theorem ciphencRule_admissible (ho : o.Fit) : Admissible o.cap (ciphencRule o) := by
  unfold ciphencRule
  split
  · next c hc => exact cipherCheck_error_mem_coreCodes hc
  · exact (cbcEnc_length_le _ _ _).trans ho.input_le

theorem ciphdecRule_admissible (ho : o.Fit) : Admissible o.cap (ciphdecRule o) := by
  unfold ciphdecRule
  split
  · next c hc => exact cipherCheck_error_mem_coreCodes hc
  · exact (cbcDec_length_le _ _ _).trans ho.input_le

/-- The ciphertext of the padded input is at most as long as the padded input. -/
theorem cbcEnc_pad_length_le (ho : o.Fit) :
    (cbcEnc o.keyv o.ivv (pad o.input)).length ≤ paddedLen o.inLen := by
  have h := cbcEnc_length_le o.keyv o.ivv (pad o.input)
  rwa [pad_length, ho.input_length] at h

theorem encryptRule_admissible (ho : o.Fit) : Admissible o.cap (encryptRule o) := by
  unfold encryptRule
  split
  · exact capOut_mem_coreCodes
  · next hfits =>
    split
    · next c hc => exact cipherCheck_error_mem_coreCodes hc
    · exact (cbcEnc_pad_length_le ho).trans (Nat.not_lt.1 hfits)

theorem decryptRule_admissible (ho : o.Fit) : Admissible o.cap (decryptRule o) := by
  unfold decryptRule
  split
  · next c hc => exact cipherCheck_error_mem_coreCodes hc
  · exact (unpad_cbcDec_admissible _ _ _).mono ho.input_le

theorem encryptxRule_admissible (ho : o.Fit) : Admissible o.cap (encryptxRule o) := by
  unfold encryptxRule
  split
  · exact capOut_mem_coreCodes
  · next hfits =>
    split
    · next c hc => exact cipherCheck_error_mem_coreCodes hc
    · have hcipher := cbcEnc_pad_length_le ho
      simp only [admissible_ok, List.length_append, hexEnc_length, ho.ivv_length, List.length_singleton]
      omega

theorem decryptxDecoded_admissible (keyv : Bytes) (keyLen : Nat) (v y : Bytes) :
    Admissible y.length (decryptxDecoded keyv keyLen v y) := by
  unfold decryptxDecoded
  split
  · next c hc => exact cipherCheck_error_mem_coreCodes hc
  · exact unpad_cbcDec_admissible keyv v y

theorem decryptxRule_admissible (ho : o.Fit) : Admissible o.cap (decryptxRule o) := by
  unfold decryptxRule
  split
  · exact (admissible_error _ _).2 (by decide)
  · next d _ =>
    split
    · next c hc => exact hexDec_error_mem_coreCodes hc
    · split
      · next c hc => exact hexDec_error_mem_coreCodes hc
      · next y hy =>
        have htext : (o.input.drop (d + 1)).length ≤ o.input.length := by simp
        have hlen : y.length ≤ o.cap := (hexDec_ok_length_le hy).trans (htext.trans ho.input_le)
        exact (decryptxDecoded_admissible _ _ _ y).mono hlen

theorem ruleOf_admissible (ho : o.Fit) : ∀ i : Instr, Admissible o.cap (ruleOf i o)
  | .hexenc => hexencRule_admissible ho
  | .hexdec => hexdecRule_admissible ho
  | .pad => padRule_admissible ho
  | .unpad => unpadRule_admissible ho
  | .ciphenc => ciphencRule_admissible ho
  | .ciphdec => ciphdecRule_admissible ho
  | .encrypt => encryptRule_admissible ho
  | .decrypt => decryptRule_admissible ho
  | .encryptx => encryptxRule_admissible ho
  | .decryptx => decryptxRule_admissible ho

end

/-- Under the common frame every command's outcome is admissible, in every state: the check on `IN_LEN` comes
before the rule (R89). -/
theorem commandOutcome_admissible (i : Instr) (s : State) :
    Admissible s.cap (commandOutcome (ruleOf i) s) := by
  obtain hover | hfits := Nat.lt_or_ge s.cap s.inLen.toNat
  · rw [commandOutcome_capIn _ s hover]
    exact (admissible_error _ _).2 (by decide)
  · rw [commandOutcome_rule _ s hfits]
    exact ruleOf_admissible (operands_fit hfits) i

theorem launchedOutcome_admissible (s : State) : Admissible s.cap (launchedOutcome s) := by
  unfold launchedOutcome
  cases decode s.cmdr with
  | ok i => exact commandOutcome_admissible i s
  | error e => exact (admissible_error _ _).2 (by decide)

end Sys2Proof.Machine
end

section
/-! The reset state (spec/10_state.md R44) and the invariant of every reachable state: what STATUS says under it
(R31, R32), and that every step keeps it together with `CAPR` (R28, R29, R35). -/

namespace Sys2Proof.Machine

/-! ### A window that lists nothing, and the reset state -/

theorem specifiedByte_of_cells_nil {s : State} {sp : Space} (h : s.mem.cells sp = []) (i : Nat) :
    s.specifiedByte sp i = unlisted sp := by
  by_cases hsp : sp = .out
  · subst hsp
    have hout : s.mem.out = [] := h
    rw [specifiedByte_out, hout]
    exact ite_self none
  · rw [specifiedByte_of_ne_out s sp i hsp, h]
    rfl

theorem reset_specifiedByte (sp : Space) (i : Nat) : State.reset.specifiedByte sp i = unlisted sp :=
  specifiedByte_of_cells_nil (by cases sp <;> rfl) i

/-- Settles O50: after reset no window lists a byte, and every register has the value that the table gives. -/
theorem resetStateValues : Obligations.ResetStateValues :=
  ⟨fun i _ => reset_specifiedByte .key i, rfl, fun i _ => reset_specifiedByte .iv i, rfl,
    fun i _ => reset_specifiedByte .inp i, rfl, fun i _ => reset_specifiedByte .out i, rfl,
    rfl, rfl, rfl, rfl⟩

/-! ### The parts of the invariant -/

theorem legalStatus_iff (w : Word) : legalStatus w = true ↔
    w = 0x00000000#32 ∨ w = statusBusy ∨ w = statusSuccess ∨ ∃ c ∈ coreCodes, w = statusFailure c := by
  simp [legalStatus, or_assoc]

theorem statusBusy_ne_statusSuccess : statusBusy ≠ statusSuccess := by decide

theorem statusFailure_ne_statusSuccess (c : ECode) : statusFailure c ≠ statusSuccess := fun h => by
  simpa using congrArg errBit h

theorem resultOk_iff_of_success {s : State} (h : s.status = statusSuccess) : resultOk s = true ↔
    s.mem.out.map Prod.fst = List.range s.outLen.toNat ∧ s.outLen.toNat ≤ s.cap := by
  simp [resultOk, h]

theorem resultOk_iff_of_not_success {s : State} (h : s.status ≠ statusSuccess) : resultOk s = true ↔
    s.mem.out = [] ∧ (s.busy = true ∨ s.outLen = 0#32) := by
  simp [resultOk, h]

/-- The result part reads only OUT, `OUT_LEN`, STATUS and `CAPR`. -/
theorem resultOk_congr {s t : State} (hout : t.mem.out = s.mem.out) (houtLen : t.outLen = s.outLen)
    (hstatus : t.status = s.status) (hcapr : t.capr = s.capr) : resultOk t = resultOk s := by
  unfold resultOk State.busy State.cap
  rw [hout, houtLen, hstatus, hcapr]

theorem cap_lt_of_capOk {cap : Nat} (h : capOk cap = true) : cap < 2 ^ 32 := by
  simp only [capOk, Bool.and_eq_true, decide_eq_true_eq] at h
  omega

/-! ### The invariants of STATUS -/

theorem raisedByCore_of_mem_coreCodes {c : ECode} (h : c ∈ coreCodes) : c.raisedByCore = true :=
  (show ∀ d ∈ coreCodes, d.raisedByCore = true by decide) c h

/-- Settles O54, along the four kinds of value that STATUS takes (R31); that `OUT_LEN` is 0 after a failure is the
result part of the invariant. -/
theorem statusInvariants : Obligations.StatusInvariants := by
  rintro s ⟨-, -, hlegal, hresult⟩
  simp only [State.busy, State.done, State.err, State.ecode]
  obtain hst | hst | hst | ⟨c, hc, hst⟩ := (legalStatus_iff _).1 hlegal
  case inl => rw [hst]; simp [busyBit, errBit, ecodeField]
  case inr.inl => rw [hst]; simp [show ecodeField statusBusy = 0x00#8 by decide]
  case inr.inr.inl => rw [hst]; simp [show ecodeField statusSuccess = 0x00#8 by decide]
  case inr.inr.inr =>
    have hne : s.status ≠ statusSuccess := hst ▸ statusFailure_ne_statusSuccess c
    have hidle : s.busy = false := by simp [State.busy, hst]
    obtain ⟨-, houtLen⟩ := (resultOk_iff_of_not_success hne).1 hresult
    have hzero : s.outLen = 0#32 := houtLen.resolve_left (by simp [hidle])
    rw [hst]
    simpa [hzero] using ⟨c, raisedByCore_of_mem_coreCodes hc, rfl⟩

/-! ### The completions keep the invariant -/

theorem inv_succeedWith {s : State} {r : Bytes} (hs : s.Inv) (hr : r.length ≤ s.cap) :
    (s.succeedWith r).Inv := by
  obtain ⟨hcap, hwf, -, -⟩ := hs
  have hlen : (s.succeedWith r).outLen.toNat = r.length := by
    rw [succeedWith_outLen, BitVec.toNat_ofNat]
    exact Nat.mod_eq_of_lt (hr.trans_lt (cap_lt_of_capOk hcap))
  refine ⟨hcap, wf_result s.cap s.mem r hwf hr, rfl, (resultOk_iff_of_success rfl).2 ⟨?_, ?_⟩⟩
  · rw [hlen, succeedWith_mem, withCells_out_out, from_map_fst, List.range_eq_range']
  · rw [hlen]; exact hr

/-- With OUT dropped, the invariant asks of the new STATUS that it is legal and no success, and of `OUT_LEN` that
it is 0 unless a command is in flight. -/
theorem inv_of_dropOut {s t : State} (hs : s.Inv) (hmem : t.mem = s.mem.withCells .out [])
    (hcapr : t.capr = s.capr) (hlegal : legalStatus t.status = true) (hne : t.status ≠ statusSuccess)
    (hlen : t.busy = true ∨ t.outLen = 0#32) : t.Inv := by
  obtain ⟨hcap, hwf, -, -⟩ := hs
  have hcapEq : t.cap = s.cap := congrArg BitVec.toNat hcapr
  refine ⟨hcapEq ▸ hcap, ?_, hlegal, (resultOk_iff_of_not_success hne).2 ⟨?_, hlen⟩⟩
  · rw [hcapEq, hmem]; exact wf_dropOut s.cap s.mem hwf
  · rw [hmem, withCells_out_out]

theorem inv_failWith {s : State} {c : ECode} (hs : s.Inv) (hc : c ∈ coreCodes) : (s.failWith c).Inv :=
  inv_of_dropOut hs rfl rfl ((legalStatus_iff _).2 (.inr (.inr (.inr ⟨c, hc, rfl⟩))))
    (statusFailure_ne_statusSuccess c) (.inr rfl)

theorem inv_complete {s : State} (hs : s.Inv) :
    ∀ {o : Except ECode Bytes}, Admissible s.cap o → (s.complete o).Inv
  | .ok _, h => inv_succeedWith hs h
  | .error _, h => inv_failWith hs h

/-! ### Every move keeps the invariant and `CAPR` -/

/-- The move from `s` to `t` keeps the invariant and the hardwired `CAPR` (R35). -/
def KeepsInv (s t : State) : Prop := (s.Inv → t.Inv) ∧ t.capr = s.capr

theorem KeepsInv.refl (s : State) : KeepsInv s s := ⟨id, rfl⟩

theorem KeepsInv.trans {s t u : State} (hst : KeepsInv s t) (htu : KeepsInv t u) : KeepsInv s u :=
  ⟨htu.1 ∘ hst.1, htu.2.trans hst.2⟩

/-- A move that leaves OUT, `OUT_LEN`, STATUS and `CAPR` has only the canonical form of the windows to keep. -/
theorem keepsInv_of_wf {s t : State} (hwf : s.mem.wf s.cap = true → t.mem.wf s.cap = true)
    (hout : t.mem.out = s.mem.out) (houtLen : t.outLen = s.outLen) (hstatus : t.status = s.status)
    (hcapr : t.capr = s.capr) : KeepsInv s t := by
  have hcapEq : t.cap = s.cap := congrArg BitVec.toNat hcapr
  refine ⟨fun ⟨hcap, hmem, hlegal, hresult⟩ => ⟨hcapEq ▸ hcap, ?_, ?_, ?_⟩, hcapr⟩
  · rw [hcapEq]; exact hwf hmem
  · rw [hstatus]; exact hlegal
  · rw [resultOk_congr hout houtLen hstatus hcapr]; exact hresult

theorem keepsInv_of_mem {s t : State} (hmem : t.mem = s.mem) (houtLen : t.outLen = s.outLen)
    (hstatus : t.status = s.status) (hcapr : t.capr = s.capr) : KeepsInv s t :=
  keepsInv_of_wf (fun h => hmem ▸ h) (congrArg Memory.out hmem) houtLen hstatus hcapr

theorem takeInput_keepsInv (s : State) (l : List Input) : KeepsInv s (s.takeInput l) :=
  keepsInv_of_mem rfl rfl rfl rfl

theorem prepend_keepsInv (s : State) (l : List Input) : KeepsInv s (s.prepend l) :=
  keepsInv_of_mem rfl rfl rfl rfl

theorem readReg_keepsInv (s : State) (r : Reg) : KeepsInv s (s.readReg r) :=
  keepsInv_of_mem rfl rfl rfl rfl

theorem readByte_keepsInv (s : State) (sp : Space) (i : Nat) : KeepsInv s (s.readByte sp i) :=
  keepsInv_of_mem rfl rfl rfl rfl

theorem launch_keepsInv (s : State) (w : Word) : KeepsInv s (s.launch w) :=
  ⟨fun hs => inv_of_dropOut hs rfl rfl rfl statusBusy_ne_statusSuccess
    (.inl (launch_busy s w)), rfl⟩

theorem writeRegIdle_keepsInv (s : State) (w : Word) : ∀ r : Reg, KeepsInv s (s.writeRegIdle w r)
  | .cmd => launch_keepsInv s w
  | .inLen | .keyLen | .ivLen => keepsInv_of_mem rfl rfl rfl rfl
  | .status | .outLen | .capr => .refl s

theorem writeReg_keepsInv (s : State) (r : Reg) (w : Word) : KeepsInv s (s.writeReg r w) := by
  unfold State.writeReg
  split
  · exact .refl s
  · exact writeRegIdle_keepsInv s w r

theorem store_keepsInv (s : State) {sp : Space} {i : Nat} (b : Byte) (hsp : Space.out ≠ sp)
    (hi : i < windowSize s.cap sp) : KeepsInv s { s with mem := s.mem.store sp i b } :=
  keepsInv_of_wf (fun h => wf_store s.cap s.mem sp i b h hi) (store_cells_other s.mem sp .out i b hsp) rfl rfl rfl

theorem writeByteIdle_keepsInv (s : State) {i : Nat} (b : Byte) :
    ∀ {sp : Space}, i < windowSize s.cap sp → KeepsInv s (s.writeByteIdle i b sp)
  | .key, hi => store_keepsInv s b (by decide) hi
  | .iv, hi => store_keepsInv s b (by decide) hi
  | .inp, hi => store_keepsInv s b (by decide) hi
  | .out, _ => .refl s

theorem writeByte_keepsInv (s : State) {sp : Space} {i : Nat} (b : Byte) (hi : i < windowSize s.cap sp) :
    KeepsInv s (s.writeByte sp i b) := by
  unfold State.writeByte
  split
  · exact .refl s
  · exact writeByteIdle_keepsInv s b hi

theorem inv_reset : State.reset.Inv := ⟨rfl, wf_reset, rfl, rfl⟩

/-- Settles O53: the inputs are no part of the invariant, which the reset state meets. -/
theorem resetHasInvariant : Obligations.ResetHasInvariant := fun inputs =>
  (keepsInv_of_mem (s := State.reset) (t := { State.reset with inputs := inputs }) rfl rfl rfl rfl).1 inv_reset

theorem hardReset_keepsInv (s : State) : KeepsInv s s.hardReset :=
  ⟨fun ⟨hcap, _, _, _⟩ => ⟨hcap, wf_empty _, rfl,
    (resultOk_iff_of_not_success (show 0x00000000#32 ≠ statusSuccess by decide)).2 ⟨rfl, .inr rfl⟩⟩, rfl⟩

/-! ### The step -/

theorem serveTxn_keepsInv {x : Txn} {s t : State} (h : serveTxn x s = .next t) : KeepsInv s t := by
  obtain ⟨_, r, -, -, rfl⟩ | ⟨_, w, r, -, -, rfl⟩ | ⟨_, sp, i, -, -, rfl⟩ | ⟨off, v, sp, i, -, hat, rfl⟩ :=
    serveTxn_cases x s t h
  · exact readReg_keepsInv s r
  · exact writeReg_keepsInv s r w
  · exact readByte_keepsInv s sp i
  · exact writeByte_keepsInv s v (windowAt_lt s.cap off i sp hat).1

theorem serveAwait_keepsInv (s : State) : KeepsInv s (serveAwait s) := by
  unfold serveAwait
  split
  · exact (readReg_keepsInv s _).trans (prepend_keepsInv _ _)
  · exact readReg_keepsInv s _

theorem serveInput_keepsInv {item : Input} {s t : State} (h : serveInput item s = .next t) : KeepsInv s t := by
  obtain ⟨x, -, hx⟩ | ⟨-, rfl⟩ | ⟨-, rfl⟩ | ⟨-, rfl⟩ | ⟨n, -, rfl⟩ | ⟨-, rfl⟩ := serveInput_cases item s t h
  · exact serveTxn_keepsInv hx
  · exact serveAwait_keepsInv s
  · exact (readReg_keepsInv s .outLen).trans (prepend_keepsInv _ _)
  · exact (readReg_keepsInv s .outLen).trans (prepend_keepsInv _ _)
  · exact prepend_keepsInv s _
  · exact hardReset_keepsInv s

theorem completeCommand_keepsInv {s t : State} (h : completeCommand s = .next t) : KeepsInv s t := by
  obtain rfl : s.complete (launchedOutcome s) = t := by simpa [completeCommand_eq] using h
  obtain ⟨-, -, -, -, hcapr, -⟩ := complete_keepsOperands s (launchedOutcome s)
  exact ⟨fun hs => inv_complete hs (launchedOutcome_admissible s), hcapr⟩

theorem step_keepsInv {s t : State} (h : step s = .next t) : KeepsInv s t := by
  obtain ⟨-, hcore⟩ | ⟨-, -, rfl⟩ | ⟨-, item, rest, -, hhost⟩ := step_cases s t h
  · exact completeCommand_keepsInv hcore
  · exact .refl _
  · exact (takeInput_keepsInv s rest).trans (serveInput_keepsInv hhost)

/-- Settles O52, by what a step can do: the core's completion has an admissible outcome, and of the host's moves
only a launch and a reset touch OUT or STATUS. -/
theorem stepKeepsInvariant : Obligations.StepKeepsInvariant := fun _ _ hs hstep =>
  have ⟨hinv, hcapr⟩ := step_keepsInv hstep
  ⟨hinv hs, hcapr⟩

end Sys2Proof.Machine
end

section
/-! The address map (spec/20_memory.md R52): which offset is which register's, and which is which byte's of which
window. -/

namespace Sys2Proof.Machine

theorem regAt_regOffset (r : Reg) : regAt (regOffset r) = some r := by cases r <;> rfl

theorem regAt_eq_some_iff (off : Nat) (r : Reg) : regAt off = some r ↔ off = regOffset r := by
  refine ⟨fun h => ?_, fun h => h ▸ regAt_regOffset r⟩
  unfold regAt at h
  split at h <;> cases h <;> rfl

theorem regAt_isSome_iff (off : Nat) :
    (regAt off).isSome = true ↔ off ∈ [0x00, 0x04, 0x08, 0x0C, 0x10, 0x14, 0x18] := by
  rw [Option.isSome_iff_exists]
  constructor
  · rintro ⟨r, hr⟩
    obtain rfl := (regAt_eq_some_iff off r).1 hr
    cases r <;> decide
  · intro h
    simp only [List.mem_cons, List.not_mem_nil, or_false] at h
    obtain rfl | rfl | rfl | rfl | rfl | rfl | rfl := h <;> exact ⟨_, rfl⟩

theorem inWindow_iff (cap : Nat) (sp : Space) (off : Nat) : inWindow cap sp off = true ↔
    windowBase sp ≤ off ∧ off < windowBase sp + windowSize cap sp := by
  simp [inWindow]

/-- The offset of a byte of a window names that byte. OUT is looked up after IN, which overlaps it only if `CAP`
exceeds its range (R6). -/
theorem windowAt_windowBase_add {cap i : Nat} {sp : Space} (hi : i < windowSize cap sp)
    (hcap : sp = .out → cap ≤ 2 ^ 24) : windowAt cap (windowBase sp + i) = some (sp, i) := by
  have hin : inWindow cap sp (windowBase sp + i) = true := (inWindow_iff _ _ _).2 (by omega)
  have habove {sp' : Space} (h : windowBase sp' + windowSize cap sp' ≤ windowBase sp + i) :
      ¬ inWindow cap sp' (windowBase sp + i) = true := by
    rw [inWindow_iff]; omega
  unfold windowAt
  cases sp with
  | key => rw [if_pos hin, Nat.add_sub_cancel_left]
  | iv =>
    have hkey := habove (sp' := .key) (show 0x60 ≤ 0x60 + i by omega)
    rw [if_neg hkey, if_pos hin, Nat.add_sub_cancel_left]
  | inp =>
    have hkey := habove (sp' := .key) (show 0x60 ≤ 0x1000000 + i by omega)
    have hiv := habove (sp' := .iv) (show 0x70 ≤ 0x1000000 + i by omega)
    rw [if_neg hkey, if_neg hiv, if_pos hin, Nat.add_sub_cancel_left]
  | out =>
    have hle : cap ≤ 2 ^ 24 := hcap rfl
    have hkey := habove (sp' := .key) (show 0x60 ≤ 0x2000000 + i by omega)
    have hiv := habove (sp' := .iv) (show 0x70 ≤ 0x2000000 + i by omega)
    have hinp := habove (sp' := .inp) (show 0x1000000 + cap ≤ 0x2000000 + i by omega)
    rw [if_neg hkey, if_neg hiv, if_neg hinp, if_pos hin, Nat.add_sub_cancel_left]

theorem cap_le_of_capOk {cap : Nat} (h : capOk cap = true) : cap ≤ 2 ^ 24 := by
  simp only [capOk, Bool.and_eq_true, decide_eq_true_eq] at h
  exact h.2

theorem windowAt_isSome_iff_exists_inWindow (cap off : Nat) :
    (windowAt cap off).isSome = true ↔ ∃ sp, inWindow cap sp off = true := by
  constructor
  · intro h
    obtain ⟨⟨sp, i⟩, hat⟩ := Option.isSome_iff_exists.1 h
    obtain ⟨hi, rfl⟩ := windowAt_lt cap off i sp hat
    exact ⟨sp, (inWindow_iff _ _ _).2 (by omega)⟩
  · rintro ⟨sp, h⟩
    unfold windowAt
    split_ifs with hkey hiv hinp hout
    · rfl
    · rfl
    · rfl
    · rfl
    · cases sp with
      | key => exact absurd h hkey
      | iv => exact absurd h hiv
      | inp => exact absurd h hinp
      | out => exact absurd h hout

/-- The offsets of the bytes of the four windows; KEY and IV adjoin (R52). -/
theorem windowAt_isSome_iff (cap off : Nat) : (windowAt cap off).isSome = true ↔
    (0x40 ≤ off ∧ off < 0x70) ∨ (0x1000000 ≤ off ∧ off < 0x1000000 + cap) ∨
      (0x2000000 ≤ off ∧ off < 0x2000000 + cap) := by
  rw [windowAt_isSome_iff_exists_inWindow]
  constructor
  · rintro ⟨sp, h⟩
    rw [inWindow_iff] at h
    cases sp <;> simp only [windowBase, windowSize, Config.KEYBYTES, Config.IVBYTES] at h <;> omega
  · rintro (⟨hlo, hhi⟩ | h | h)
    · by_cases hkey : off < 0x60
      · exact ⟨.key, (inWindow_iff _ _ _).2 ⟨hlo, hkey⟩⟩
      · exact ⟨.iv, (inWindow_iff _ _ _).2 ⟨not_lt.1 hkey, hhi⟩⟩
    · exact ⟨.inp, (inWindow_iff _ _ _).2 h⟩
    · exact ⟨.out, (inWindow_iff _ _ _).2 h⟩

end Sys2Proof.Machine
end

section
/-! The host's transactions (spec/20_memory.md R53 to R59): one rule for each, then what an idle and a busy core
answer, what is refused, and how long a result stays. -/

namespace Sys2Proof.Machine

/-! ### Reads -/

theorem readReg_of_specified {s : State} {r : Reg} {w : Word} (h : s.specifiedWord r = some w) :
    s.readReg r = { s with replies := .word w :: s.replies } := by
  simp [State.readReg, State.reply, State.wordAt, h]

theorem readReg_of_unspecified {s : State} {r : Reg} (h : s.specifiedWord r = none) :
    s.readReg r = { s with replies := .word (s.wordAt r) :: s.replies, draws := s.draws + 1 } := by
  simp [State.readReg, State.reply, h]

theorem readByte_of_specified {s : State} {sp : Space} {i : Nat} {b : Byte}
    (h : s.specifiedByte sp i = some b) :
    s.readByte sp i = { s with replies := .byte b :: s.replies } := by
  simp [State.readByte, State.reply, State.byteAt, h]

theorem readByte_of_unspecified {s : State} {sp : Space} {i : Nat} (h : s.specifiedByte sp i = none) :
    s.readByte sp i = { s with replies := .byte (s.byteAt sp i) :: s.replies, draws := s.draws + 1 } := by
  simp [State.readByte, State.reply, h]

/-! ### Writes -/

theorem writeReg_of_busy {s : State} (hbusy : s.busy = true) (r : Reg) (w : Word) : s.writeReg r w = s := by
  simp [State.writeReg, hbusy]

theorem writeReg_of_idle {s : State} (hidle : s.busy = false) (r : Reg) (w : Word) :
    s.writeReg r w = s.writeRegIdle w r := by
  simp [State.writeReg, hidle]

theorem writeByte_of_busy {s : State} (hbusy : s.busy = true) (sp : Space) (i : Nat) (b : Byte) :
    s.writeByte sp i b = s := by
  simp [State.writeByte, hbusy]

theorem writeByte_of_idle {s : State} (hidle : s.busy = false) (sp : Space) (i : Nat) (b : Byte) :
    s.writeByte sp i b = s.writeByteIdle i b sp := by
  simp [State.writeByte, hidle]

theorem writeByteIdle_of_ne_out (s : State) {sp : Space} (i : Nat) (b : Byte) (hsp : sp ≠ .out) :
    s.writeByteIdle i b sp = { s with mem := s.mem.store sp i b } := by
  cases sp with
  | key | iv | inp => rfl
  | out => exact absurd rfl hsp

/-! ### What a store makes the rules give -/

/-- What the rules give of OUT reads only STATUS, `OUT_LEN` and OUT itself (R57). -/
theorem specifiedByte_out_congr (s t : State) (hstatus : t.status = s.status)
    (houtLen : t.outLen = s.outLen) (hout : t.mem.out = s.mem.out) (i : Nat) : t.specifiedByte .out i = s.specifiedByte .out i := by
  rw [specifiedByte_out, specifiedByte_out, State.busy, State.busy, State.err, State.err, hstatus, houtLen, hout]

theorem store_specifiedByte_same (s : State) {sp : Space} (i : Nat) (b : Byte) (hsp : sp ≠ .out) :
    State.specifiedByte { s with mem := s.mem.store sp i b } sp i = some b := by
  rw [specifiedByte_of_ne_out _ sp i hsp]
  exact read_store_same s.mem sp i b

theorem store_specifiedByte_other (s : State) {sp sp' : Space} {i j : Nat} (b : Byte) (hsp : sp ≠ .out)
    (hne : (sp', j) ≠ (sp, i)) :
    State.specifiedByte { s with mem := s.mem.store sp i b } sp' j = s.specifiedByte sp' j := by
  by_cases hspace : sp' = sp
  · subst hspace
    have hj : j ≠ i := fun h => hne (h ▸ rfl)
    rw [specifiedByte_of_ne_out _ sp' j hsp, specifiedByte_of_ne_out s sp' j hsp,
      lookup_store_other s.mem sp' i j b hj]
  · by_cases hout : sp' = .out
    · subst hout
      exact specifiedByte_out_congr s { s with mem := s.mem.store sp i b } rfl rfl
        (store_cells_other s.mem sp .out i b hspace) j
    · exact specifiedByte_congr s _ sp' j hout (store_cells_other s.mem sp sp' i b hspace)

/-! ### The four transactions -/

theorem serveTxn_rd32 (s : State) {off : Nat} {r : Reg} (h : regAt off = some r) :
    serveTxn (.rd32 off) s = .next (s.readReg r) := by
  simp [serveTxn, h]

theorem serveTxn_wr32 (s : State) {off : Nat} {r : Reg} (w : Word) (h : regAt off = some r) :
    serveTxn (.wr32 off w) s = .next (s.writeReg r w) := by
  simp [serveTxn, h]

theorem serveTxn_rd8 {s : State} {off : Nat} {sp : Space} {i : Nat} (h : windowAt s.cap off = some (sp, i)) :
    serveTxn (.rd8 off) s = .next (s.readByte sp i) := by
  simp [serveTxn, h]

theorem serveTxn_wr8 {s : State} {off : Nat} {sp : Space} {i : Nat} (v : Byte)
    (h : windowAt s.cap off = some (sp, i)) : serveTxn (.wr8 off v) s = .next (s.writeByte sp i v) := by
  simp [serveTxn, h]

theorem serveTxn_rd32_specified {s : State} (r : Reg) {w : Word} (h : s.specifiedWord r = some w) :
    serveTxn (.rd32 (regOffset r)) s = .next { s with replies := .word w :: s.replies } := by
  rw [serveTxn_rd32 s (regAt_regOffset r), readReg_of_specified h]

theorem serveTxn_wr32_idle {s : State} (hidle : s.busy = false) (r : Reg) (w : Word) :
    serveTxn (.wr32 (regOffset r) w) s = .next (s.writeRegIdle w r) := by
  rw [serveTxn_wr32 s w (regAt_regOffset r), writeReg_of_idle hidle]

theorem serveTxn_rd8_specified {s : State} {off : Nat} {sp : Space} {i : Nat} {b : Byte}
    (hat : windowAt s.cap off = some (sp, i)) (h : s.specifiedByte sp i = some b) :
    serveTxn (.rd8 off) s = .next { s with replies := .byte b :: s.replies } := by
  rw [serveTxn_rd8 hat, readByte_of_specified h]

theorem serveTxn_rd8_unspecified {s : State} {off : Nat} {sp : Space} {i : Nat}
    (hat : windowAt s.cap off = some (sp, i)) (h : s.specifiedByte sp i = none) :
    ∃ b, serveTxn (.rd8 off) s = .next { s with replies := .byte b :: s.replies, draws := s.draws + 1 } :=
  ⟨_, by rw [serveTxn_rd8 hat, readByte_of_unspecified h]⟩

/-- An idle core's byte write to KEY, IV or IN: the byte reads back, and nothing else changes (R55, R56). -/
theorem serveTxn_wr8_idle {s : State} {off : Nat} {sp : Space} {i : Nat} (v : Byte) (hidle : s.busy = false)
    (hsp : sp ≠ .out) (hat : windowAt s.cap off = some (sp, i)) :
    ∃ t, serveTxn (.wr8 off v) s = .next t ∧ t = { s with mem := t.mem } ∧
      t.specifiedByte sp i = some v ∧
      ∀ sp' j, (sp', j) ≠ (sp, i) → t.specifiedByte sp' j = s.specifiedByte sp' j := by
  refine ⟨{ s with mem := s.mem.store sp i v }, ?_, rfl, store_specifiedByte_same s i v hsp,
    fun sp' j hne => store_specifiedByte_other s v hsp hne⟩
  rw [serveTxn_wr8 v hat, writeByte_of_idle hidle, writeByteIdle_of_ne_out s i v hsp]

/-! ### An idle core -/

/-- Settles O8: with `BUSY` = 0 the rules give every register's value, and each write is `writeRegIdle`'s. -/
theorem idleRegisterTransactions : Obligations.IdleRegisterTransactions := by
  intro s w hidle
  have houtLen : s.specifiedWord .outLen = some s.outLen := by simp [State.specifiedWord, hidle]
  exact ⟨serveTxn_rd32_specified .cmd rfl, serveTxn_rd32_specified .status rfl,
    serveTxn_rd32_specified .inLen rfl, serveTxn_rd32_specified .outLen houtLen,
    serveTxn_rd32_specified .keyLen rfl, serveTxn_rd32_specified .ivLen rfl,
    serveTxn_rd32_specified .capr rfl,
    serveTxn_wr32_idle hidle .cmd w, serveTxn_wr32_idle hidle .status w, serveTxn_wr32_idle hidle .inLen w,
    serveTxn_wr32_idle hidle .outLen w, serveTxn_wr32_idle hidle .keyLen w,
    serveTxn_wr32_idle hidle .ivLen w, serveTxn_wr32_idle hidle .capr w⟩

theorem exists_specifiedByte_iv (s : State) (i : Nat) : ∃ b, s.specifiedByte .iv i = some b := by
  rw [specifiedByte_of_ne_out s .iv i (by decide), ← Option.isSome_iff_exists, Option.isSome_or]
  exact Bool.or_true _

/-- Settles O9: both windows are looked up before the others, and every byte of IV is specified. -/
theorem keyIvWindowTransactions : Obligations.KeyIvWindowTransactions := by
  refine fun s i v hidle => ⟨fun hi => ?key, fun hi => ?iv⟩
  case key =>
    have hat : windowAt s.cap (0x40 + i) = some (.key, i) := windowAt_windowBase_add (sp := .key) hi nofun
    exact ⟨serveTxn_wr8_idle v hidle (by decide) hat, fun b => serveTxn_rd8_specified hat,
      serveTxn_rd8_unspecified hat⟩
  case iv =>
    have hat : windowAt s.cap (0x60 + i) = some (.iv, i) := windowAt_windowBase_add (sp := .iv) hi nofun
    obtain ⟨b, hb⟩ := exists_specifiedByte_iv s i
    exact ⟨serveTxn_wr8_idle v hidle (by decide) hat, b, hb, serveTxn_rd8_specified hat hb⟩

/-- Settles O10: IN is looked up before OUT, so no bound on `CAP` is needed. -/
theorem inWindowTransactions : Obligations.InWindowTransactions := by
  intro s i v hidle hi
  have hat : windowAt s.cap (0x1000000 + i) = some (.inp, i) := windowAt_windowBase_add (sp := .inp) hi nofun
  exact ⟨serveTxn_wr8_idle v hidle (by decide) hat, fun b => serveTxn_rd8_specified hat,
    serveTxn_rd8_unspecified hat⟩

/-! ### The OUT window -/

theorem exists_cellsLookup_of_mem {i : Nat} {l : List Host.Cell} (h : i ∈ l.map Prod.fst) :
    ∃ b, cellsLookup i l = some b := by
  induction l with
  | nil => exact absurd h List.not_mem_nil
  | cons c rest ih =>
    obtain ⟨j, b⟩ := c
    by_cases hij : i = j
    · exact ⟨b, by simp [cellsLookup, hij]⟩
    · simpa [cellsLookup, hij] using ih (by simpa [hij] using h)

theorem mem_of_cellsLookup {i : Nat} {b : Byte} {l : List Host.Cell} (h : cellsLookup i l = some b) :
    (i, b) ∈ l := by
  induction l with
  | nil => exact absurd h nofun
  | cons c rest ih =>
    obtain ⟨j, d⟩ := c
    by_cases hij : i = j
    · obtain rfl : d = b := by simpa [cellsLookup, hij] using h
      simp [hij]
    · exact List.mem_cons_of_mem _ (ih (by simpa [cellsLookup, hij] using h))

/-- A result byte below `OUT_LEN` can only be that of a success: after a reset or a failure `OUT_LEN` is 0. -/
theorem exists_result_byte {s : State} {i : Nat} (hs : s.Inv) (hidle : s.busy = false)
    (hi : i < s.outLen.toNat) : ∃ b, cellsLookup i s.mem.out = some b := by
  obtain ⟨-, -, -, hresult⟩ := hs
  by_cases hst : s.status = statusSuccess
  · obtain ⟨hlisted, -⟩ := (resultOk_iff_of_success hst).1 hresult
    exact exists_cellsLookup_of_mem (hlisted ▸ List.mem_range.2 hi)
  · obtain ⟨-, hlen⟩ := (resultOk_iff_of_not_success hst).1 hresult
    have hzero : s.outLen = 0#32 := hlen.resolve_left (by simp [hidle])
    simp [hzero] at hi

/-- With `BUSY` = 0 the rules give a byte of OUT below `OUT_LEN` when `ERR` = 0, and no other (R57). -/
theorem specifiedByte_out_of_idle {s : State} (hidle : s.busy = false) (i : Nat) :
    s.specifiedByte .out i =
      if i < s.outLen.toNat ∧ s.err = false then cellsLookup i s.mem.out else none := by
  rw [specifiedByte_out, hidle]
  by_cases hi : i < s.outLen.toNat
  · cases s.err <;> simp [hi]
  · simp [hi]

/-- Settles O11: under the invariant OUT lies above IN in the map, and a result's bytes are listed. -/
theorem outWindowTransactions : Obligations.OutWindowTransactions := by
  intro s i v hs hidle hi
  have hat : windowAt s.cap (0x2000000 + i) = some (.out, i) :=
    windowAt_windowBase_add (sp := .out) hi fun _ => cap_le_of_capOk hs.1
  refine ⟨?write, fun hin => ?result, fun hnot => ?unspecified⟩
  case write =>
    rw [serveTxn_wr8 v hat, writeByte_of_idle hidle]
    rfl
  case result =>
    obtain ⟨b, hb⟩ := exists_result_byte hs hidle hin.1
    have hspec : s.specifiedByte .out i = some b := by
      rw [specifiedByte_out_of_idle hidle, if_pos hin, hb]
    exact ⟨b, mem_of_cellsLookup hb, hspec, serveTxn_rd8_specified hat hspec⟩
  case unspecified =>
    have hspec : s.specifiedByte .out i = none := by
      rw [specifiedByte_out_of_idle hidle, if_neg hnot]
    exact ⟨hspec, serveTxn_rd8_unspecified hat hspec⟩

/-! ### What is admitted and what is refused -/

theorem serveTxn_next_iff_admitted (x : Txn) (s : State) :
    (∃ t, serveTxn x s = .next t) ↔ x.admitted s.cap = true := by
  constructor
  · rintro ⟨t, ht⟩
    obtain ⟨off, r, rfl, hr, -⟩ | ⟨off, w, r, rfl, hr, -⟩ | ⟨off, sp, i, rfl, hat, -⟩ |
      ⟨off, v, sp, i, rfl, hat, -⟩ := serveTxn_cases x s t ht
    · simp [Txn.admitted, hr]
    · simp [Txn.admitted, hr]
    · simp [Txn.admitted, hat]
    · simp [Txn.admitted, hat]
  · intro h
    cases x with
    | rd32 off =>
      obtain ⟨r, hr⟩ := Option.isSome_iff_exists.1 h
      exact ⟨_, serveTxn_rd32 s hr⟩
    | wr32 off w =>
      obtain ⟨r, hr⟩ := Option.isSome_iff_exists.1 h
      exact ⟨_, serveTxn_wr32 s w hr⟩
    | rd8 off =>
      obtain ⟨⟨sp, i⟩, hat⟩ := Option.isSome_iff_exists.1 h
      exact ⟨_, serveTxn_rd8 hat⟩
    | wr8 off v =>
      obtain ⟨⟨sp, i⟩, hat⟩ := Option.isSome_iff_exists.1 h
      exact ⟨_, serveTxn_wr8 v hat⟩
    | otherWidth bits off => exact absurd h Bool.false_ne_true

/-- The core has no fault (R236), so a transaction goes on or is refused. -/
theorem serveTxn_refused_of_not_next {x : Txn} {s : State} (h : ¬ ∃ t, serveTxn x s = .next t) :
    ∃ r, serveTxn x s = .refused r := by
  cases hx : serveTxn x s with
  | next t => exact absurd ⟨t, hx⟩ h
  | fault f => exact (no_fault f).elim
  | refused r => exact ⟨r, rfl⟩

/-- Settles O12: exactly the admitted transactions go on, and the map says which offsets those have. -/
theorem notAdmittedIsRefused : Obligations.NotAdmittedIsRefused := by
  intro s off bits w v _
  have hword := regAt_isSome_iff off
  have hbyte := windowAt_isSome_iff s.cap off
  exact ⟨(serveTxn_next_iff_admitted (.rd32 off) s).trans hword,
    (serveTxn_next_iff_admitted (.wr32 off w) s).trans hword,
    (serveTxn_next_iff_admitted (.rd8 off) s).trans hbyte,
    (serveTxn_next_iff_admitted (.wr8 off v) s).trans hbyte,
    fun h => Bool.false_ne_true ((serveTxn_next_iff_admitted (.otherWidth bits off) s).1 h),
    fun _ => serveTxn_refused_of_not_next⟩

/-! ### A busy core -/

/-- Of the values that STATUS takes only that of a launch has `BUSY` = 1 (R31). -/
theorem status_of_busy {s : State} (hs : s.Inv) (hbusy : s.busy = true) : s.status = statusBusy := by
  obtain ⟨-, -, hlegal, -⟩ := hs
  obtain hst | hst | hst | ⟨c, -, hst⟩ := (legalStatus_iff _).1 hlegal
  case inr.inl => exact hst
  all_goals simp [State.busy, hst, show busyBit 0x00000000#32 = false by decide] at hbusy

theorem serveTxn_wr32_busy {s : State} {off : Nat} (hbusy : s.busy = true) (w : Word)
    (h : (Txn.wr32 off w).admitted s.cap = true) : serveTxn (.wr32 off w) s = .next s := by
  obtain ⟨r, hr⟩ := Option.isSome_iff_exists.1 h
  rw [serveTxn_wr32 s w hr, writeReg_of_busy hbusy]

theorem serveTxn_wr8_busy {s : State} {off : Nat} (hbusy : s.busy = true) (v : Byte)
    (h : (Txn.wr8 off v).admitted s.cap = true) : serveTxn (.wr8 off v) s = .next s := by
  obtain ⟨⟨sp, i⟩, hat⟩ := Option.isSome_iff_exists.1 h
  rw [serveTxn_wr8 v hat, writeByte_of_busy hbusy]

theorem specifiedByte_out_of_busy {s : State} (hbusy : s.busy = true) (i : Nat) :
    s.specifiedByte .out i = none := by
  simp [specifiedByte_out, hbusy]

/-- Settles O13: an admitted write is dropped, and the rules give every value but `OUT_LEN` and OUT. -/
theorem busyTransactions : Obligations.BusyTransactions := by
  intro s hs hbusy
  have hat {sp : Space} {i : Nat} (hi : i < windowSize s.cap sp) :
      windowAt s.cap (windowBase sp + i) = some (sp, i) :=
    windowAt_windowBase_add hi fun _ => cap_le_of_capOk hs.1
  have hstatus : s.specifiedWord .status = some 0x00000001#32 := congrArg some (status_of_busy hs hbusy)
  have houtLen : s.specifiedWord .outLen = none := by simp [State.specifiedWord, hbusy]
  refine ⟨fun off w => serveTxn_wr32_busy hbusy w, fun off v => serveTxn_wr8_busy hbusy v,
    serveTxn_rd32_specified .status hstatus, serveTxn_rd32_specified .inLen rfl,
    serveTxn_rd32_specified .keyLen rfl, serveTxn_rd32_specified .ivLen rfl, serveTxn_rd32_specified .capr rfl,
    serveTxn_rd32_specified .cmd rfl, fun sp i b _ hi hb => serveTxn_rd8_specified (hat hi) hb,
    ⟨houtLen, s.wordAt .outLen, ?_⟩, fun i hi => ?_⟩
  · rw [serveTxn_rd32 s (show regAt 0x0C = some .outLen from rfl), readReg_of_unspecified houtLen]
  · have hspec := specifiedByte_out_of_busy hbusy i
    exact ⟨hspec, serveTxn_rd8_unspecified (hat (sp := .out) hi) hspec⟩

/-! ### A result stays -/

/-- The move from `s` to `t` leaves the outcome of the last command: STATUS, `OUT_LEN`, OUT and the word that was
launched (R65, R268). -/
structure KeepsResult (s t : State) : Prop where
  status : t.status = s.status
  outLen : t.outLen = s.outLen
  cmdr : t.cmdr = s.cmdr
  out : t.mem.out = s.mem.out

theorem KeepsResult.refl (s : State) : KeepsResult s s := ⟨rfl, rfl, rfl, rfl⟩

theorem KeepsResult.trans {s t u : State} (hst : KeepsResult s t) (htu : KeepsResult t u) : KeepsResult s u :=
  ⟨htu.status.trans hst.status, htu.outLen.trans hst.outLen, htu.cmdr.trans hst.cmdr, htu.out.trans hst.out⟩

theorem readReg_keepsResult (s : State) (r : Reg) : KeepsResult s (s.readReg r) := ⟨rfl, rfl, rfl, rfl⟩

theorem readByte_keepsResult (s : State) (sp : Space) (i : Nat) : KeepsResult s (s.readByte sp i) :=
  ⟨rfl, rfl, rfl, rfl⟩

theorem prepend_keepsResult (s : State) (l : List Input) : KeepsResult s (s.prepend l) := ⟨rfl, rfl, rfl, rfl⟩

theorem takeInput_keepsResult (s : State) (l : List Input) : KeepsResult s (s.takeInput l) :=
  ⟨rfl, rfl, rfl, rfl⟩

theorem KeepsResult.specifiedByte_out {s t : State} (h : KeepsResult s t) (i : Nat) :
    t.specifiedByte .out i = s.specifiedByte .out i :=
  specifiedByte_out_congr s t h.status h.outLen h.out i

theorem writeRegIdle_keepsResult (s : State) (w : Word) :
    ∀ {r : Reg}, r ≠ .cmd → KeepsResult s (s.writeRegIdle w r)
  | .cmd, hr => absurd rfl hr
  | .inLen, _ | .keyLen, _ | .ivLen, _ => ⟨rfl, rfl, rfl, rfl⟩
  | .status, _ | .outLen, _ | .capr, _ => .refl s

theorem writeReg_keepsResult (s : State) {r : Reg} (w : Word) (hr : r ≠ .cmd) :
    KeepsResult s (s.writeReg r w) := by
  unfold State.writeReg
  split
  · exact .refl s
  · exact writeRegIdle_keepsResult s w hr

theorem writeByte_keepsResult (s : State) (sp : Space) (i : Nat) (b : Byte) :
    KeepsResult s (s.writeByte sp i b) := by
  unfold State.writeByte
  split
  · exact .refl s
  · by_cases hsp : sp = .out
    · subst hsp; exact .refl s
    · rw [writeByteIdle_of_ne_out s i b hsp]
      exact ⟨rfl, rfl, rfl, store_cells_other s.mem sp .out i b (Ne.symm hsp)⟩

theorem serveTxn_keepsResult {x : Txn} {s t : State} (hlaunch : ∀ w, x ≠ .wr32 0x00 w)
    (h : serveTxn x s = .next t) : KeepsResult s t := by
  obtain ⟨_, r, -, -, rfl⟩ | ⟨off, w, r, hx, hr, rfl⟩ | ⟨_, sp, i, -, -, rfl⟩ | ⟨_, v, sp, i, -, -, rfl⟩ :=
    serveTxn_cases x s t h
  · exact readReg_keepsResult s r
  · have hne : r ≠ .cmd := by
      rintro rfl
      obtain rfl := (regAt_eq_some_iff off .cmd).1 hr
      exact hlaunch w hx
    exact writeReg_keepsResult s w hne
  · exact readByte_keepsResult s sp i
  · exact writeByte_keepsResult s sp i v

theorem serveAwait_keepsResult (s : State) : KeepsResult s (serveAwait s) := by
  unfold serveAwait
  split
  · exact (readReg_keepsResult s .status).trans (prepend_keepsResult _ _)
  · exact readReg_keepsResult s .status

theorem serveInput_keepsResult {item : Input} {s t : State} (hreset : item ≠ .reset)
    (hlaunch : ∀ w, item ≠ .txn (.wr32 0x00 w)) (h : serveInput item s = .next t) : KeepsResult s t := by
  obtain ⟨x, rfl, hx⟩ | ⟨-, rfl⟩ | ⟨-, rfl⟩ | ⟨-, rfl⟩ | ⟨n, -, rfl⟩ | ⟨hitem, -⟩ := serveInput_cases item s t h
  · exact serveTxn_keepsResult (fun w hw => hlaunch w (hw ▸ rfl)) hx
  · exact serveAwait_keepsResult s
  · exact (readReg_keepsResult s .outLen).trans (prepend_keepsResult _ _)
  · exact (readReg_keepsResult s .outLen).trans (prepend_keepsResult _ _)
  · exact prepend_keepsResult s _
  · exact absurd hitem hreset

/-- Settles O57: the step of an idle core serves the host's input, and of those only a launch and a reset touch the
result. -/
theorem resultStaysUntilLaunch : Obligations.ResultStaysUntilLaunch := by
  intro s t item rest hidle hin hreset hlaunch hstep
  rw [step_of_stalled_cons (coreMoves_eq_false_of_idle hidle) hin] at hstep
  have hkeeps : KeepsResult s t :=
    (takeInput_keepsResult s rest).trans (serveInput_keepsResult hreset hlaunch hstep)
  exact ⟨hkeeps.status, hkeeps.outLen, hkeeps.cmdr, hkeeps.specifiedByte_out⟩

end Sys2Proof.Machine
end

section
/-! Decoding and encoding of the command word (spec/30_encoding.md R80 to R83, R90): a word is read as a command
exactly when it is that command's encoding. -/

namespace Sys2Proof.Machine

/-! ### The fields of a word -/

theorem toNat_opcField (w : Word) : (opcField w).toNat = w.toNat % 256 := by
  simp [opcField, BitVec.extractLsb'_toNat]

theorem toNat_zeroField (w : Word) : (zeroField w).toNat = w.toNat / 256 := by
  have hlt : w.toNat / 256 < 2 ^ 24 := by have := w.isLt; omega
  rw [zeroField, BitVec.extractLsb'_toNat, Nat.shiftRight_eq_div_pow]
  exact Nat.mod_eq_of_lt hlt

theorem zeroField_eq_zero_iff (w : Word) : zeroField w = 0#24 ↔ w.toNat / 256 = 0 := by
  rw [← toNat_zeroField, ← BitVec.toNat_inj]
  rfl

/-- The two fields make up the whole word (R80). -/
theorem word_eq_of_fields {w w' : Word} (hzero : zeroField w = zeroField w') (hopc : opcField w = opcField w') :
    w = w' := by
  have hhigh : w.toNat / 256 = w'.toNat / 256 := by rw [← toNat_zeroField, hzero, toNat_zeroField]
  have hlow : w.toNat % 256 = w'.toNat % 256 := by rw [← toNat_opcField, hopc, toNat_opcField]
  exact BitVec.eq_of_toNat_eq (by omega)

/-! ### The opcode map -/

theorem decodeOpcode_opcode (i : Instr) : decodeOpcode (opcode i) = some i := by cases i <;> rfl

theorem decodeOpcode_eq_some_iff (opc : Byte) (i : Instr) : decodeOpcode opc = some i ↔ opc = opcode i := by
  refine ⟨fun h => BitVec.eq_of_toNat_eq ?_, fun h => h ▸ decodeOpcode_opcode i⟩
  unfold decodeOpcode at h
  split at h
  case h_11 => cases h
  all_goals
    next hopc =>
      obtain rfl := Option.some.inj h
      exact hopc

theorem decodeOpcode_isSome_iff (opc : Byte) :
    (decodeOpcode opc).isSome = true ↔ 1 ≤ opc.toNat ∧ opc.toNat ≤ 10 := by
  constructor
  · intro h
    obtain ⟨i, hi⟩ := Option.isSome_iff_exists.1 h
    obtain rfl := (decodeOpcode_eq_some_iff opc i).1 hi
    cases i <;> decide
  · rintro ⟨hlo, hhi⟩
    unfold decodeOpcode
    interval_cases opc.toNat <;> rfl

/-! ### The word of a command -/

theorem wf_eq_true (i : Instr) : i.wf = true := by cases i <;> rfl

theorem encodedFields : ∀ i : Instr, Sys2Proof.Laws.EncodedFields.Statement i
  | .hexenc => Sys2Proof.Laws.EncodedFields.hexenc
  | .hexdec => Sys2Proof.Laws.EncodedFields.hexdec
  | .pad => Sys2Proof.Laws.EncodedFields.pad
  | .unpad => Sys2Proof.Laws.EncodedFields.unpad
  | .ciphenc => Sys2Proof.Laws.EncodedFields.ciphenc
  | .ciphdec => Sys2Proof.Laws.EncodedFields.ciphdec
  | .encrypt => Sys2Proof.Laws.EncodedFields.encrypt
  | .decrypt => Sys2Proof.Laws.EncodedFields.decrypt
  | .encryptx => Sys2Proof.Laws.EncodedFields.encryptx
  | .decryptx => Sys2Proof.Laws.EncodedFields.decryptx

theorem eq_encode_iff (w : Word) (i : Instr) : w = encode i ↔ zeroField w = 0#24 ∧ opcField w = opcode i := by
  obtain ⟨hzero, hopc, -⟩ := encodedFields i (wf_eq_true i)
  refine ⟨fun h => h ▸ ⟨hzero, hopc⟩, fun ⟨hz, ho⟩ => ?_⟩
  exact word_eq_of_fields (hz.trans hzero.symm) (ho.trans hopc.symm)

/-! ### Decoding -/

theorem decode_eq_ok_iff (w : Word) (i : Instr) : decode w = .ok i ↔ w = encode i := by
  rw [eq_encode_iff, ← decodeOpcode_eq_some_iff, decode]
  by_cases hzero : zeroField w = 0#24
  · cases hopc : decodeOpcode (opcField w) <;> simp [hzero]
  · simp [hzero]

theorem wordOk_iff (w : Word) :
    wordOk w = true ↔ w.toNat / 256 = 0 ∧ 1 ≤ w.toNat % 256 ∧ w.toNat % 256 ≤ 10 := by
  simp [wordOk, zeroFieldOk, opcodeOk]

/-- The legal words are the ten encodings (R90). -/
theorem exists_eq_encode_iff (w : Word) : (∃ i, w = encode i) ↔ wordOk w = true := by
  rw [wordOk_iff, ← zeroField_eq_zero_iff, ← toNat_opcField, ← decodeOpcode_isSome_iff,
    Option.isSome_iff_exists]
  simp only [eq_encode_iff, decodeOpcode_eq_some_iff, exists_and_left]

/-- Settles O4: both directions are `decode_eq_ok_iff`, since the two fields make up the word and the opcode map is
one to one. -/
theorem decodeEncodeAgree : Obligations.DecodeEncodeAgree :=
  ⟨fun i _ => (decode_eq_ok_iff _ i).2 rfl, fun w i => (decode_eq_ok_iff w i).1, exists_eq_encode_iff⟩

theorem exists_decode_ok_iff (w : Word) : (∃ i, decode w = .ok i) ↔ wordOk w = true := by
  simp only [decode_eq_ok_iff, exists_eq_encode_iff]

theorem exists_decode_error_iff (w : Word) : (∃ e, decode w = .error e) ↔ wordOk w = false := by
  rw [← Bool.not_eq_true, ← exists_decode_ok_iff]
  cases decode w <;> simp

/-- The illegal words, clause by clause (R90). -/
theorem exists_decode_error_iff_fields (w : Word) : (∃ e, decode w = .error e) ↔
    (w.toNat % 256 = 0x00 ∨ 0x0B ≤ w.toNat % 256 ∨ w.toNat / 256 ≠ 0) := by
  rw [exists_decode_error_iff, ← Bool.not_eq_true, wordOk_iff]
  omega

/-- A word with `ZERO` = 0 and the opcode of a command decodes to it (R83). -/
theorem decode_of_fields {w : Word} (i : Instr) (hzero : w.toNat / 256 = 0)
    (hopc : w.toNat % 256 = (opcode i).toNat) : decode w = .ok i :=
  (decode_eq_ok_iff w i).2 <| (eq_encode_iff w i).2
    ⟨(zeroField_eq_zero_iff w).2 hzero, BitVec.eq_of_toNat_eq ((toNat_opcField w).trans hopc)⟩

/-- Settles O3: the ten opcodes by `decode_of_fields`, every other word by which words are illegal. -/
theorem decodeFollowsTheRule : Obligations.DecodeFollowsTheRule := by
  refine fun w => ⟨fun hhigh => (exists_decode_error_iff_fields w).2 (.inr (.inr hhigh)), fun hzero => ?_⟩
  exact ⟨decode_of_fields .hexenc hzero, decode_of_fields .hexdec hzero, decode_of_fields .pad hzero,
    decode_of_fields .unpad hzero, decode_of_fields .ciphenc hzero, decode_of_fields .ciphdec hzero,
    decode_of_fields .encrypt hzero, decode_of_fields .decrypt hzero, decode_of_fields .encryptx hzero,
    decode_of_fields .decryptx hzero,
    fun hopc => (exists_decode_error_iff_fields w).2 (hopc.imp_right .inl)⟩

/-- Settles O5: each word is the encoding of its command. -/
theorem opcodeMapWords : Obligations.OpcodeMapWords :=
  have hmap (i : Instr) : decode (encode i) = .ok i := (decode_eq_ok_iff _ i).2 rfl
  ⟨hmap .hexenc, hmap .hexdec, hmap .pad, hmap .unpad, hmap .ciphenc, hmap .ciphdec, hmap .encrypt,
    hmap .decrypt, hmap .encryptx, hmap .decryptx⟩

end Sys2Proof.Machine
end

section
/-! Launch and completion of a command word (spec/30_encoding.md R84, R86, R89, R90): what a launch leaves, and how
the word in flight completes, legal or not. -/

namespace Sys2Proof.Machine

/-! ### Launch -/

theorem serveTxn_launch {s : State} (hidle : s.busy = false) (w : Word) :
    serveTxn (.wr32 0x00 w) s = .next (s.launch w) :=
  serveTxn_wr32_idle hidle .cmd w

theorem specifiedWord_outLen_of_busy {s : State} (hbusy : s.busy = true) : s.specifiedWord .outLen = none := by
  simp [State.specifiedWord, hbusy]

theorem specifiedWord_outLen_of_idle {s : State} (hidle : s.busy = false) :
    s.specifiedWord .outLen = some s.outLen := by
  simp [State.specifiedWord, hidle]

theorem ecodeField_statusBusy : ecodeField statusBusy = 0x00#8 := by decide

/-- Settles O7: the transaction is `launch`, which leaves STATUS at 0x00000001 and drops OUT. -/
theorem launchEffect : Obligations.LaunchEffect := by
  intro s w hidle
  have hbusy : (s.launch w).busy = true := launch_busy s w
  refine ⟨s.launch w, serveTxn_launch hidle w, rfl, rfl, hbusy, doneBit_statusBusy, errBit_statusBusy,
    ecodeField_statusBusy, specifiedWord_outLen_of_busy hbusy, specifiedByte_out_of_busy hbusy, rfl, rfl, rfl,
    rfl, rfl, rfl, fun sp i hsp => ?_⟩
  rw [launch_specifiedByte, if_neg hsp]

/-! ### The core's step -/

theorem coreMoves_eq_true_of_busy {s : State} (hbusy : s.busy = true)
    (hready : s.latency = 0 ∨ s.inputs = []) : coreMoves s = true := by
  simpa [coreMoves, hbusy] using hready

theorem step_of_coreMoves {s : State} (hcore : coreMoves s = true) : step s = completeCommand s := by
  simp [step, hcore]

theorem completeCommand_of_decode_ok {s : State} {i : Instr} (h : decode s.cmdr = .ok i) :
    completeCommand s = exec i s := by
  simp [completeCommand, h]

theorem completeCommand_of_decode_error {s : State} {e : DecodeError} (h : decode s.cmdr = .error e) :
    completeCommand s = completeIllegal s := by
  simp [completeCommand, h]

theorem failWith_fails (s : State) (c : ECode) : Fails s (s.failWith c) c :=
  ⟨rfl, rfl, fun i => failWith_specifiedByte s c .out i, failWith_keepsOperands s c⟩

/-- Settles O1: when the core moves, the step is the completion of the word in flight. -/
theorem stepRunsDecodedCommand : Obligations.StepRunsDecodedCommand := by
  refine ⟨fun s i hbusy hready hok => ⟨wf_eq_true i, ?legal⟩, fun s e hbusy hready herr => ?illegal⟩
  case legal =>
    rw [step_of_coreMoves (coreMoves_eq_true_of_busy hbusy hready), completeCommand_of_decode_ok hok]
  case illegal =>
    have hstep : step s = completeIllegal s := by
      rw [step_of_coreMoves (coreMoves_eq_true_of_busy hbusy hready), completeCommand_of_decode_error herr]
    exact ⟨hstep, s.failWith .illegalCmd, hstep, failWith_fails s .illegalCmd, rfl⟩

/-! ### The illegal words -/

/-- Of the numbers of the words, those of the ten legal ones are 1 to 10 (R81, R90). -/
theorem isOk_decode_ofNat_iff {n : Nat} (hn : n < 2 ^ 32) :
    (decode (BitVec.ofNat 32 n)).isOk = false ↔ n ∉ Finset.Icc 1 10 := by
  have hnat : (BitVec.ofNat 32 n).toNat = n := by rw [BitVec.toNat_ofNat, Nat.mod_eq_of_lt hn]
  have hillegal := exists_decode_error_iff_fields (BitVec.ofNat 32 n)
  rw [hnat] at hillegal
  have hisOk : (decode (BitVec.ofNat 32 n)).isOk = false ↔ ∃ e, decode (BitVec.ofNat 32 n) = .error e := by
    cases decode (BitVec.ofNat 32 n) <;> simp [Except.isOk, Except.toBool]
  rw [hisOk, hillegal, Finset.mem_Icc]
  omega

theorem card_illegal_words :
    ((Finset.range (2 ^ 32)).filter (fun n => (decode (BitVec.ofNat 32 n)).isOk = false)).card = 4294967286 := by
  have hset : (Finset.range (2 ^ 32)).filter (fun n => (decode (BitVec.ofNat 32 n)).isOk = false) =
      Finset.range (2 ^ 32) \ Finset.Icc 1 10 := by
    ext n
    rw [Finset.mem_filter, Finset.mem_sdiff]
    exact and_congr_right fun hn => isOk_decode_ofNat_iff (Finset.mem_range.1 hn)
  have hsub : Finset.Icc 1 10 ⊆ Finset.range (2 ^ 32) := fun n hn => by
    rw [Finset.mem_Icc] at hn
    rw [Finset.mem_range]
    omega
  rw [hset, Finset.card_sdiff_of_subset hsub, Finset.card_range, Nat.card_Icc]
  rfl

/-- Settles O6: the clauses on the words come from `wordOk`, and a launch leaves the word in CMDR, whose completion
is then the failure `E_ILLEGAL_CMD`. -/
theorem illegalWordFails : Obligations.IllegalWordFails := by
  refine ⟨exists_decode_error_iff_fields, card_illegal_words, fun s w e hidle herr => ?_⟩
  have herr' : decode (s.launch w).cmdr = .error e := herr
  exact ⟨s.launch w, serveTxn_launch hidle w, rfl, rfl, (s.launch w).failWith .illegalCmd,
    completeCommand_of_decode_error herr', failWith_fails _ _, rfl⟩

end Sys2Proof.Machine
end

section
/-! A command in flight completes (spec/30_encoding.md R86, R93, spec/70_reset_and_hazards.md R275): each step of the
host uses up one of the host steps drawn at the launch, and then the core moves. -/

namespace Sys2Proof.Machine

/-! ### Runs -/

theorem step_of_idle {s : State} {item : Input} {rest : List Input} (hidle : s.busy = false)
    (hin : s.inputs = item :: rest) : step s = serveInput item { s with inputs := rest } := by
  rw [step_of_stalled_cons (coreMoves_eq_false_of_idle hidle) hin, takeInput_of_idle hidle]

/-- `n` steps lead from `s` to `t`. -/
def Steps (n : Nat) (s t : State) : Prop := Sys2Proof.core.run n s = .next t

theorem Steps.refl (s : State) : Steps 0 s s := rfl

theorem steps_succ_iff {n : Nat} {s u : State} : Steps (n + 1) s u ↔ ∃ t, step s = .next t ∧ Steps n t u := by
  have hstep : Sys2Proof.core.step s = step s := rfl
  simp only [Steps, Host.Core.run, hstep]
  cases step s with
  | next t => exact ⟨fun h => ⟨t, rfl, h⟩, fun ⟨_, ht, h⟩ => Host.Outcome.next.inj ht ▸ h⟩
  | fault f => exact (no_fault f).elim
  | refused r => exact ⟨nofun, fun ⟨_, ht, _⟩ => nomatch ht⟩

theorem Steps.head {n : Nat} {s t u : State} (h : step s = .next t) (htu : Steps n t u) : Steps (n + 1) s u :=
  steps_succ_iff.2 ⟨t, h, htu⟩

theorem Steps.single {s t : State} (h : step s = .next t) : Steps 1 s t := .head h (.refl t)

theorem Steps.trans {m n : Nat} {s t u : State} (hst : Steps m s t) (htu : Steps n t u) : Steps (m + n) s u := by
  induction m generalizing s with
  | zero =>
    obtain rfl : s = t := Host.Outcome.next.inj hst
    rwa [Nat.zero_add]
  | succ m ih =>
    obtain ⟨v, hstep, hvt⟩ := steps_succ_iff.1 hst
    rw [Nat.add_right_comm]
    exact .head hstep (ih hvt)

/-! ### The completion of the command in flight -/

/-- The command in flight in `s` has completed in `t`, with `rest` left of the host's inputs. -/
structure Completed (s t : State) (rest : List Input) : Prop where
  busy : t.busy = false
  done : t.done = true
  cmdr : t.cmdr = s.cmdr
  inputs : t.inputs = rest

theorem complete_completed (s : State) : ∀ o : Except ECode Bytes, Completed s (s.complete o) s.inputs
  | .ok r => ⟨succeedWith_busy s r, doneBit_statusSuccess, rfl, rfl⟩
  | .error c => ⟨failWith_busy s c, doneBit_statusFailure c, rfl, rfl⟩

/-- Once the drawn host steps have passed, or with no input left, one step completes the command (R86). -/
theorem exists_step_completed {s : State} (hbusy : s.busy = true) (hready : s.latency = 0 ∨ s.inputs = []) :
    ∃ t, step s = .next t ∧ Completed s t s.inputs :=
  ⟨s.complete (launchedOutcome s),
    by rw [step_of_coreMoves (coreMoves_eq_true_of_busy hbusy hready), completeCommand_eq],
    complete_completed s _⟩

/-! ### A transaction while a command is in flight -/

/-- What a transaction leaves of a command in flight and of what is still to come. -/
structure KeepsFlight (s t : State) : Prop where
  status : t.status = s.status
  cmdr : t.cmdr = s.cmdr
  capr : t.capr = s.capr
  inputs : t.inputs = s.inputs
  latency : t.latency = s.latency

theorem KeepsFlight.refl (s : State) : KeepsFlight s s := ⟨rfl, rfl, rfl, rfl, rfl⟩

theorem KeepsFlight.busy {s t : State} (h : KeepsFlight s t) : t.busy = s.busy := congrArg busyBit h.status

theorem KeepsFlight.cap {s t : State} (h : KeepsFlight s t) : t.cap = s.cap := congrArg BitVec.toNat h.capr

/-- A write is dropped while a command is in flight, and a read changes nothing in the core (R59, R65). -/
theorem serveTxn_keepsFlight {x : Txn} {s t : State} (hbusy : s.busy = true) (h : serveTxn x s = .next t) :
    KeepsFlight s t := by
  obtain ⟨_, r, -, -, rfl⟩ | ⟨_, w, r, -, -, rfl⟩ | ⟨_, sp, i, -, -, rfl⟩ | ⟨_, v, sp, i, -, -, rfl⟩ :=
    serveTxn_cases x s t h
  · exact ⟨rfl, rfl, rfl, rfl, rfl⟩
  · rw [writeReg_of_busy hbusy]; exact .refl s
  · exact ⟨rfl, rfl, rfl, rfl, rfl⟩
  · rw [writeByte_of_busy hbusy]; exact .refl s

/-- With host steps left and an admitted transaction first, a step serves it and uses up one of them. -/
theorem exists_step_txn_of_busy {s : State} {x : Txn} {rest : List Input} {n : Nat} (hbusy : s.busy = true)
    (hlat : s.latency = n + 1) (hin : s.inputs = .txn x :: rest) (hx : x.admitted s.cap = true) :
    ∃ t, step s = .next t ∧ KeepsFlight { s with inputs := rest, latency := n } t := by
  rw [step_of_stalled_cons (coreMoves_eq_false_of_waiting hlat hin) hin, takeInput_of_busy hbusy hlat]
  obtain ⟨t, ht⟩ := (serveTxn_next_iff_admitted x { s with inputs := rest, latency := n }).2 hx
  exact ⟨t, ht, serveTxn_keepsFlight hbusy ht⟩

/-- A command in flight completes, by induction on the host steps left: the core moves when there are none or no
input is left, and otherwise the first transaction is served and one step fewer is left (R86, R275). -/
theorem exists_run_completed {s : State} (hbusy : s.busy = true)
    (htxns : ∀ item ∈ s.inputs, ∃ x : Txn, item = .txn x ∧ x.admitted s.cap = true) :
    ∃ (j : Nat) (t : State), j ≤ s.latency ∧ Steps (j + 1) s t ∧
      Completed s t (s.inputs.drop j) := by
  induction hlat : s.latency generalizing s with
  | zero =>
    obtain ⟨t, hstep, hdone⟩ := exists_step_completed hbusy (.inl hlat)
    exact ⟨0, t, le_rfl, Steps.single hstep, hdone⟩
  | succ n ih =>
    cases hin : s.inputs with
    | nil =>
      obtain ⟨t, hstep, hdone⟩ := exists_step_completed hbusy (.inr hin)
      exact ⟨0, t, Nat.zero_le _, Steps.single hstep, hin ▸ hdone⟩
    | cons item rest =>
      rw [hin, List.forall_mem_cons] at htxns
      obtain ⟨⟨x, rfl, hx⟩, hrest⟩ := htxns
      obtain ⟨u, hstep, hkeeps⟩ := exists_step_txn_of_busy hbusy hlat hin hx
      have hurest : ∀ item ∈ u.inputs, ∃ x : Txn, item = .txn x ∧ x.admitted u.cap = true := by
        rw [hkeeps.inputs, hkeeps.cap]
        exact hrest
      obtain ⟨j, t, hj, hrun, hdone⟩ := ih (hkeeps.busy.trans hbusy) hurest hkeeps.latency
      refine ⟨j + 1, t, Nat.succ_le_succ hj, .head hstep hrun, hdone.busy, hdone.done,
        hdone.cmdr.trans hkeeps.cmdr, hdone.inputs.trans ?_⟩
      exact congrArg (List.drop j) hkeeps.inputs

/-- Settles O55: `exists_run_completed`, with the completion itself as the last of the steps. -/
theorem launchedCommandCompletes : Obligations.LaunchedCommandCompletes := by
  intro s hbusy htxns
  obtain ⟨j, t, hj, hrun, hdone⟩ := exists_run_completed hbusy htxns
  exact ⟨j + 1, t, Nat.succ_le_succ hj, hrun, hdone.busy, hdone.done, hdone.cmdr, hdone.inputs⟩

/-! ### `wait` -/

/-- A poll that reads `BUSY` = 0 ends `wait`. -/
theorem serveAwait_of_idle {s : State} (hidle : s.busy = false) :
    serveAwait s = { s with replies := .word s.status :: s.replies } := by
  have hpoll : busyBit (s.wordAt .status) = false := hidle
  rw [serveAwait, hpoll]
  exact readReg_of_specified rfl

/-- A poll that reads `BUSY` = 1 puts `wait` back before the rest. -/
theorem serveAwait_of_busy {s : State} (hbusy : s.busy = true) :
    serveAwait s = { s with inputs := .await :: s.inputs, replies := .word s.status :: s.replies } := by
  have hpoll : busyBit (s.wordAt .status) = true := hbusy
  rw [serveAwait, hpoll]
  rfl

theorem step_await_of_idle {s : State} {rest : List Input} (hidle : s.busy = false)
    (hin : s.inputs = .await :: rest) :
    step s = .next { s with inputs := rest, replies := .word s.status :: s.replies } :=
  (step_of_idle hidle hin).trans
    (congrArg Host.Outcome.next (serveAwait_of_idle (s := { s with inputs := rest }) hidle))

theorem step_await_of_busy {s : State} {rest : List Input} {n : Nat} (hbusy : s.busy = true)
    (hlat : s.latency = n + 1) (hin : s.inputs = .await :: rest) :
    step s = .next { s with latency := n, replies := .word s.status :: s.replies } := by
  rw [step_of_stalled_cons (coreMoves_eq_false_of_waiting hlat hin) hin, takeInput_of_busy hbusy hlat]
  have hpoll := serveAwait_of_busy (s := { s with inputs := rest, latency := n }) hbusy
  rw [← hin] at hpoll
  exact congrArg Host.Outcome.next hpoll

/-- Settles O56, by induction on the host steps left: each poll before the completion uses up one, and the poll
after it reads the STATUS of the completion. -/
theorem waitEnds : Obligations.WaitEnds := by
  intro s rest hbusy hin
  induction hlat : s.latency generalizing s with
  | zero =>
    obtain ⟨t, hstep, hdone⟩ := exists_step_completed hbusy (.inl hlat)
    have hpoll := step_await_of_idle hdone.busy (hdone.inputs.trans hin)
    exact ⟨2, _, le_rfl, Steps.head hstep (.single hpoll), hdone.busy, hdone.done, rfl, rfl⟩
  | succ n ih =>
    have hpoll := step_await_of_busy hbusy hlat hin
    obtain ⟨k, t, hk, hrun, hend⟩ :=
      ih { s with latency := n, replies := .word s.status :: s.replies } hbusy hin rfl
    exact ⟨k + 1, t, by omega, Steps.head hpoll hrun, hend⟩

end Sys2Proof.Machine
end

section
/-! The host's scripts on an idle core (spec/30_encoding.md R93): what a list of byte writes and a list of byte reads
do, and from them `ldkey`, `ldin`, `rdout` and `mvout`. -/

namespace Sys2Proof.Machine

/-! ### Writing a sequence of bytes -/

theorem serveTxn_wr8_store {s : State} {sp : Space} {i : Nat} (v : Byte) (hidle : s.busy = false) (hsp : sp ≠ .out)
    (hi : i < windowSize s.cap sp) :
    serveTxn (.wr8 (windowBase sp + i) v) s = .next { s with mem := s.mem.store sp i v } := by
  rw [serveTxn_wr8 v (windowAt_windowBase_add hi fun hout => absurd hout hsp), writeByte_of_idle hidle,
    writeByteIdle_of_ne_out s i v hsp]

/-- The windows after storing a byte sequence in one of them, from index `i` upward. -/
def Memory.storeBytes (m : Memory) (sp : Space) : Nat → Bytes → Memory
  | _, [] => m
  | i, b :: rest => (m.store sp i b).storeBytes sp (i + 1) rest

/-- What the rules give after a byte sequence was stored: its bytes where it lies, and nothing else changed. -/
theorem storeBytes_specifiedByte (s : State) {sp : Space} (hsp : sp ≠ .out) (i : Nat) (b : Bytes) (sp' : Space)
    (j : Nat) : State.specifiedByte { s with mem := s.mem.storeBytes sp i b } sp' j =
      if sp' = sp ∧ i ≤ j ∧ j < i + b.length then b[j - i]? else s.specifiedByte sp' j := by
  induction b generalizing s i with
  | nil => exact (if_neg fun ⟨_, hlo, hhi⟩ => Nat.not_lt.2 hlo hhi).symm
  | cons v rest ih =>
    refine (ih { s with mem := s.mem.store sp i v } (i + 1)).trans ?_
    rw [List.length_cons]
    by_cases hhere : (sp', j) = (sp, i)
    · obtain ⟨rfl, rfl⟩ := Prod.mk.inj hhere
      rw [if_neg (by omega), if_pos ⟨rfl, le_rfl, by omega⟩, store_specifiedByte_same s j v hsp, Nat.sub_self]
      rfl
    · rw [store_specifiedByte_other s v hsp hhere]
      have hcond : (sp' = sp ∧ i + 1 ≤ j ∧ j < i + 1 + rest.length) ↔
          (sp' = sp ∧ i ≤ j ∧ j < i + (rest.length + 1)) := by
        refine and_congr_right fun hspace => ?_
        have hne : j ≠ i := fun h => hhere (by rw [hspace, h])
        omega
      by_cases hin : sp' = sp ∧ i + 1 ≤ j ∧ j < i + 1 + rest.length
      · rw [if_pos hin, if_pos (hcond.1 hin), show j - i = (j - (i + 1)) + 1 by omega, List.getElem?_cons_succ]
      · rw [if_neg hin, if_neg (mt hcond.2 hin)]

theorem steps_scriptBytes {s : State} {sp : Space} {i : Nat} {b : Bytes} {rest : List Input}
    (hidle : s.busy = false) (hsp : sp ≠ .out) (hfits : i + b.length ≤ windowSize s.cap sp)
    (hin : s.inputs = scriptBytes sp i b ++ rest) :
    Steps b.length s { s with mem := s.mem.storeBytes sp i b, inputs := rest } := by
  induction b generalizing s i with
  | nil =>
    obtain rfl : s.inputs = rest := hin
    exact .refl s
  | cons v tail ih =>
    rw [List.length_cons] at hfits
    have hi : i < windowSize s.cap sp := by omega
    have hstep := (step_of_idle hidle hin).trans (serveTxn_wr8_store v hidle hsp hi)
    have htail : i + 1 + tail.length ≤ windowSize s.cap sp := by omega
    exact .head hstep (ih hidle htail rfl)

theorem step_wr32_of_idle {s : State} {r : Reg} {w : Word} {rest : List Input} (hidle : s.busy = false)
    (hin : s.inputs = .txn (.wr32 (regOffset r) w) :: rest) :
    step s = .next (State.writeRegIdle { s with inputs := rest } w r) :=
  (step_of_idle hidle hin).trans (serveTxn_wr32_idle (s := { s with inputs := rest }) hidle r w)

/-- A byte sequence written to a window, and then a word to a register. -/
theorem steps_load {s : State} {sp : Space} {b : Bytes} {r : Reg} {w : Word} {rest : List Input}
    (hidle : s.busy = false) (hsp : sp ≠ .out) (hfits : b.length ≤ windowSize s.cap sp)
    (hin : s.inputs = scriptBytes sp 0 b ++ [.txn (.wr32 (regOffset r) w)] ++ rest) :
    Steps (b.length + 1) s (State.writeRegIdle { s with mem := s.mem.storeBytes sp 0 b, inputs := rest } w r) := by
  rw [List.append_assoc] at hin
  have hbytes := steps_scriptBytes hidle hsp (by omega) hin
  exact hbytes.trans (.single (step_wr32_of_idle hidle rfl))

/-- Settles O58: `ldkey` is `steps_load` of 32 bytes in KEY and of 32 in `KEY_LEN`. -/
theorem ldkeyLoadsKey : Obligations.LdkeyLoadsKey := by
  intro s k rest hidle hk hin
  have hlen : k.length = 32 := by simpa [keyLoadOk] using hk
  have hload := steps_load hidle (by decide) (show k.length ≤ windowSize s.cap .key from hlen.le) hin
  rw [hlen] at hload
  have hbyte := storeBytes_specifiedByte s (sp := .key) (by decide) 0 k
  refine ⟨_, hload, rfl, fun i hi => ?key, fun sp i hsp => ?other⟩
  case key => exact (hbyte .key i).trans (if_pos ⟨rfl, Nat.zero_le i, by omega⟩)
  case other => exact (hbyte sp i).trans (if_neg fun h => hsp h.1)

/-! ### Reading the result -/

/-- Reads of specified bytes return them, one reply each, and change nothing in the core (R65). -/
theorem steps_reads {s : State} {sp : Space} {indices : List Nat} {rest : List Input} (hidle : s.busy = false)
    (hat : ∀ i ∈ indices, windowAt s.cap (windowBase sp + i) = some (sp, i))
    (hspec : ∀ i ∈ indices, s.specifiedByte sp i = some (s.byteAt sp i))
    (hin : s.inputs = indices.map (fun i => .txn (.rd8 (windowBase sp + i))) ++ rest) :
    Steps indices.length s { s with
      inputs := rest
      replies := ((indices.map (s.byteAt sp)).map Reply.byte).reverse ++ s.replies } := by
  induction indices generalizing s with
  | nil =>
    obtain rfl : s.inputs = rest := hin
    exact .refl s
  | cons i tail ih =>
    rw [List.forall_mem_cons] at hat hspec
    obtain ⟨hati, hattail⟩ := hat
    obtain ⟨hspeci, hspectail⟩ := hspec
    have hstep := (step_of_idle hidle hin).trans (serveTxn_rd8_specified hati hspeci)
    rw [List.map_cons, List.map_cons, List.reverse_cons, List.append_assoc]
    exact .head hstep (ih hidle hattail hspectail rfl)

/-- What `rdout` reads after a success: the result. -/
def State.result (s : State) : Bytes := s.bytesAt .out s.outLen.toNat

theorem result_length (s : State) : s.result.length = s.outLen.toNat := bytesAt_length s _ _

theorem busy_of_success {s : State} (hst : s.status = statusSuccess) : s.busy = false := by
  simp [State.busy, hst]

theorem err_of_success {s : State} (hst : s.status = statusSuccess) : s.err = false := by
  simp [State.err, hst]

theorem outLen_le_cap_of_success {s : State} (hs : s.Inv) (hst : s.status = statusSuccess) :
    s.outLen.toNat ≤ s.cap := by
  obtain ⟨-, -, -, hresult⟩ := hs
  exact ((resultOk_iff_of_success hst).1 hresult).2

/-- After a success every byte of OUT below `OUT_LEN` is specified (R57). -/
theorem specifiedByte_out_of_success {s : State} {i : Nat} (hs : s.Inv) (hst : s.status = statusSuccess)
    (hi : i < s.outLen.toNat) : s.specifiedByte .out i = some (s.byteAt .out i) := by
  have hidle := busy_of_success hst
  obtain ⟨b, hb⟩ := exists_result_byte hs hidle hi
  have hspec : s.specifiedByte .out i = some b := by
    rw [specifiedByte_out_of_idle hidle, if_pos ⟨hi, err_of_success hst⟩, hb]
  rw [State.byteAt, hspec, Option.getD_some]

theorem specifiedByte_out_eq_result {s : State} {i : Nat} (hs : s.Inv) (hst : s.status = statusSuccess)
    (hi : i < s.outLen.toNat) : s.specifiedByte .out i = s.result[i]? := by
  rw [specifiedByte_out_of_success hs hst hi, State.result, bytesAt_getElem? s .out _ i hi]

theorem steps_scriptReadOut {s : State} {rest : List Input} (hs : s.Inv) (hst : s.status = statusSuccess)
    (hin : s.inputs = scriptReadOut s.outLen.toNat ++ rest) :
    Steps s.outLen.toNat s { s with
      inputs := rest, replies := (s.result.map Reply.byte).reverse ++ s.replies } := by
  have hcap := outLen_le_cap_of_success hs hst
  have hreads := steps_reads (sp := .out) (busy_of_success hst)
    (fun i hi => windowAt_windowBase_add ((List.mem_range.1 hi).trans_le hcap) fun _ => cap_le_of_capOk hs.1)
    (fun i hi => specifiedByte_out_of_success hs hst (List.mem_range.1 hi)) hin
  rwa [List.length_range] at hreads

/-- `rd32 OUT_LEN` of an idle core. -/
theorem readReg_outLen_of_idle {s : State} (hidle : s.busy = false) :
    s.readReg .outLen = { s with replies := .word s.outLen :: s.replies } :=
  readReg_of_specified (specifiedWord_outLen_of_idle hidle)

theorem wordAt_outLen_of_idle {s : State} (hidle : s.busy = false) : s.wordAt .outLen = s.outLen := by
  rw [State.wordAt, specifiedWord_outLen_of_idle hidle, Option.getD_some]

theorem serveRdout_of_idle {s : State} (hidle : s.busy = false) : serveRdout s = { s with
    inputs := scriptReadOut s.outLen.toNat ++ s.inputs, replies := .word s.outLen :: s.replies } := by
  rw [serveRdout, wordAt_outLen_of_idle hidle, readReg_outLen_of_idle hidle]
  rfl

theorem serveMvout_of_idle {s : State} (hidle : s.busy = false) : serveMvout s = { s with
    inputs := scriptReadOut s.outLen.toNat ++ ([.copyBack s.outLen.toNat] ++ s.inputs)
    replies := .word s.outLen :: s.replies } := by
  rw [serveMvout, wordAt_outLen_of_idle hidle, readReg_outLen_of_idle hidle, ← List.append_assoc]
  rfl

/-- The replies after `rdout`'s reads, newest first. -/
def State.resultReplies (s : State) : List Reply :=
  (s.result.map Reply.byte).reverse ++ .word s.outLen :: s.replies

/-- `rdout`, and the first half of `mvout`: the read of `OUT_LEN` puts the reads of the result before what
follows (R93). -/
theorem steps_readResult {s : State} {following : List Input} (hs : s.Inv) (hst : s.status = statusSuccess)
    (hstep : step s = .next { s with
      inputs := scriptReadOut s.outLen.toNat ++ following, replies := .word s.outLen :: s.replies }) :
    Steps (s.outLen.toNat + 1) s { s with inputs := following, replies := s.resultReplies } :=
  .head hstep (steps_scriptReadOut ((step_keepsInv hstep).1 hs) hst rfl)

/-- Settles O59: `rdout` is `steps_readResult`, with the result as the bytes returned. -/
theorem rdoutReturnsResult : Obligations.RdoutReturnsResult := by
  intro s rest hs hst hin
  have hidle := busy_of_success hst
  have hstep := (step_of_idle hidle hin).trans (congrArg Host.Outcome.next (serveRdout_of_idle hidle))
  refine ⟨_, s.result, steps_readResult hs hst hstep, result_length s, fun i hi => ?_, rfl⟩
  exact specifiedByte_out_eq_result hs hst (result_length s ▸ hi)

/-! ### `mvout` -/

/-- The bytes that the host has read last, when the newest replies are those of byte reads. -/
theorem lastBytes_of_replies {s : State} {b : Bytes} {older : List Reply}
    (h : s.replies = (b.map Reply.byte).reverse ++ older) : s.lastBytes b.length = b := by
  have htake : s.replies.take b.length = (b.map Reply.byte).reverse := by
    rw [h]
    exact List.take_left' (by simp)
  rw [State.lastBytes, htake, List.reverse_reverse, List.filterMap_map]
  exact List.filterMap_some

/-- The state after `mvout`: the result stands in IN, its length in `IN_LEN`. -/
def State.afterMvout (s : State) (rest : List Input) : State :=
  { s with
    mem := s.mem.storeBytes .inp 0 s.result
    inLen := s.outLen
    inputs := rest
    replies := s.resultReplies }

/-- The second half of `mvout`, from where the reads of the result have been answered. -/
theorem steps_copyBack {s : State} {rest : List Input} (hidle : s.busy = false) (hcap : s.outLen.toNat ≤ s.cap) :
    Steps (s.outLen.toNat + 2) { s with inputs := .copyBack s.outLen.toNat :: rest, replies := s.resultReplies }
      (s.afterMvout rest) := by
  have hlast : State.lastBytes { s with inputs := rest, replies := s.resultReplies } s.outLen.toNat = s.result := by
    rw [← result_length]
    exact lastBytes_of_replies rfl
  have hstep := step_of_idle
    (s := { s with inputs := .copyBack s.outLen.toNat :: rest, replies := s.resultReplies }) hidle rfl
  rw [serveInput, hlast] at hstep
  have hload := steps_load (s := { s with inputs := scriptLdin s.result ++ rest, replies := s.resultReplies })
    hidle (by decide) (show s.result.length ≤ s.cap from (result_length s).trans_le hcap) rfl
  rw [result_length, BitVec.ofNat_toNat, BitVec.setWidth_eq] at hload
  exact .head hstep hload

theorem steps_mvout {s : State} {rest : List Input} (hs : s.Inv) (hst : s.status = statusSuccess)
    (hin : s.inputs = .mvout :: rest) : Steps (2 * s.outLen.toNat + 3) s (s.afterMvout rest) := by
  have hidle := busy_of_success hst
  have hstep := (step_of_idle hidle hin).trans (congrArg Host.Outcome.next (serveMvout_of_idle hidle))
  have hsteps := (steps_readResult hs hst hstep).trans
    (steps_copyBack (rest := rest) hidle (outLen_le_cap_of_success hs hst))
  rwa [show s.outLen.toNat + 1 + (s.outLen.toNat + 2) = 2 * s.outLen.toNat + 3 by omega] at hsteps

theorem afterMvout_specifiedByte (s : State) (rest : List Input) (sp : Space) (i : Nat) :
    (s.afterMvout rest).specifiedByte sp i =
      if sp = .inp ∧ i < s.outLen.toNat then s.result[i]? else s.specifiedByte sp i := by
  have hbyte := storeBytes_specifiedByte s (sp := .inp) (by decide) 0 s.result sp i
  simp only [Nat.zero_le, true_and, Nat.zero_add, Nat.sub_zero, result_length] at hbyte
  exact hbyte

/-- Settles O60: the reads return the result, the copy back writes it to IN, and nothing else is written. -/
theorem mvoutCopiesResult : Obligations.MvoutCopiesResult := by
  intro s rest hs hst hin
  have hbyte := afterMvout_specifiedByte s rest
  refine ⟨s.afterMvout rest, steps_mvout hs hst hin, rfl, rfl, rfl, rfl, rfl, rfl, rfl, rfl, fun i hi => ?result,
    fun i hi => ?beyond, fun sp i hsp => ?other⟩
  case result => rw [hbyte, if_pos ⟨rfl, hi⟩, specifiedByte_out_eq_result hs hst hi]
  case beyond => rw [hbyte, if_neg fun h => absurd h.2 (Nat.not_lt.2 hi)]
  case other => rw [hbyte, if_neg fun h => hsp h.1]

end Sys2Proof.Machine
end

section
/-! The length of every successful result (spec/30_encoding.md R88): first that the block cipher and CBC keep lengths
(spec/42_aes256_block.md R147, spec/43_cbc_cipher.md R178), then the result of each command's rule. -/

namespace Sys2Proof.Machine

/-! ### The key schedule -/

/-- A key schedule under construction: at least the 8 words of the key, each of 4 bytes. -/
structure ScheduleWf (words : List Bytes) : Prop where
  length : 8 ≤ words.length
  word_length : ∀ v ∈ words, v.length = 4

theorem scheduleTemp_length (i : Nat) {prev : Bytes} (h : prev.length = 4) : (scheduleTemp i prev).length = 4 := by
  have hrot : (rotWord prev).length = 4 := by
    cases prev with
    | nil => cases h
    | cons a rest => simpa [rotWord] using h
  unfold scheduleTemp
  split_ifs
  · rw [xorBytes_length, subWord, List.length_map, hrot]
    rfl
  · rw [subWord, List.length_map, h]
  · exact h

theorem ScheduleWf.getD_length {words : List Bytes} (h : ScheduleWf words) {j : Nat} (hj : j < words.length) :
    (words.getD j []).length = 4 := by
  rw [List.getD_eq_getElem _ _ hj]
  exact h.word_length _ (List.getElem_mem hj)

theorem nextKeyWord_length (i : Nat) {newest : List Bytes} (h : ScheduleWf newest) :
    (nextKeyWord i newest).length = 4 := by
  have hlen := h.length
  rw [nextKeyWord, xorBytes_length, scheduleTemp_length i (h.getD_length (by omega)), h.getD_length (by omega)]
  rfl

theorem expandWords_wf (n i : Nat) {newest : List Bytes} (h : ScheduleWf newest) :
    ScheduleWf (expandWords n i newest) := by
  induction n generalizing i newest with
  | zero => exact h
  | succ n ih =>
    refine ih (i + 1) ⟨Nat.le_succ_of_le h.length, ?_⟩
    rw [List.forall_mem_cons]
    exact ⟨nextKeyWord_length i h, h.word_length⟩

theorem expandWords_length (n i : Nat) (newest : List Bytes) :
    (expandWords n i newest).length = n + newest.length := by
  induction n generalizing i newest with
  | zero => rw [expandWords, Nat.zero_add]
  | succ n ih => rw [expandWords, ih, List.length_cons, Nat.succ_add_eq_add_succ]

theorem keyWords_reverse_wf {k : Bytes} (hk : k.length = 32) : ScheduleWf (keyWords k).reverse := by
  refine ⟨by simp [keyWords], fun v hv => ?_⟩
  obtain ⟨i, hi, rfl⟩ := List.mem_map.1 (List.mem_reverse.1 hv)
  have hi8 : i < 8 := List.mem_range.1 hi
  rw [List.length_take, List.length_drop, hk]
  omega

theorem keyExpansion_length (k : Bytes) : (keyExpansion k).length = 60 := by
  rw [keyExpansion, List.length_reverse, expandWords_length, List.length_reverse]
  rfl

theorem keyExpansion_wf {k : Bytes} (hk : k.length = 32) : ScheduleWf (keyExpansion k) := by
  refine ⟨by rw [keyExpansion_length]; decide, fun v hv => ?_⟩
  exact (expandWords_wf _ _ (keyWords_reverse_wf hk)).word_length v (List.mem_reverse.1 hv)

theorem roundKey_length {k : Bytes} (hk : k.length = 32) {r : Nat} (hr : r ≤ 14) :
    (roundKey (keyExpansion k) r).length = 16 := by
  have hword (j : Nat) (hj : j < 60) : ((keyExpansion k).getD j []).length = 4 :=
    (keyExpansion_wf hk).getD_length (by rwa [keyExpansion_length])
  simp only [roundKey, List.length_append]
  rw [hword _ (by omega), hword _ (by omega), hword _ (by omega), hword _ (by omega)]

/-! ### Blocks and CBC -/

theorem aesEncBlock_length {k : Bytes} (hk : k.length = 32) (x : Bytes) :
    (aesEncBlock (keyExpansion k) x).length = 16 := by
  rw [aesEncBlock, addRoundKey, xorBytes_length, roundKey_length hk le_rfl, shiftRows, List.length_map]
  rfl

theorem aesDecBlock_length {k : Bytes} (hk : k.length = 32) (y : Bytes) :
    (aesDecBlock (keyExpansion k) y).length = 16 := by
  rw [aesDecBlock, addRoundKey, xorBytes_length, roundKey_length hk (by decide), invSubBytes, List.length_map,
    invShiftRows, List.length_map]
  rfl

theorem cbcEncBlocks_length {k : Bytes} (hk : k.length = 32) (m : Nat) (c x : Bytes) :
    (cbcEncBlocks (keyExpansion k) m c x).length = 16 * m := by
  induction m generalizing c x with
  | zero => rfl
  | succ m ih =>
    simp only [cbcEncBlocks, List.length_append, aesEncBlock_length hk, ih]
    omega

/-- The chaining block of each block is a whole one: the IV, or the ciphertext block before. -/
theorem cbcDecBlocks_length {k : Bytes} (hk : k.length = 32) (m : Nat) {c y : Bytes} (hc : c.length = 16)
    (hy : 16 * m ≤ y.length) : (cbcDecBlocks (keyExpansion k) m c y).length = 16 * m := by
  induction m generalizing c y with
  | zero => rfl
  | succ m ih =>
    have hblock : (y.take 16).length = 16 := by
      rw [List.length_take]
      omega
    have hrest : 16 * m ≤ (y.drop 16).length := by
      rw [List.length_drop]
      omega
    simp only [cbcDecBlocks, List.length_append, xorBytes_length, aesDecBlock_length hk, hc, ih hblock hrest]
    omega

theorem cbcEnc_length {k x : Bytes} (v : Bytes) (hk : k.length = 32) (hx : x.length % 16 = 0) :
    (cbcEnc k v x).length = x.length := by
  rw [cbcEnc, cbcEncBlocks_length hk]
  exact Nat.mul_div_cancel' (Nat.dvd_of_mod_eq_zero hx)

theorem cbcDec_length {k v y : Bytes} (hk : k.length = 32) (hv : v.length = 16) (hy : y.length % 16 = 0) :
    (cbcDec k v y).length = y.length := by
  rw [cbcDec, cbcDecBlocks_length hk _ hv (Nat.mul_div_le y.length 16)]
  exact Nat.mul_div_cancel' (Nat.dvd_of_mod_eq_zero hy)

/-! ### The result of each rule -/

/-- A successful unpadding takes off as many bytes as the last byte says, 1 to 16 (R121). -/
theorem unpad_ok_drops {c r : Bytes} (h : unpad c = .ok r) :
    ∃ p : Byte, c.getLast? = some p ∧ 1 ≤ p.toNat ∧ p.toNat ≤ 16 ∧ r.length + p.toNat = c.length := by
  obtain ⟨p, hlast, hlo, hhi, hle, rfl⟩ := unpad_ok_length c r h
  refine ⟨p, hlast, hlo, hhi, ?_⟩
  rw [List.length_take, Nat.min_eq_left (Nat.sub_le _ _), Nat.sub_add_cancel hle]

theorem paddedLen_mod (n : Nat) : paddedLen n % 16 = 0 := by
  rw [paddedLen_eq]
  omega

section
variable {o : Operands} {r : Bytes}

theorem hexencRule_ok (ho : o.Fit) (h : hexencRule o = .ok r) : r.length = 2 * o.inLen := by
  unfold hexencRule at h
  split_ifs at h
  obtain rfl := Except.ok.inj h
  rw [hexEnc_length, ho.input_length]

theorem hexdecRule_ok (ho : o.Fit) (h : hexdecRule o = .ok r) : r.length = o.inLen / 2 ∧ o.inLen % 2 = 0 := by
  obtain ⟨heven, -, rfl⟩ := (hexDec_ok_iff _ _).1 h
  rw [ho.input_length] at heven
  exact ⟨by rw [hexPairs_length, ho.input_length], heven⟩

theorem padRule_ok (ho : o.Fit) (h : padRule o = .ok r) : r.length = o.inLen + 16 - o.inLen % 16 := by
  unfold padRule at h
  split_ifs at h
  obtain rfl := Except.ok.inj h
  rw [pad_length, ho.input_length, paddedLen_eq]

theorem ciphencRule_ok (ho : o.Fit) (hk : o.keyv.length = 32) (h : ciphencRule o = .ok r) :
    r.length = o.inLen := by
  unfold ciphencRule at h
  split at h
  · cases h
  · next hcheck =>
    obtain ⟨-, hblocks, -, -⟩ := (cipherCheck_ok_iff _ _ _).1 hcheck
    obtain rfl := Except.ok.inj h
    rw [cbcEnc_length _ hk (by rw [ho.input_length]; exact hblocks), ho.input_length]

theorem ciphdecRule_ok (ho : o.Fit) (hk : o.keyv.length = 32) (h : ciphdecRule o = .ok r) :
    r.length = o.inLen := by
  unfold ciphdecRule at h
  split at h
  · cases h
  · next hcheck =>
    obtain ⟨-, hblocks, -, -⟩ := (cipherCheck_ok_iff _ _ _).1 hcheck
    obtain rfl := Except.ok.inj h
    rw [cbcDec_length hk ho.ivv_length (by rw [ho.input_length]; exact hblocks), ho.input_length]

/-- The ciphertext of the padded input is as long as the padded input. -/
theorem cbcEnc_pad_length (ho : o.Fit) (hk : o.keyv.length = 32) :
    (cbcEnc o.keyv o.ivv (pad o.input)).length = o.inLen + 16 - o.inLen % 16 := by
  have hpad : (pad o.input).length = paddedLen o.inLen := by rw [pad_length, ho.input_length]
  rw [cbcEnc_length _ hk (by rw [hpad]; exact paddedLen_mod _), hpad, paddedLen_eq]

theorem encryptRule_ok (ho : o.Fit) (hk : o.keyv.length = 32) (h : encryptRule o = .ok r) :
    r.length = o.inLen + 16 - o.inLen % 16 := by
  unfold encryptRule at h
  split_ifs at h
  split at h
  · cases h
  · obtain rfl := Except.ok.inj h
    exact cbcEnc_pad_length ho hk

theorem encryptxRule_ok (ho : o.Fit) (hk : o.keyv.length = 32) (h : encryptxRule o = .ok r) :
    r.length = 33 + 2 * (o.inLen + 16 - o.inLen % 16) := by
  unfold encryptxRule at h
  split_ifs at h
  split at h
  · cases h
  · obtain rfl := Except.ok.inj h
    simp only [List.length_append, hexEnc_length, ho.ivv_length, List.length_singleton, cbcEnc_pad_length ho hk]

theorem decryptRule_ok (ho : o.Fit) (hk : o.keyv.length = 32) (h : decryptRule o = .ok r) :
    ∃ p : Byte, 1 ≤ p.toNat ∧ p.toNat ≤ 16 ∧ (cbcDec o.keyv o.ivv o.input).getLast? = some p ∧
      r.length + p.toNat = o.inLen := by
  unfold decryptRule at h
  split at h
  · cases h
  · next hcheck =>
    obtain ⟨-, hblocks, -, -⟩ := (cipherCheck_ok_iff _ _ _).1 hcheck
    obtain ⟨p, hlast, hlo, hhi, hlen⟩ := unpad_ok_drops h
    rw [cbcDec_length hk ho.ivv_length (by rw [ho.input_length]; exact hblocks), ho.input_length] at hlen
    exact ⟨p, hlo, hhi, hlast, hlen⟩

theorem decryptxDecoded_ok {k v y : Bytes} {keyLen : Nat} (hk : k.length = 32)
    (h : decryptxDecoded k keyLen v y = .ok r) :
    ∃ p : Byte, (cbcDec k v y).getLast? = some p ∧ 1 ≤ p.toNat ∧ p.toNat ≤ 16 ∧
      r.length + p.toNat = y.length := by
  unfold decryptxDecoded at h
  split at h
  · cases h
  · next hcheck =>
    obtain ⟨-, hblocks, -, hv⟩ := (cipherCheck_ok_iff _ _ _).1 hcheck
    obtain ⟨p, hlast, hlo, hhi, hlen⟩ := unpad_ok_drops h
    rw [cbcDec_length hk hv hblocks] at hlen
    exact ⟨p, hlast, hlo, hhi, hlen⟩

/-- The three parts of the text that a successful DECRYPTX has read, and the length of its result (R193). -/
theorem decryptxRule_ok (ho : o.Fit) (hk : o.keyv.length = 32) (h : decryptxRule o = .ok r) :
    ∃ (d : Nat) (v y : Bytes) (p : Byte), delimIndex o.input = some d ∧
      hexDec (o.input.take d) = .ok v ∧ hexDec (o.input.drop (d + 1)) = .ok y ∧
      (cbcDec o.keyv v y).getLast? = some p ∧ 1 ≤ p.toNat ∧ p.toNat ≤ 16 ∧
      r.length + p.toNat = (o.inLen - d - 1) / 2 := by
  unfold decryptxRule at h
  split at h
  · cases h
  · next d hd =>
    split at h
    · cases h
    · next v hv =>
      split at h
      · cases h
      · next y hy =>
        obtain ⟨p, hlast, hlo, hhi, hlen⟩ := decryptxDecoded_ok hk h
        obtain ⟨-, -, hpairs⟩ := (hexDec_ok_iff _ _).1 hy
        rw [hpairs, hexPairs_length, List.length_drop, ho.input_length, ← Nat.sub_sub] at hlen
        exact ⟨d, v, y, p, hd, hv, hy, hlast, hlo, hhi, hlen⟩

end

/-! ### From the rules to the commands -/

theorem bytesAt_getLast? (s : State) (sp : Space) {n : Nat} (hn : 0 < n) :
    (s.bytesAt sp n).getLast? = some (s.byteAt sp (n - 1)) := by
  rw [List.getLast?_eq_getElem?, bytesAt_length, bytesAt_getElem? s sp n (n - 1) (by omega)]

/-- What `UNPAD` has read and how long its result is, on the state's own bytes (R123). -/
theorem unpadRule_ok {s : State} {r : Bytes} (h : unpadRule s.operands = .ok r) :
    ∃ p : Byte, 1 ≤ p.toNat ∧ p.toNat ≤ 16 ∧ 0 < s.inLen.toNat ∧ s.byteAt .inp (s.inLen.toNat - 1) = p ∧
      r.length + p.toNat = s.inLen.toNat := by
  obtain ⟨p, hlast, hlo, hhi, hlen⟩ := unpad_ok_drops h
  rw [show s.operands.input.length = s.inLen.toNat from bytesAt_length s _ _] at hlen
  have hpos : 0 < s.inLen.toNat := by omega
  rw [show s.operands.input.getLast? = _ from bytesAt_getLast? s .inp hpos] at hlast
  exact ⟨p, hlo, hhi, hpos, Option.some.inj hlast, hlen⟩

/-- The index of the first delimiter among the bytes of a window (R193). -/
theorem delimIndex_bytesAt {s : State} {sp : Space} {n d : Nat} (h : delimIndex (s.bytesAt sp n) = some d) :
    d < n ∧ s.byteAt sp d = 0x3A#8 ∧ ∀ j, j < d → s.byteAt sp j ≠ 0x3A#8 := by
  obtain ⟨hd, hdelim, hbefore⟩ := List.findIdx?_eq_some_iff_getElem.1 h
  rw [bytesAt_length] at hd
  simp only [State.bytesAt, List.getElem_map, List.getElem_range, beq_iff_eq] at hdelim hbefore
  exact ⟨hd, hdelim, fun j hj => by simpa using hbefore j hj⟩

/-- A command that completes with `ERR` = 0 has passed the input capacity check, its rule gave a result of at most
`CAP` bytes, and `OUT_LEN` is the length of that result (R87, R89). -/
theorem exists_rule_ok_of_exec {i : Instr} {s t : State} (h : exec i s = .next t) (herr : t.err = false) :
    ∃ r, ruleOf i s.operands = .ok r ∧ s.operands.Fit ∧ r.length ≤ s.cap ∧ t.outLen.toNat = r.length := by
  obtain rfl := Host.Outcome.next.inj ((exec_eq i s).symm.trans h)
  obtain ⟨r, hr, ht⟩ | ⟨c, -, ht⟩ := complete_cases s (commandOutcome (ruleOf i) s)
  · have hfits : s.inLen.toNat ≤ s.cap := by
      refine Nat.not_lt.1 fun hover => ?_
      rw [commandOutcome_capIn _ s hover] at hr
      cases hr
    have hle : r.length ≤ s.cap := by
      have hadm := commandOutcome_admissible i s
      rwa [hr] at hadm
    rw [commandOutcome_rule _ s hfits] at hr
    refine ⟨r, hr, operands_fit hfits, hle, ?_⟩
    rw [ht, succeedWith_outLen, BitVec.toNat_ofNat]
    exact Nat.mod_eq_of_lt (hle.trans_lt s.capr.isLt)
  · rw [ht, failWith_err] at herr
    cases herr

/-- Settles O20: the length of the result is that of the command's rule, which fits in OUT. -/
theorem resultLengths : Obligations.ResultLengths := by
  intro i s t hexec herr
  obtain ⟨r, hrule, hfit, hle, hlen⟩ := exists_rule_ok_of_exec hexec herr
  have hkey : s.operands.keyv.length = 32 := bytesAt_length s _ _
  rw [hlen]
  refine ⟨hle, ?_⟩
  cases i with
  | hexenc => exact hexencRule_ok hfit hrule
  | hexdec => exact hexdecRule_ok hfit hrule
  | pad => exact padRule_ok hfit hrule
  | unpad => exact unpadRule_ok hrule
  | ciphenc => exact ciphencRule_ok hfit hkey hrule
  | ciphdec => exact ciphdecRule_ok hfit hkey hrule
  | encrypt => exact encryptRule_ok hfit hkey hrule
  | decrypt =>
    obtain ⟨p, hlo, hhi, hlast, hsum⟩ := decryptRule_ok hfit hkey hrule
    exact ⟨p, hlo, hhi, hlast, hsum⟩
  | encryptx => exact encryptxRule_ok hfit hkey hrule
  | decryptx =>
    obtain ⟨d, v, y, p, hd, hrest⟩ := decryptxRule_ok hfit hkey hrule
    obtain ⟨hdlt, hdelim, hbefore⟩ := delimIndex_bytesAt hd
    exact ⟨d, v, y, p, hdlt, hdelim, hbefore, hrest⟩

end Sys2Proof.Machine
end

section
/-! How a command ends, told from its own rule (spec/30_encoding.md R86, R87, R89, spec/60_exceptions.md R230): a
rule's result is delivered, a rule's code is failed with, and what the rule does not read plays no part. -/

namespace Sys2Proof.Machine

/-! ### Success and failure -/

theorem exec_of_commandOutcome {i : Instr} {s : State} {o : Except ECode Bytes}
    (h : commandOutcome (ruleOf i) s = o) : exec i s = .next (s.complete o) := h ▸ exec_eq i s

theorem succeedWith_delivers (s : State) {r : Bytes} (hr : r.length ≤ s.cap) : Delivers s (s.succeedWith r) r := by
  have hlt : r.length < 2 ^ 32 := hr.trans_lt s.capr.isLt
  refine ⟨rfl, ?_, fun i _ => ?_, fun i hi => ?_, succeedWith_keepsOperands s r⟩
  · rw [succeedWith_outLen, BitVec.toNat_ofNat]
    exact Nat.mod_eq_of_lt hlt
  · exact succeedWith_specifiedByte s r hlt .out i
  · exact (succeedWith_specifiedByte s r hlt .out i).trans (List.getElem?_eq_none hi)

/-- Past the input capacity check, a result of the command's rule is delivered: it always fits in OUT (R228). -/
theorem delivers_of_rule_ok {i : Instr} {s : State} {r : Bytes} (hfits : s.inLen.toNat ≤ s.cap)
    (hrule : ruleOf i s.operands = .ok r) : ∃ t, exec i s = .next t ∧ Delivers s t r := by
  have hout : commandOutcome (ruleOf i) s = .ok r := (commandOutcome_rule _ s hfits).trans hrule
  have hle : r.length ≤ s.cap := by
    have hadm := commandOutcome_admissible i s
    rwa [hout] at hadm
  exact ⟨s.succeedWith r, exec_of_commandOutcome hout, succeedWith_delivers s hle⟩

theorem failsWith_of_commandOutcome {i : Instr} {s : State} {c : ECode}
    (h : commandOutcome (ruleOf i) s = .error c) : FailsWith i s c :=
  ⟨s.failWith c, exec_of_commandOutcome h, failWith_fails s c⟩

theorem failsWith_capIn (i : Instr) {s : State} (hover : s.inLen.toNat > s.cap) : FailsWith i s .capIn :=
  failsWith_of_commandOutcome (commandOutcome_capIn _ s hover)

theorem failsWith_of_rule_error {i : Instr} {s : State} {c : ECode} (hfits : s.inLen.toNat ≤ s.cap)
    (hrule : ruleOf i s.operands = .error c) : FailsWith i s c :=
  failsWith_of_commandOutcome ((commandOutcome_rule _ s hfits).trans hrule)

/-! ### Two states on which a command's rule agrees -/

/-- The common frame reads `IN_LEN` and `CAP`; the rest of the outcome is the rule's (R89). -/
theorem exec_sameResult_of_rule_eq {i : Instr} {s s' : State} (hinput : SameInput s s')
    (hrule : ruleOf i s'.operands = ruleOf i s.operands) :
    ∃ t t', exec i s = .next t ∧ exec i s' = .next t' ∧ SameResult t t' := by
  obtain ⟨hinLen, hcapr, -⟩ := hinput
  have hlen : s'.inLen.toNat = s.inLen.toNat := congrArg BitVec.toNat hinLen
  have hcap : s'.cap = s.cap := congrArg BitVec.toNat hcapr
  have hout : commandOutcome (ruleOf i) s' = commandOutcome (ruleOf i) s := by
    simp only [commandOutcome, hlen, hcap, hrule]
  exact ⟨_, _, exec_eq i s, exec_of_commandOutcome hout, complete_sameResult s s' _⟩

/-- The part of the operands that the hex and padding commands read (R107, R122, R123). -/
theorem ruleOf_congr_input {i : Instr} (hi : i ∈ [Instr.hexenc, .hexdec, .pad, .unpad]) {o o' : Operands}
    (hinput : o'.input = o.input) (hinLen : o'.inLen = o.inLen) (hcap : o'.cap = o.cap) :
    ruleOf i o' = ruleOf i o := by
  simp only [List.mem_cons, List.not_mem_nil, or_false] at hi
  obtain rfl | rfl | rfl | rfl := hi
  · simp only [ruleOf, hexencRule, hinput, hinLen, hcap]
  · simp only [ruleOf, hexdecRule, hinput]
  · simp only [ruleOf, padRule, hinput, hinLen, hcap]
  · simp only [ruleOf, unpadRule, hinput]

/-- Settles O17: the rules of the four commands read the input, its length and `CAP`, which `SameInput` fixes. -/
theorem hexAndPaddingReadNoKey : Obligations.HexAndPaddingReadNoKey := by
  intro i s s' hi hsame
  obtain ⟨hinLen, hcapr, hinp⟩ := id hsame
  have hlen : s'.inLen.toNat = s.inLen.toNat := congrArg BitVec.toNat hinLen
  have hinput : s'.operands.input = s.operands.input := by
    simp only [State.operands, hlen, bytesAt_congr hinp]
  exact exec_sameResult_of_rule_eq hsame
    (ruleOf_congr_input hi hinput hlen (congrArg BitVec.toNat hcapr))

end Sys2Proof.Machine
end

section
/-! The hex codec (spec/40_hex.md R100 to R106): the value of each digit character, the two digits of a byte, and
the laws that relate the two directions. -/

namespace Sys2Proof.Machine

/-! ### The digit characters -/

/-- A digit character with `A` to `F` lowered to `a` to `f` (R106, law 3). -/
def lowerHex (c : Byte) : Byte := if 0x41 ≤ c.toNat ∧ c.toNat ≤ 0x46 then c + 0x20#8 else c

theorem hexVal_eq_some_iff (c v : Byte) : hexVal c = some v ↔
    (0x30 ≤ c.toNat ∧ c.toNat ≤ 0x39 ∧ v.toNat = c.toNat - 0x30) ∨
    (0x41 ≤ c.toNat ∧ c.toNat ≤ 0x46 ∧ v.toNat = c.toNat - 0x41 + 10) ∨
    (0x61 ≤ c.toNat ∧ c.toNat ≤ 0x66 ∧ v.toNat = c.toNat - 0x61 + 10) := by
  unfold hexVal
  split_ifs with hdecimal hupper hlower
  · rw [Option.some_inj]
    bv_omega
  · rw [Option.some_inj]
    bv_omega
  · rw [Option.some_inj]
    bv_omega
  · rw [false_iff]
    omega

theorem hexVal_isSome_iff (c : Byte) : (hexVal c).isSome = true ↔
    (0x30 ≤ c.toNat ∧ c.toNat ≤ 0x39) ∨ (0x41 ≤ c.toNat ∧ c.toNat ≤ 0x46) ∨
    (0x61 ≤ c.toNat ∧ c.toNat ≤ 0x66) := by
  unfold hexVal
  split_ifs with hdecimal hupper hlower
  · simp [hdecimal]
  · simp [hupper]
  · simp [hlower]
  · simp only [Option.isSome_none, Bool.false_eq_true, false_iff]
    omega

theorem hexVal_lt {c v : Byte} (h : hexVal c = some v) : v.toNat < 16 := by
  rw [hexVal_eq_some_iff] at h
  omega

theorem toNat_hexDigitChar {v : Byte} (hv : v.toNat < 16) :
    (hexDigitChar v).toNat = if v.toNat ≤ 9 then 0x30 + v.toNat else 0x57 + v.toNat := by
  unfold hexDigitChar
  split_ifs <;> bv_omega

theorem hexVal_hexDigitChar {v : Byte} (hv : v.toNat < 16) : hexVal (hexDigitChar v) = some v := by
  rw [hexVal_eq_some_iff, toNat_hexDigitChar hv]
  split_ifs <;> omega

/-- The digit of a character's value is that character in lowercase. -/
theorem hexDigitChar_of_hexVal {c v : Byte} (h : hexVal c = some v) : hexDigitChar v = lowerHex c := by
  have hv := toNat_hexDigitChar (hexVal_lt h)
  rw [hexVal_eq_some_iff] at h
  rw [← BitVec.toNat_inj, hv]
  unfold lowerHex
  split_ifs <;> bv_omega

theorem lowerHex_eq_self_iff (c : Byte) : lowerHex c = c ↔ ¬ (0x41 ≤ c.toNat ∧ c.toNat ≤ 0x46) := by
  unfold lowerHex
  split_ifs with hupper
  · simp only [hupper, and_self, not_true, iff_false]
    bv_omega
  · simp only [hupper, not_false_eq_true]

/-- The value of a pair of digit characters, as a number (R103): two digits never exceed a byte. -/
theorem toNat_hexPair {hi lo v w : Byte} (hhi : hexVal hi = some v) (hlo : hexVal lo = some w) :
    (hexPair hi lo).toNat = 16 * v.toNat + w.toNat := by
  have hv := hexVal_lt hhi
  have hw := hexVal_lt hlo
  rw [hexPair, hhi, hlo, Option.getD_some, Option.getD_some]
  bv_omega

/-! ### The two digits of a byte -/

/-- The digit character of the high nibble (R101). -/
def highDigit (b : Byte) : Byte := hexDigitChar (BitVec.ofNat 8 (b.toNat / 16))

/-- The digit character of the low nibble (R101). -/
def lowDigit (b : Byte) : Byte := hexDigitChar (BitVec.ofNat 8 (b.toNat % 16))

theorem hexEnc_cons (b : Byte) (rest : Bytes) :
    hexEnc (b :: rest) = highDigit b :: lowDigit b :: hexEnc rest := by
  have hhigh : b >>> 4 = BitVec.ofNat 8 (b.toNat / 16) := by
    apply BitVec.eq_of_toNat_eq
    rw [BitVec.toNat_ushiftRight, Nat.shiftRight_eq_div_pow, BitVec.toNat_ofNat]
    omega
  have hlow : b &&& 0x0F#8 = BitVec.ofNat 8 (b.toNat % 16) := by
    apply BitVec.eq_of_toNat_eq
    rw [BitVec.toNat_and, BitVec.toNat_ofNat, BitVec.toNat_ofNat]
    exact (Nat.and_two_pow_sub_one_eq_mod b.toNat 4).trans (by omega)
  rw [hexEnc, hhigh, hlow, highDigit, lowDigit]

theorem hexVal_highDigit (b : Byte) : hexVal (highDigit b) = some (BitVec.ofNat 8 (b.toNat / 16)) :=
  hexVal_hexDigitChar (by bv_omega)

theorem hexVal_lowDigit (b : Byte) : hexVal (lowDigit b) = some (BitVec.ofNat 8 (b.toNat % 16)) :=
  hexVal_hexDigitChar (by bv_omega)

theorem hexPair_digits (b : Byte) : hexPair (highDigit b) (lowDigit b) = b := by
  have hvalue := toNat_hexPair (hexVal_highDigit b) (hexVal_lowDigit b)
  bv_omega

/-- The digits of a decoded pair are the pair's own characters, lowered. -/
theorem digits_hexPair {hi lo v w : Byte} (hhi : hexVal hi = some v) (hlo : hexVal lo = some w) :
    highDigit (hexPair hi lo) = lowerHex hi ∧ lowDigit (hexPair hi lo) = lowerHex lo := by
  have hw := hexVal_lt hlo
  have hhigh : (16 * v.toNat + w.toNat) / 16 = v.toNat := by omega
  have hlow : (16 * v.toNat + w.toNat) % 16 = w.toNat := by omega
  rw [highDigit, lowDigit, toNat_hexPair hhi hlo, hhigh, hlow, BitVec.ofNat_toNat, BitVec.ofNat_toNat,
    BitVec.setWidth_eq, BitVec.setWidth_eq]
  exact ⟨hexDigitChar_of_hexVal hhi, hexDigitChar_of_hexVal hlo⟩

/-! ### The bytes of an encoding and of a decoding, by index -/

theorem hexEnc_getElem? (b : Bytes) (i : Nat) :
    (hexEnc b)[2 * i]? = b[i]?.map highDigit ∧ (hexEnc b)[2 * i + 1]? = b[i]?.map lowDigit := by
  induction b generalizing i with
  | nil => exact ⟨rfl, rfl⟩
  | cons x rest ih =>
    rw [hexEnc_cons]
    cases i with
    | zero => exact ⟨rfl, rfl⟩
    | succ i => exact ih i

theorem hexPairs_getElem? : ∀ {s : Bytes} {j : Nat} {hi lo : Byte},
    s[2 * j]? = some hi → s[2 * j + 1]? = some lo → (hexPairs s)[j]? = some (hexPair hi lo)
  | a :: b :: rest, 0, hi, lo, hhi, hlo => by
    obtain rfl : a = hi := Option.some.inj hhi
    obtain rfl : b = lo := Option.some.inj hlo
    rfl
  | _ :: _ :: rest, j + 1, _, _, hhi, hlo => hexPairs_getElem? (s := rest) (j := j) hhi hlo
  | [_], _, _, _, _, hlo => by simp at hlo
  | [], _, _, _, hhi, _ => by simp at hhi

/-! ### The laws of the codec -/

theorem hexPairs_hexEnc (b : Bytes) : hexPairs (hexEnc b) = b := by
  induction b with
  | nil => rfl
  | cons x rest ih => rw [hexEnc_cons, hexPairs, hexPair_digits, ih]

theorem hexVal_isSome_of_mem_hexEnc {b : Bytes} {c : Byte} (hc : c ∈ hexEnc b) : (hexVal c).isSome = true := by
  induction b with
  | nil => cases hc
  | cons x rest ih =>
    rw [hexEnc_cons, List.mem_cons, List.mem_cons] at hc
    obtain rfl | rfl | hrest := hc
    · rw [hexVal_highDigit]; rfl
    · rw [hexVal_lowDigit]; rfl
    · exact ih hrest

/-- Law 1 of R106. -/
theorem hexDec_hexEnc (b : Bytes) : hexDec (hexEnc b) = .ok b :=
  (hexDec_ok_iff _ _).2
    ⟨by rw [hexEnc_length]; omega, fun _ hc => hexVal_isSome_of_mem_hexEnc hc, (hexPairs_hexEnc b).symm⟩

theorem exists_hexDec_ok_iff (s : Bytes) :
    (∃ b, hexDec s = .ok b) ↔ s.length % 2 = 0 ∧ ∀ c ∈ s, (hexVal c).isSome = true := by
  simp only [hexDec_ok_iff, exists_and_left, exists_eq, and_true]

theorem hexEnc_hexPairs : ∀ {s : Bytes}, s.length % 2 = 0 → (∀ c ∈ s, (hexVal c).isSome = true) →
    hexEnc (hexPairs s) = s.map lowerHex
  | [], _, _ => rfl
  | [_], hlen, _ => by cases hlen
  | hi :: lo :: rest, hlen, hdigits => by
    rw [List.forall_mem_cons, List.forall_mem_cons] at hdigits
    obtain ⟨hhi, hlo, hrest⟩ := hdigits
    obtain ⟨v, hv⟩ := Option.isSome_iff_exists.1 hhi
    obtain ⟨w, hw⟩ := Option.isSome_iff_exists.1 hlo
    obtain ⟨hhigh, hlow⟩ := digits_hexPair hv hw
    have heven : rest.length % 2 = 0 := by
      simp only [List.length_cons] at hlen
      omega
    rw [hexPairs, hexEnc_cons, hhigh, hlow, hexEnc_hexPairs heven hrest, List.map_cons, List.map_cons]

/-- Law 3 of R106. -/
theorem hexEnc_of_hexDec_ok {s b : Bytes} (h : hexDec s = .ok b) : hexEnc b = s.map lowerHex := by
  obtain ⟨heven, hdigits, rfl⟩ := (hexDec_ok_iff s b).1 h
  exact hexEnc_hexPairs heven hdigits

theorem map_lowerHex_eq_self_iff (s : Bytes) :
    s.map lowerHex = s ↔ ∀ c ∈ s, ¬ (0x41 ≤ c.toNat ∧ c.toNat ≤ 0x46) := by
  simp only [← lowerHex_eq_self_iff]
  induction s with
  | nil => simp
  | cons c rest ih => rw [List.map_cons, List.cons.injEq, ih, List.forall_mem_cons]

theorem hexDec_ok_length {s b : Bytes} (h : hexDec s = .ok b) : b.length = s.length / 2 := by
  obtain ⟨-, -, rfl⟩ := (hexDec_ok_iff s b).1 h
  exact hexPairs_length s

/-- Settles O24: each law is a lemma above; law 2 spells the accepted codes out. -/
theorem hexCodecLaws : Obligations.HexCodecLaws := by
  refine ⟨hexDec_hexEnc, fun s => ?decodes, fun s b h => hexEnc_of_hexDec_ok h, fun s b h => ?identity,
    hexEnc_length, fun s b h => hexDec_ok_length h, hexVal_eq_some_iff, by decide⟩
  case decodes => simp only [exists_hexDec_ok_iff, hexVal_isSome_iff]
  case identity => rw [hexEnc_of_hexDec_ok h, map_lowerHex_eq_self_iff]

/-! ### The two failures of a decoding -/

theorem hexDec_of_odd {s : Bytes} (hodd : s.length % 2 = 1) : hexDec s = .error .hexOdd := by
  cases h : hexDec s with
  | ok b =>
    obtain ⟨heven, -, -⟩ := (hexDec_ok_iff s b).1 h
    omega
  | error c =>
    obtain ⟨rfl, -⟩ | ⟨-, heven, -⟩ := hexDec_error_cases s c h
    · rfl
    · omega

theorem hexDec_of_nondigit {s : Bytes} {d : Byte} (heven : s.length % 2 = 0) (hd : d ∈ s) (hnone : hexVal d = none) :
    hexDec s = .error .hexDigit := by
  cases h : hexDec s with
  | ok b =>
    obtain ⟨-, hdigits, -⟩ := (hexDec_ok_iff s b).1 h
    have hsome := hdigits d hd
    rw [hnone] at hsome
    cases hsome
  | error c =>
    obtain ⟨-, hodd⟩ | ⟨rfl, -, -⟩ := hexDec_error_cases s c h
    · omega
    · rfl

end Sys2Proof.Machine
end

section
/-! The commands HEXENC and HEXDEC (spec/40_hex.md R104, R105): what they deliver, and where they fail. -/

namespace Sys2Proof.Machine

theorem operands_input_length (s : State) : s.operands.input.length = s.inLen.toNat := bytesAt_length s _ _

theorem operands_input_getElem? (s : State) {i : Nat} (hi : i < s.inLen.toNat) :
    s.operands.input[i]? = some (s.byteAt .inp i) := bytesAt_getElem? s _ _ i hi

theorem mem_operands_input_iff (s : State) (c : Byte) :
    c ∈ s.operands.input ↔ ∃ i, i < s.inLen.toNat ∧ s.byteAt .inp i = c := by
  simp [State.operands, State.bytesAt]

theorem hexencRule_of_le {o : Operands} (h : 2 * o.inLen ≤ o.cap) : hexencRule o = .ok (hexEnc o.input) :=
  if_neg (Nat.not_lt.2 h)

theorem hexencRule_of_gt {o : Operands} (h : 2 * o.inLen > o.cap) : hexencRule o = .error .capOut := if_pos h

/-- Settles O21: the result is the encoding of the input, whose digits `hexEnc_getElem?` gives by index. -/
theorem hexencDelivers : Obligations.HexencDelivers := by
  intro s hcap
  have hfits : s.inLen.toNat ≤ s.cap := by omega
  have hrule : ruleOf .hexenc s.operands = .ok (hexEnc s.operands.input) := hexencRule_of_le hcap
  obtain ⟨t, hexec, hdelivers⟩ := delivers_of_rule_ok hfits hrule
  refine ⟨t, _, hexec, hdelivers, by rw [hexEnc_length, operands_input_length], fun i hi => ?_⟩
  obtain ⟨hhigh, hlow⟩ := hexEnc_getElem? s.operands.input i
  rw [hhigh, hlow, operands_input_getElem? s hi]
  exact ⟨rfl, rfl⟩

/-- Settles O22: the result is the pairs of the input, and `hexPairs_getElem?` gives each by index. -/
theorem hexdecDelivers : Obligations.HexdecDelivers := by
  intro s hfits heven hdigits
  have hrule : ruleOf .hexdec s.operands = .ok (hexPairs s.operands.input) := by
    refine (hexDec_ok_iff _ _).2 ⟨by rwa [operands_input_length], fun c hc => ?_, rfl⟩
    obtain ⟨i, hi, rfl⟩ := (mem_operands_input_iff s c).1 hc
    exact hdigits i hi
  obtain ⟨t, hexec, hdelivers⟩ := delivers_of_rule_ok hfits hrule
  refine ⟨t, _, hexec, hdelivers, by rw [hexPairs_length, operands_input_length], fun j hj => ?_⟩
  have hhi : 2 * j < s.inLen.toNat := by omega
  have hlo : 2 * j + 1 < s.inLen.toNat := by omega
  obtain ⟨v, hv⟩ := Option.isSome_iff_exists.1 (hdigits _ hhi)
  obtain ⟨w, hw⟩ := Option.isSome_iff_exists.1 (hdigits _ hlo)
  exact ⟨v, w, _, hv, hw, hexPairs_getElem? (operands_input_getElem? s hhi) (operands_input_getElem? s hlo),
    toNat_hexPair hv hw⟩

/-- Settles O23: the input capacity check is the frame's, and past it each code is the rule's. -/
theorem hexCodecFails : Obligations.HexCodecFails := by
  refine fun s => ⟨fun hover => ⟨failsWith_capIn _ hover, failsWith_capIn _ hover⟩,
    fun hfits => ⟨fun hout => ?capOut, fun hodd => ?odd, fun heven hbad => ?digit⟩⟩
  case capOut => exact failsWith_of_rule_error hfits (hexencRule_of_gt hout)
  case odd =>
    have hlen : s.operands.input.length % 2 = 1 := by rwa [operands_input_length]
    exact failsWith_of_rule_error hfits (hexDec_of_odd hlen)
  case digit =>
    obtain ⟨i, hi, hnone⟩ := hbad
    have hlen : s.operands.input.length % 2 = 0 := by rwa [operands_input_length]
    have hmem : s.byteAt .inp i ∈ s.operands.input := (mem_operands_input_iff s _).2 ⟨i, hi, rfl⟩
    exact failsWith_of_rule_error hfits (hexDec_of_nondigit hlen hmem hnone)

end Sys2Proof.Machine
end

section
/-! The padding codec (spec/41_padding.md R120, R121, R124): a padding by index, `Unpad` told from the last byte, and
the laws, which all rest on one fact: `Unpad` undoes exactly the appending of p bytes of value p, 1 <= p <= 16. -/

namespace Sys2Proof.Machine

/-! ### Padding -/

theorem padCount_pos (n : Nat) : 1 ≤ padCount n := by
  simp only [padCount, Config.BLOCK]
  omega

theorem padCount_le (n : Nat) : padCount n ≤ 16 := Nat.sub_le _ _

/-- The number of padding bytes is what brings the length to a multiple of 16, and no other number from 1 to 16
does (R120). -/
theorem eq_padCount_of_add_mod {n r : Nat} (hlo : 1 ≤ r) (hhi : r ≤ 16) (h : (n + r) % 16 = 0) : r = padCount n := by
  simp only [padCount, Config.BLOCK]
  omega

/-- The value of a padding byte is the number of padding bytes: it fits in a byte. -/
theorem toNat_ofNat_padCount (n : Nat) : (BitVec.ofNat 8 (padCount n)).toNat = padCount n := by
  have hle := padCount_le n
  rw [BitVec.toNat_ofNat]
  exact Nat.mod_eq_of_lt (by omega)

theorem pad_getElem?_of_lt {b : Bytes} {i : Nat} (hi : i < b.length) : (pad b)[i]? = b[i]? :=
  List.getElem?_append_left hi

theorem pad_getElem?_of_le {b : Bytes} {i : Nat} (hlo : b.length ≤ i) (hhi : i < (pad b).length) :
    (pad b)[i]? = some (BitVec.ofNat 8 (padCount b.length)) := by
  rw [pad_length, paddedLen] at hhi
  rw [pad, List.getElem?_append_right hlo, List.getElem?_replicate, if_pos (by omega)]

/-! ### Unpadding -/

theorem unpad_nil : unpad [] = .error .padEmpty := rfl

/-- The checks of R121 on a sequence whose last byte is p, in their order, with p as a number. -/
theorem unpad_of_getLast? {c : Bytes} {p : Byte} (hlast : c.getLast? = some p) :
    unpad c =
      if p.toNat = 0 then .error .padZero
      else if p.toNat > 16 then .error .padOver
      else if c.length < p.toNat then .error .padShort
      else if ∀ d ∈ c.drop (c.length - p.toNat), d = p then .ok (c.take (c.length - p.toNat))
      else .error .padMismatch := by
  have hzero : p = 0x00#8 ↔ p.toNat = 0 := BitVec.toNat_inj.symm
  have hmismatch : (c.drop (c.length - p.toNat)).any (fun d => d != p) = true ↔
      ¬ ∀ d ∈ c.drop (c.length - p.toNat), d = p := by
    simp only [List.any_eq_true, bne_iff_ne, not_forall, exists_prop]
  simp only [unpad, hlast, hzero, hmismatch, ite_not]

/-- A well-formed padding is p bytes of value p after the rest, 1 <= p <= 16 (R121). -/
theorem unpad_ok_iff (c b : Bytes) : unpad c = .ok b ↔
    ∃ p : Byte, 1 ≤ p.toNat ∧ p.toNat ≤ 16 ∧ c = b ++ List.replicate p.toNat p := by
  constructor
  · intro h
    obtain ⟨p, hlast, hlo, hhi, hle, rfl⟩ := unpad_ok_length c b h
    rw [unpad_of_getLast? hlast, if_neg (by omega), if_neg (by omega), if_neg (by omega)] at h
    split_ifs at h with hall
    have hlen : (c.drop (c.length - p.toNat)).length = p.toNat := by
      rw [List.length_drop]
      omega
    refine ⟨p, hlo, hhi, ?_⟩
    rw [← List.eq_replicate_iff.2 ⟨hlen, hall⟩, List.take_append_drop]
  · rintro ⟨p, hlo, hhi, rfl⟩
    have hlen : (b ++ List.replicate p.toNat p).length - p.toNat = b.length := by
      rw [List.length_append, List.length_replicate, Nat.add_sub_cancel]
    have hlast : (b ++ List.replicate p.toNat p).getLast? = some p := by
      rw [List.getLast?_append, List.getLast?_replicate, if_neg (by omega), Option.some_or]
    have hall : ∀ d ∈ List.replicate p.toNat p, d = p := fun d hd => List.eq_of_mem_replicate hd
    rw [unpad_of_getLast? hlast, hlen, List.drop_left, List.take_left, if_neg (by omega), if_neg (by omega),
      if_neg (by rw [List.length_append, List.length_replicate]; omega), if_pos hall]

/-! ### The laws of the codec -/

/-- Law 3 of R124. -/
theorem unpad_pad (b : Bytes) : unpad (pad b) = .ok b := by
  refine (unpad_ok_iff _ _).2 ⟨BitVec.ofNat 8 (padCount b.length), ?_⟩
  rw [toNat_ofNat_padCount]
  exact ⟨padCount_pos _, padCount_le _, rfl⟩

/-- Law 4 of R124: the length condition fixes the number of padding bytes. -/
theorem pad_of_unpad_ok {b c : Bytes} (h : unpad c = .ok b) (hblocks : c.length % 16 = 0) : pad b = c := by
  obtain ⟨p, hlo, hhi, rfl⟩ := (unpad_ok_iff c b).1 h
  rw [List.length_append, List.length_replicate] at hblocks
  rw [pad, ← eq_padCount_of_add_mod hlo hhi hblocks, BitVec.ofNat_toNat, BitVec.setWidth_eq]

/-- Law 5 of R124. -/
theorem pad_injective : Function.Injective pad := fun b c h =>
  Except.ok.inj ((unpad_pad b).symm.trans ((congrArg unpad h).trans (unpad_pad c)))

/-- Settles O28: laws 1 and 2 are the length of a padding, and laws 3 to 5 the lemmas above. -/
theorem paddingLaws : Obligations.PaddingLaws := by
  refine ⟨fun b => ?adds, fun b => ⟨?multiple, ?positive⟩, unpad_pad, fun b c h hblocks => pad_of_unpad_ok h hblocks,
    fun b c h => pad_injective h⟩
  case adds =>
    rw [pad_length, paddedLen, Nat.add_sub_cancel_left]
    exact ⟨padCount_pos _, padCount_le _⟩
  case multiple => rw [pad_length, paddedLen_mod]
  case positive =>
    rw [pad_length, paddedLen_eq]
    omega

end Sys2Proof.Machine
end

section
/-! The commands PAD and UNPAD (spec/41_padding.md R122, R123): what they deliver, and where they fail. -/

namespace Sys2Proof.Machine

theorem padRule_of_le {o : Operands} (h : o.inLen + 16 - o.inLen % 16 ≤ o.cap) : padRule o = .ok (pad o.input) :=
  if_neg (by rw [paddedLen_eq]; omega)

theorem padRule_of_gt {o : Operands} (h : o.inLen + 16 - o.inLen % 16 > o.cap) : padRule o = .error .capOut :=
  if_pos (by rwa [paddedLen_eq])

/-- The bytes of the input from index k on. -/
theorem mem_operands_input_drop_iff (s : State) (k : Nat) (c : Byte) :
    c ∈ s.operands.input.drop k ↔ ∃ i, k ≤ i ∧ i < s.inLen.toNat ∧ s.byteAt .inp i = c := by
  simp only [State.operands, State.bytesAt, List.mem_drop_iff_getElem, List.getElem_map, List.getElem_range,
    List.length_map, List.length_range]
  constructor
  · rintro ⟨j, hj, rfl⟩
    exact ⟨k + j, Nat.le_add_right k j, by omega, rfl⟩
  · rintro ⟨i, hfrom, hi, rfl⟩
    exact ⟨i - k, by omega, by rw [Nat.add_sub_cancel' hfrom]⟩

/-- The checks of UNPAD on the state's own bytes: `unpad_of_getLast?` on a non-empty input (R123). -/
theorem unpadRule_of_pos {s : State} {p : Nat} (hpos : 0 < s.inLen.toNat)
    (hlast : (s.byteAt .inp (s.inLen.toNat - 1)).toNat = p) :
    unpadRule s.operands =
      if p = 0 then .error .padZero
      else if p > 16 then .error .padOver
      else if s.inLen.toNat < p then .error .padShort
      else if ∀ i, s.inLen.toNat - p ≤ i → i < s.inLen.toNat → (s.byteAt .inp i).toNat = p then
        .ok (s.operands.input.take (s.inLen.toNat - p))
      else .error .padMismatch := by
  subst hlast
  have hlast : s.operands.input.getLast? = some (s.byteAt .inp (s.inLen.toNat - 1)) := bytesAt_getLast? s .inp hpos
  have hpadding (k : Nat) (p : Byte) : (∀ d ∈ s.operands.input.drop k, d = p) ↔
      ∀ i, k ≤ i → i < s.inLen.toNat → (s.byteAt .inp i).toNat = p.toNat := by
    simp only [mem_operands_input_drop_iff, BitVec.toNat_inj]
    exact ⟨fun h i hfrom hi => h _ ⟨i, hfrom, hi, rfl⟩, fun h d ⟨i, hfrom, hi, hd⟩ => hd ▸ h i hfrom hi⟩
  simp only [unpadRule, unpad_of_getLast? hlast, operands_input_length, hpadding]

/-- Settles O25: the result is the padding of the input, whose bytes the codec's lemmas give by index. -/
theorem padDelivers : Obligations.PadDelivers := by
  intro s hcap
  have hfits : s.inLen.toNat ≤ s.cap := by omega
  have hrule : ruleOf .pad s.operands = .ok (pad s.operands.input) := padRule_of_le hcap
  have hlen : s.operands.input.length = s.inLen.toNat := operands_input_length s
  obtain ⟨t, hexec, hdelivers⟩ := delivers_of_rule_ok hfits hrule
  refine ⟨t, _, hexec, hdelivers, ?length, fun i hi => ?input, fun i hlo hhi => ?padding⟩
  case length => rw [pad_length, hlen, paddedLen_eq]
  case input => rw [pad_getElem?_of_lt (hi.trans_eq hlen.symm), operands_input_getElem? s hi]
  case padding =>
    rw [pad_getElem?_of_le (hlen.trans_le hlo) hhi, hlen]
    rfl

/-- Settles O26: every check of `Unpad` passes, and the result is the input up to the padding. -/
theorem unpadDelivers : Obligations.UnpadDelivers := by
  intro s p hfits hlo hhi hle hpadding
  have hlast : (s.byteAt .inp (s.inLen.toNat - 1)).toNat = p := hpadding _ (by omega) (by omega)
  have hrule : ruleOf .unpad s.operands = .ok (s.operands.input.take (s.inLen.toNat - p)) := by
    rw [ruleOf, unpadRule_of_pos (by omega) hlast, if_neg (by omega), if_neg (by omega), if_neg (by omega),
      if_pos hpadding]
  have hlen : (s.operands.input.take (s.inLen.toNat - p)).length = s.inLen.toNat - p := by
    rw [List.length_take, operands_input_length, Nat.min_eq_left (Nat.sub_le _ _)]
  obtain ⟨t, hexec, hdelivers⟩ := delivers_of_rule_ok hfits hrule
  refine ⟨t, _, hexec, hdelivers, hlen, fun i hi => ?_⟩
  rw [hlen] at hi
  rw [List.getElem?_take_of_lt hi, operands_input_getElem? s (by omega)]

/-- Settles O27: the input capacity check is the frame's, and past it each code is that of the first check of the
rule that fails. -/
theorem paddingFails : Obligations.PaddingFails := by
  refine fun s => ⟨fun hover => ⟨failsWith_capIn _ hover, failsWith_capIn _ hover⟩,
    fun hfits => ⟨fun hout => failsWith_of_rule_error hfits (padRule_of_gt hout), fun hempty => ?empty,
      fun p hpos hlast => ?nonempty⟩⟩
  case empty =>
    have hnil : s.operands.input = [] := List.length_eq_zero_iff.1 ((operands_input_length s).trans hempty)
    exact failsWith_of_rule_error hfits ((congrArg unpad hnil).trans unpad_nil)
  case nonempty =>
    have hrule := unpadRule_of_pos hpos hlast
    refine ⟨fun hzero => ?zero, fun hbig => ?above, fun hlo hhi hshort => ?short,
      fun hlo hhi hle hbad => ?mismatch⟩ <;> refine failsWith_of_rule_error hfits (hrule.trans ?_)
    case zero => rw [if_pos hzero]
    case above => rw [if_neg (by omega), if_pos hbig]
    case short => rw [if_neg (by omega), if_neg (by omega), if_pos hshort]
    case mismatch =>
      obtain ⟨i, hfrom, hi, hne⟩ := hbad
      rw [if_neg (by omega), if_neg (by omega), if_neg (by omega), if_neg fun hall => hne (hall i hfrom hi)]

end Sys2Proof.Machine
end

section
/-! The field of bytes and the S-boxes (spec/42_aes256_block.md R140 to R142). The product is bilinear over the
exclusive or and commutes with `xtime`, and every byte is a sum of the eight powers `xtime^k(0x01)`: a law of the
product is linear in a byte, so it needs proving at these powers only. -/

namespace Sys2Proof.Machine

/-! ### The shift `xtime` -/

theorem byte_xor_left_comm (a b c : Byte) : a ^^^ (b ^^^ c) = b ^^^ (a ^^^ c) := by ac_rfl

@[simp] theorem xtime_xor (a b : Byte) : xtime (a ^^^ b) = xtime a ^^^ xtime b := by
  have hshift : (a ^^^ b) <<< 1 = a <<< 1 ^^^ b <<< 1 := BitVec.shiftLeft_xor_distrib a b 1
  unfold xtime
  rw [BitVec.getLsbD_xor, hshift]
  cases a.getLsbD 7 <;> cases b.getLsbD 7 <;> simp [BitVec.xor_assoc, BitVec.xor_comm, byte_xor_left_comm]

@[simp] theorem xtimePow_xor (k : Nat) (a b : Byte) : xtimePow k (a ^^^ b) = xtimePow k a ^^^ xtimePow k b := by
  induction k with
  | zero => rfl
  | succ k ih => simp only [xtimePow, ih, xtime_xor]

theorem xtimePow_xtime (k : Nat) (a : Byte) : xtimePow k (xtime a) = xtime (xtimePow k a) := by
  induction k with
  | zero => rfl
  | succ k ih => simp only [xtimePow, ih]

/-- The reduction is of a byte whose bit 7 is set, and the shift is the doubling that drops the carry. -/
theorem xtime_eq_double (a : Byte) : xtime a =
    if a.toNat < 128 then BitVec.ofNat 8 (2 * a.toNat) else BitVec.ofNat 8 (2 * a.toNat) ^^^ 0x1B#8 := by
  have hshift : a <<< 1 = BitVec.ofNat 8 (2 * a.toNat) := by
    apply BitVec.eq_of_toNat_eq
    simp [Nat.shiftLeft_eq, Nat.mul_comm]
  have hbit : a.getLsbD 7 = true ↔ ¬ a.toNat < 128 := by
    have hmsb : a.getLsbD 7 = decide (128 ≤ a.toNat) := BitVec.msb_eq_decide a
    rw [hmsb, decide_eq_true_iff, not_lt]
  rw [xtime, hshift, ite_cond_congr (propext hbit), ite_not]

/-! ### The product as a sum of multiples -/

/-- The step of the sum that `gfMul` is: add `xtime^k(a)` when bit k of b is 1. -/
def addMultiple (a b acc : Byte) (k : Nat) : Byte := if b.getLsbD k then acc ^^^ xtimePow k a else acc

theorem gfMul_eq_foldl (a b : Byte) : gfMul a b = (List.range 8).foldl (addMultiple a b) 0#8 := rfl

/-- What holds of 0, of the eight multiples `xtime^k(a)` and of sums holds of every product by a. -/
theorem gfMul_induction {P : Byte → Prop} (a b : Byte) (zero : P 0#8) (xor : ∀ x y, P x → P y → P (x ^^^ y))
    (power : ∀ k, k < 8 → P (xtimePow k a)) : P (gfMul a b) := by
  rw [gfMul_eq_foldl]
  refine List.foldlRecOn _ _ zero fun acc hacc k hk => ?_
  unfold addMultiple
  split_ifs
  · exact xor _ _ hacc (power k (List.mem_range.1 hk))
  · exact hacc

theorem gfMul_one_left : ∀ a : Byte, gfMul 0x01#8 a = a := by decide +kernel

/-- A byte is the sum of the powers `xtime^k(0x01)` at its bits. -/
theorem byte_induction {P : Byte → Prop} (b : Byte) (zero : P 0#8) (xor : ∀ x y, P x → P y → P (x ^^^ y))
    (power : ∀ k, k < 8 → P (xtimePow k 0x01#8)) : P b := by
  rw [← gfMul_one_left b]
  exact gfMul_induction 0x01#8 b zero xor power

theorem gfMul_xor_right (a b c : Byte) : gfMul a (b ^^^ c) = gfMul a b ^^^ gfMul a c := by
  refine List.foldl_hom₂ (List.range 8) (· ^^^ ·) (addMultiple a b) (addMultiple a c) (addMultiple a (b ^^^ c))
    0#8 0#8 fun x y k => ?_
  simp only [addMultiple, BitVec.getLsbD_xor]
  cases b.getLsbD k <;> cases c.getLsbD k <;> simp [BitVec.xor_assoc, BitVec.xor_comm, byte_xor_left_comm]

theorem gfMul_xtime_left (a b : Byte) : gfMul (xtime a) b = xtime (gfMul a b) := by
  have hstep (acc : Byte) (k : Nat) : addMultiple (xtime a) b (xtime acc) k = xtime (addMultiple a b acc k) := by
    unfold addMultiple
    split_ifs
    · rw [xtime_xor, xtimePow_xtime]
    · rfl
  exact (List.foldl_hom xtime hstep : (List.range 8).foldl (addMultiple (xtime a) b) (xtime 0#8) = _)

theorem gfMul_xtimePow_left (k : Nat) (a b : Byte) : gfMul (xtimePow k a) b = xtimePow k (gfMul a b) := by
  induction k with
  | zero => rfl
  | succ k ih => simp only [xtimePow, gfMul_xtime_left, ih]

/-- `xtime^k(0x01)` has bit k alone, so one multiple is added. -/
theorem gfMul_xtimePow_one {k : Nat} (hk : k < 8) (a : Byte) : gfMul a (xtimePow k 0x01#8) = xtimePow k a := by
  have hzero (x : Byte) : 0#8 ^^^ x = x := BitVec.zero_xor
  interval_cases k <;> exact hzero _

theorem gfMul_zero_right (a : Byte) : gfMul a 0#8 = 0#8 := rfl

/-! ### The laws of the field -/

theorem gfMul_xor_left (a b c : Byte) : gfMul (a ^^^ b) c = gfMul a c ^^^ gfMul b c := by
  induction c using byte_induction with
  | zero => simp only [gfMul_zero_right, BitVec.xor_self]
  | xor x y hx hy =>
    rw [gfMul_xor_right, gfMul_xor_right, gfMul_xor_right, hx, hy]
    ac_rfl
  | power k hk => simp only [gfMul_xtimePow_one hk, xtimePow_xor]

theorem gfMul_zero_left (b : Byte) : gfMul 0#8 b = 0#8 := by
  have h := gfMul_xor_left 0#8 0#8 b
  rwa [BitVec.xor_self, BitVec.xor_self] at h

theorem gfMul_comm (a b : Byte) : gfMul a b = gfMul b a := by
  induction b using byte_induction with
  | zero => rw [gfMul_zero_left, gfMul_zero_right]
  | xor x y hx hy => rw [gfMul_xor_right, gfMul_xor_left, hx, hy]
  | power k hk => rw [gfMul_xtimePow_one hk, gfMul_xtimePow_left, gfMul_one_left]

theorem gfMul_assoc (a b c : Byte) : gfMul (gfMul a b) c = gfMul a (gfMul b c) := by
  induction c using byte_induction with
  | zero => simp only [gfMul_zero_right]
  | xor x y hx hy => simp only [gfMul_xor_right, hx, hy]
  | power k hk =>
    calc gfMul (gfMul a b) (xtimePow k 0x01#8) = xtimePow k (gfMul b a) := by
          rw [gfMul_xtimePow_one hk, gfMul_comm a b]
      _ = gfMul a (xtimePow k b) := by rw [← gfMul_xtimePow_left, gfMul_comm]
      _ = gfMul a (gfMul b (xtimePow k 0x01#8)) := by rw [gfMul_xtimePow_one hk]

/-! ### The inverse -/

/-- The map that undoes `sboxAffine`. -/
def sboxAffineInv (y : Byte) : Byte := rotl8 y 1 ^^^ rotl8 y 3 ^^^ rotl8 y 6 ^^^ 0x05#8

theorem sboxAffine_sboxAffineInv : ∀ y : Byte, sboxAffine (sboxAffineInv y) = y := by decide +kernel

/-- The inverse of a byte, read off the table of R141, whose entry is the affine image of the inverse. -/
def gfInv (a : Byte) : Byte := sboxAffineInv (sbox a)

theorem gfMul_gfInv : ∀ a : Byte, a ≠ 0#8 → gfMul a (gfInv a) = 0x01#8 := by decide +kernel

theorem ne_zero_of_gfMul_eq_one {a b : Byte} (h : gfMul a b = 0x01#8) : a ≠ 0#8 := by
  rintro rfl
  rw [gfMul_zero_left] at h
  exact absurd h (by decide)

/-- An inverse is unique: b = (a⁻¹ • a) • b = a⁻¹ • (a • b) = a⁻¹. -/
theorem eq_gfInv {a b : Byte} (h : gfMul a b = 0x01#8) : b = gfInv a := by
  have hinv : gfMul (gfInv a) a = 0x01#8 := by rw [gfMul_comm, gfMul_gfInv a (ne_zero_of_gfMul_eq_one h)]
  calc b = gfMul (gfMul (gfInv a) a) b := by rw [hinv, gfMul_one_left]
    _ = gfInv a := by rw [gfMul_assoc, h, gfMul_comm, gfMul_one_left]

/-! ### The multiples that the cipher uses -/

/-- Each listed form is a combination of shifts, which the product by a carries over from the byte 0x01. -/
theorem multiples_eq_gfMul (a : Byte) : mul02 a = gfMul 0x02#8 a ∧ mul03 a = gfMul 0x03#8 a ∧
    mul09 a = gfMul 0x09#8 a ∧ mul0B a = gfMul 0x0B#8 a ∧ mul0D a = gfMul 0x0D#8 a ∧ mul0E a = gfMul 0x0E#8 a := by
  have hforms : mul02 0x01#8 = 0x02#8 ∧ mul03 0x01#8 = 0x03#8 ∧ mul09 0x01#8 = 0x09#8 ∧
      mul0B 0x01#8 = 0x0B#8 ∧ mul0D 0x01#8 = 0x0D#8 ∧ mul0E 0x01#8 = 0x0E#8 := by decide
  obtain ⟨h2, h3, h9, hB, hD, hE⟩ := hforms
  rw [← h2, ← h3, ← h9, ← hB, ← hD, ← hE]
  simp only [mul02, mul03, mul09, mul0B, mul0D, mul0E, gfMul_xor_left, gfMul_xtimePow_left, gfMul_xtime_left,
    gfMul_one_left, and_self]

/-- Settles O29: the laws of the product, the inverse, and the listed multiples, each by its lemma. -/
theorem fieldOfBytes : Obligations.FieldOfBytes :=
  ⟨xtime_eq_double, gfMul_comm, gfMul_assoc, gfMul_xor_right, gfMul_one_left,
    fun a ha => ⟨gfInv a, gfMul_gfInv a ha, fun _ hc => eq_gfInv hc⟩, multiples_eq_gfMul⟩

/-! ### The S-boxes -/

theorem invSbox_sbox : ∀ a : Byte, invSbox (sbox a) = a := by decide +kernel

/-- A left inverse on a finite set is a right inverse too. -/
theorem sbox_invSbox (a : Byte) : sbox (invSbox a) = a :=
  have hsurj : Function.Surjective sbox := Finite.surjective_of_injective (Function.LeftInverse.injective invSbox_sbox)
  Function.LeftInverse.rightInverse_of_surjective invSbox_sbox hsurj a

/-- Settles O30: a byte's inverse is the one read off the table, whose affine image is the entry. -/
theorem sboxTables : Obligations.SboxTables := by
  refine ⟨by decide, fun a b h => ?_, fun a => ⟨invSbox_sbox a, sbox_invSbox a⟩⟩
  rw [eq_gfInv h, gfInv, sboxAffine_sboxAffineInv]

end Sys2Proof.Machine
end

section
/-! Key words and the key expansion (spec/42_aes256_block.md R145, R147). -/

namespace Sys2Proof.Machine

/-! ### Sequences of bytes -/

theorem xorBytes_getElem?_of_some {x y : Bytes} {i : Nat} {a b : Byte} (hx : x[i]? = some a) (hy : y[i]? = some b) :
    (xorBytes x y)[i]? = some (a ^^^ b) := by
  rw [xorBytes, List.getElem?_zipWith, hx, hy]

/-- Sequences of n bytes each, one after the other: byte i is in sequence i div n, at i mod n. -/
theorem flatten_getElem?_of_lengths {n : Nat} (hn : 0 < n) {ws : List Bytes} (h : ∀ v ∈ ws, v.length = n) (i : Nat) :
    ws.flatten[i]? = ws[i / n]?.bind fun v => v[i % n]? := by
  induction ws generalizing i with
  | nil => rfl
  | cons v ws ih =>
    obtain ⟨hv, hws⟩ := List.forall_mem_cons.1 h
    rw [List.flatten_cons]
    by_cases hi : i < n
    · rw [List.getElem?_append_left (by omega), Nat.div_eq_of_lt hi, Nat.mod_eq_of_lt hi]
      rfl
    · have hle : n ≤ i := Nat.le_of_not_lt hi
      rw [List.getElem?_append_right (by omega), hv, ih hws, Nat.div_eq_sub_div hn hle, Nat.mod_eq_sub_mod hle,
        List.getElem?_cons_succ]

/-! ### The words of the schedule -/

theorem keyWords_getElem? (k : Bytes) {i : Nat} (hi : i < 8) : (keyWords k)[i]? = some ((k.drop (4 * i)).take 4) := by
  rw [keyWords, List.getElem?_map, List.getElem?_range hi]
  rfl

theorem expandWords_add (m n i : Nat) (newest : List Bytes) :
    expandWords (m + n) i newest = expandWords n (i + m) (expandWords m i newest) := by
  induction m generalizing i newest with
  | zero => rw [Nat.zero_add, Nat.add_zero, expandWords]
  | succ m ih => rw [Nat.succ_add, expandWords, ih, expandWords, Nat.succ_add_eq_add_succ]

/-- Words once made stay at their index. -/
theorem expandWords_reverse_getElem? (n i : Nat) {newest : List Bytes} {j : Nat} (hj : j < newest.length) :
    (expandWords n i newest).reverse[j]? = newest.reverse[j]? := by
  induction n generalizing i newest with
  | zero => rfl
  | succ n ih =>
    rw [expandWords, ih (newest := nextKeyWord i newest :: newest) (i + 1) (Nat.lt_succ_of_lt hj), List.reverse_cons,
      List.getElem?_append_left (by rwa [List.length_reverse])]

/-- The words before `w[i]`, newest first: those that R147 makes `w[i]` from. -/
def wordsBefore (k : Bytes) (i : Nat) : List Bytes := expandWords (i - 8) 8 (keyWords k).reverse

theorem wordsBefore_length (k : Bytes) {i : Nat} (hi : 8 ≤ i) : (wordsBefore k i).length = i := by
  have hkey : (keyWords k).reverse.length = 8 := by rw [List.length_reverse, keyWords, List.length_map]; rfl
  rw [wordsBefore, expandWords_length, hkey, Nat.sub_add_cancel hi]

/-- Word i - 1 - j of the words before `w[i]` is the one at j from the newest. -/
theorem wordsBefore_reverse_getElem? (k : Bytes) {i j l : Nat} (hi : 8 ≤ i) (hl : l + j + 1 = i) :
    (wordsBefore k i).reverse[l]? = some ((wordsBefore k i).getD j []) := by
  have hlen := wordsBefore_length k hi
  have hj : j < (wordsBefore k i).length := by omega
  rw [List.getElem?_reverse (by omega), List.getD_eq_getElem _ _ hj, ← List.getElem?_eq_getElem hj]
  congr 1
  omega

theorem keyExpansion_eq_expandWords (k : Bytes) {i : Nat} (hlo : 8 ≤ i) (hhi : i < 60) :
    keyExpansion k =
      (expandWords (59 - i) (i + 1) (nextKeyWord i (wordsBefore k i) :: wordsBefore k i)).reverse := by
  have hcount : Config.NB * (Config.NR + 1) - Config.NK = (i - 8) + ((59 - i) + 1) := by
    show 52 = _
    omega
  rw [keyExpansion, hcount, expandWords_add, Nat.add_sub_cancel' hlo, expandWords]
  rfl

theorem keyExpansion_getElem?_of_lt_eight (k : Bytes) {i : Nat} (hi : i < 8) :
    (keyExpansion k)[i]? = some ((k.drop (4 * i)).take 4) := by
  rw [keyExpansion, expandWords_reverse_getElem? _ _ (by rwa [List.length_reverse, keyWords, List.length_map]),
    List.reverse_reverse, keyWords_getElem? k hi]

theorem keyExpansion_getElem?_of_lt (k : Bytes) {i l : Nat} (hlo : 8 ≤ i) (hhi : i < 60) (hl : l < i) :
    (keyExpansion k)[l]? = (wordsBefore k i).reverse[l]? := by
  have hlen := wordsBefore_length k hlo
  rw [keyExpansion_eq_expandWords k hlo hhi,
    expandWords_reverse_getElem? _ _ (by rw [List.length_cons, hlen]; omega), List.reverse_cons,
    List.getElem?_append_left (by rwa [List.length_reverse, hlen])]

theorem keyExpansion_getElem? (k : Bytes) {i : Nat} (hlo : 8 ≤ i) (hhi : i < 60) :
    (keyExpansion k)[i]? = some (nextKeyWord i (wordsBefore k i)) := by
  have hlen := wordsBefore_length k hlo
  rw [keyExpansion_eq_expandWords k hlo hhi, expandWords_reverse_getElem? _ _ (by rw [List.length_cons, hlen]; omega),
    List.reverse_cons, List.getElem?_append_right (by rw [List.length_reverse, hlen]), List.length_reverse, hlen,
    Nat.sub_self]
  rfl

/-- The recurrence of R147. -/
theorem keyExpansion_recurrence (k : Bytes) {i : Nat} (hlo : 8 ≤ i) (hhi : i < 60) : ∃ u t,
    (keyExpansion k)[i - 8]? = some u ∧ (keyExpansion k)[i - 1]? = some t ∧
    (keyExpansion k)[i]? = some (xorBytes u (scheduleTemp i t)) := by
  refine ⟨(wordsBefore k i).getD 7 [], (wordsBefore k i).getD 0 [], ?oldest, ?newest, keyExpansion_getElem? k hlo hhi⟩
  case oldest =>
    rw [keyExpansion_getElem?_of_lt k hlo hhi (by omega), wordsBefore_reverse_getElem? (j := 7) k hlo (by omega)]
  case newest =>
    rw [keyExpansion_getElem?_of_lt k hlo hhi (by omega), wordsBefore_reverse_getElem? (j := 0) k hlo (by omega)]

/-! ### The round keys -/

theorem roundKey_eq_flatten (w : List Bytes) (r : Nat) :
    roundKey w r = ((List.range 4).map fun j => w.getD (4 * r + j) []).flatten := by
  simp [roundKey, List.range_succ]

/-- Byte i of a round key is byte i mod 4 of word 4r + i div 4. -/
theorem roundKey_getElem? {k : Bytes} (hk : k.length = 32) {r i : Nat} (hr : r ≤ 14) (hi : i < 16) :
    (roundKey (keyExpansion k) r)[i]? = (keyExpansion k)[4 * r + i / 4]?.bind fun v => v[i % 4]? := by
  have hin (j : Nat) (hj : j < 4) : 4 * r + j < (keyExpansion k).length := by
    rw [keyExpansion_length]
    omega
  have hwords : ∀ v ∈ (List.range 4).map (fun j => (keyExpansion k).getD (4 * r + j) []), v.length = 4 := by
    rw [List.forall_mem_map]
    exact fun j hj => (keyExpansion_wf hk).getD_length (hin j (List.mem_range.1 hj))
  have hj : i / 4 < 4 := by omega
  rw [roundKey_eq_flatten, flatten_getElem?_of_lengths (by decide) hwords, List.getElem?_map, List.getElem?_range hj,
    Option.map_some, List.getD_eq_getElem _ _ (hin _ hj), List.getElem?_eq_getElem (hin _ hj)]

/-- Settles O31: the words by index, from the words that the loop has made before. -/
theorem keyExpansionWords : Obligations.KeyExpansionWords := by
  refine ⟨fun x y hxy => ⟨?length, fun i hi => ?bytes⟩, fun _ _ _ _ => ⟨rfl, rfl⟩, fun _ => rfl, rfl,
    fun j hj => ?constants, fun k hk => ⟨keyExpansion_length k, (keyExpansion_wf hk).word_length,
      fun i hi => keyExpansion_getElem?_of_lt_eight k hi, fun i hlo hhi => keyExpansion_recurrence k hlo hhi,
      fun r hr => ⟨roundKey_length hk hr, fun i hi => roundKey_getElem? hk hr hi⟩⟩⟩
  case length => rw [xorBytes_length, ← hxy, Nat.min_self]
  case bytes =>
    have hx := List.getElem?_eq_getElem hi
    have hy := List.getElem?_eq_getElem (hi.trans_eq hxy)
    exact ⟨_, _, hx, hy, xorBytes_getElem?_of_some hx hy⟩
  case constants =>
    obtain ⟨j, rfl⟩ := Nat.exists_eq_add_of_le' hj
    rfl

end Sys2Proof.Machine
end

section
/-! The round transformations (spec/42_aes256_block.md R148 to R151): each byte by byte, and each undone by its
partner. -/

namespace Sys2Proof.Machine

/-! ### AddRoundKey (R148) -/

theorem xorBytes_xorBytes_cancel {x y : Bytes} (h : x.length ≤ y.length) : xorBytes (xorBytes x y) y = x := by
  induction x generalizing y with
  | nil => rfl
  | cons a x ih =>
    cases y with
    | nil => exact absurd h (by simp)
    | cons b y =>
      have hrest : xorBytes (xorBytes x y) y = x := ih (Nat.le_of_succ_le_succ h)
      have hhead : a ^^^ b ^^^ b = a := by rw [BitVec.xor_assoc, BitVec.xor_self, BitVec.xor_zero]
      exact congrArg₂ List.cons hhead hrest

section
variable {k s : Bytes} {r : Nat}

theorem addRoundKey_length (hk : k.length = 32) (hs : s.length = 16) (hr : r ≤ 14) :
    (addRoundKey s (keyExpansion k) r).length = 16 := by
  rw [addRoundKey, xorBytes_length, roundKey_length hk hr, hs, Nat.min_self]

theorem addRoundKey_addRoundKey (hk : k.length = 32) (hs : s.length = 16) (hr : r ≤ 14) :
    addRoundKey (addRoundKey s (keyExpansion k) r) (keyExpansion k) r = s :=
  xorBytes_xorBytes_cancel (by rw [roundKey_length hk hr, hs])

theorem addRoundKey_bytes (hk : k.length = 32) (hs : s.length = 16) (hr : r ≤ 14) {i : Nat} (hi : i < 16) :
    ∃ a v b, s[i]? = some a ∧ (keyExpansion k)[4 * r + i / 4]? = some v ∧ v[i % 4]? = some b ∧
      (addRoundKey s (keyExpansion k) r)[i]? = some (a ^^^ b) := by
  have hstate := List.getElem?_eq_getElem (l := s) (hi.trans_eq hs.symm)
  have hround := List.getElem?_eq_getElem (hi.trans_eq (roundKey_length hk hr).symm)
  obtain ⟨v, hv, hb⟩ := Option.bind_eq_some_iff.1 ((roundKey_getElem? hk hr hi).symm.trans hround)
  exact ⟨_, v, _, hstate, hv, hb, xorBytes_getElem?_of_some hstate hround⟩

end

/-! ### SubBytes (R149) -/

theorem invSubBytes_subBytes (s : Bytes) : invSubBytes (subBytes s) = s := by
  rw [invSubBytes, subBytes, List.map_map, funext invSbox_sbox (f := invSbox ∘ sbox) (g := id), List.map_id]

theorem subBytes_invSubBytes (s : Bytes) : subBytes (invSubBytes s) = s := by
  rw [invSubBytes, subBytes, List.map_map, funext sbox_invSbox (f := sbox ∘ invSbox) (g := id), List.map_id]

/-! ### ShiftRows (R150) -/

/-- The bytes of s in the order that a list of indices gives. -/
def pickBytes (order : List Nat) (s : Bytes) : Bytes := order.map fun i => s.getD i 0#8

theorem shiftRows_eq_pickBytes (s : Bytes) : shiftRows s = pickBytes shiftRowsOrder s := rfl

theorem invShiftRows_eq_pickBytes (s : Bytes) : invShiftRows s = pickBytes invShiftRowsOrder s := rfl

theorem shiftRows_length (s : Bytes) : (shiftRows s).length = 16 := rfl

theorem invShiftRows_length (s : Bytes) : (invShiftRows s).length = 16 := rfl

theorem pickBytes_getElem? {order : List Nat} {s : Bytes} {i p : Nat} (hi : order[i]? = some p) (hp : p < s.length) :
    (pickBytes order s)[i]? = s[p]? := by
  rw [pickBytes, List.getElem?_map, hi, Option.map_some, List.getD_eq_getElem _ _ hp, List.getElem?_eq_getElem hp]

theorem pickBytes_range (s : Bytes) : pickBytes (List.range s.length) s = s := by
  refine List.ext_getElem? fun i => ?_
  by_cases hi : i < s.length
  · exact pickBytes_getElem? (List.getElem?_range hi) hi
  · rw [List.getElem?_eq_none (by simpa [pickBytes] using hi), List.getElem?_eq_none (Nat.le_of_not_lt hi)]

/-- Picking from picked bytes is picking in the composed order. -/
theorem pickBytes_pickBytes {p q : List Nat} (hp : ∀ i ∈ p, i < q.length) (s : Bytes) :
    pickBytes p (pickBytes q s) = pickBytes (p.map fun i => q.getD i 0) s := by
  rw [pickBytes, pickBytes, pickBytes, List.map_map]
  refine List.map_congr_left fun i hi => ?_
  have hq := hp i hi
  rw [Function.comp_apply, List.getD_eq_getElem _ _ (by rwa [List.length_map]), List.getElem_map,
    List.getD_eq_getElem q _ hq]

theorem pickBytes_map {order : List Nat} {s : Bytes} (f : Byte → Byte) (h : ∀ i ∈ order, i < s.length) :
    pickBytes order (s.map f) = (pickBytes order s).map f := by
  rw [pickBytes, pickBytes, List.map_map]
  refine List.map_congr_left fun i hi => ?_
  have hs := h i hi
  rw [Function.comp_apply, List.getD_eq_getElem _ _ (by rwa [List.length_map]), List.getElem_map,
    List.getD_eq_getElem s _ hs]

section
variable {s : Bytes}

theorem invShiftRows_shiftRows (hs : s.length = 16) : invShiftRows (shiftRows s) = s := by
  have horder : (invShiftRowsOrder.map fun i => shiftRowsOrder.getD i 0) = List.range 16 := by decide
  rw [invShiftRows_eq_pickBytes, shiftRows_eq_pickBytes, pickBytes_pickBytes (by decide), horder, ← hs,
    pickBytes_range]

theorem shiftRows_invShiftRows (hs : s.length = 16) : shiftRows (invShiftRows s) = s := by
  have horder : (shiftRowsOrder.map fun i => invShiftRowsOrder.getD i 0) = List.range 16 := by decide
  rw [shiftRows_eq_pickBytes, invShiftRows_eq_pickBytes, pickBytes_pickBytes (by decide), horder, ← hs,
    pickBytes_range]

theorem invShiftRows_invSubBytes (hs : s.length = 16) : invShiftRows (invSubBytes s) = invSubBytes (invShiftRows s) :=
  pickBytes_map invSbox (by rw [hs]; decide)

/-- The flat orders are those of the formulas of R150. -/
theorem shiftRowsOrder_getElem? : ∀ r < 4, ∀ c < 4, shiftRowsOrder[r + 4 * c]? = some (r + 4 * ((c + r) % 4)) ∧
    invShiftRowsOrder[r + 4 * ((c + r) % 4)]? = some (r + 4 * c) := by decide

theorem shiftRows_bytes (hs : s.length = 16) {r c : Nat} (hr : r < 4) (hc : c < 4) :
    (shiftRows s)[r + 4 * c]? = s[r + 4 * ((c + r) % 4)]? ∧
    (invShiftRows s)[r + 4 * ((c + r) % 4)]? = s[r + 4 * c]? := by
  obtain ⟨hshift, hinv⟩ := shiftRowsOrder_getElem? r hr c hc
  exact ⟨pickBytes_getElem? hshift (by omega), pickBytes_getElem? hinv (by omega)⟩

end

/-! ### MixColumns (R151) -/

/-- A function from the four bytes of a column to a sequence, applied to each column. -/
def mapColumns (f : Byte → Byte → Byte → Byte → Bytes) : Bytes → Bytes
  | a0 :: a1 :: a2 :: a3 :: rest => f a0 a1 a2 a3 ++ mapColumns f rest
  | _ => []

/-- What makes a function of a column's bytes a map of columns: it gives four bytes. -/
def KeepsColumns (f : Byte → Byte → Byte → Byte → Bytes) : Prop := ∀ a0 a1 a2 a3, (f a0 a1 a2 a3).length = 4

theorem mixColumn_keepsColumns : KeepsColumns mixColumn := fun _ _ _ _ => rfl

theorem invMixColumn_keepsColumns : KeepsColumns invMixColumn := fun _ _ _ _ => rfl

theorem mixColumns_eq_mapColumns (s : Bytes) : mixColumns s = mapColumns mixColumn s := by
  fun_induction mixColumns s with
  | case1 a0 a1 a2 a3 rest ih => rw [mapColumns, ih]
  | case2 s hshort => rw [mapColumns]; exact hshort

theorem invMixColumns_eq_mapColumns (s : Bytes) : invMixColumns s = mapColumns invMixColumn s := by
  fun_induction invMixColumns s with
  | case1 a0 a1 a2 a3 rest ih => rw [mapColumns, ih]
  | case2 s hshort => rw [mapColumns]; exact hshort

theorem exists_four_bytes {v : Bytes} (h : v.length = 4) : ∃ a0 a1 a2 a3, v = [a0, a1, a2, a3] := by
  match v, h with
  | [a0, a1, a2, a3], _ => exact ⟨a0, a1, a2, a3, rfl⟩

/-- A sequence of n + 1 columns is a first column and n more. -/
theorem exists_first_column {s : Bytes} {n : Nat} (hs : s.length = 4 * (n + 1)) :
    ∃ a0 a1 a2 a3 rest, s = a0 :: a1 :: a2 :: a3 :: rest ∧ rest.length = 4 * n := by
  obtain ⟨a0, a1, a2, a3, hfirst⟩ := exists_four_bytes (v := s.take 4) (by rw [List.length_take]; omega)
  refine ⟨a0, a1, a2, a3, s.drop 4, ?_, by rw [List.length_drop]; omega⟩
  calc s = s.take 4 ++ s.drop 4 := (List.take_append_drop 4 s).symm
    _ = _ := by rw [hfirst]; rfl

section
variable {f g : Byte → Byte → Byte → Byte → Bytes} {s : Bytes} {n : Nat}

theorem mapColumns_length (hf : KeepsColumns f) (hs : s.length = 4 * n) : (mapColumns f s).length = 4 * n := by
  induction n generalizing s with
  | zero => rw [List.length_eq_zero_iff.1 hs]; rfl
  | succ n ih =>
    obtain ⟨a0, a1, a2, a3, rest, rfl, hrest⟩ := exists_first_column hs
    rw [mapColumns, List.length_append, hf, ih hrest]
    omega

theorem mapColumns_append {v : Bytes} (hv : v.length = 4) (t : Bytes) :
    mapColumns f (v ++ t) = mapColumns f v ++ mapColumns f t := by
  obtain ⟨a0, a1, a2, a3, rfl⟩ := exists_four_bytes hv
  simp [mapColumns]

/-- What undoes a map on one column undoes it on all. -/
theorem mapColumns_mapColumns (hf : KeepsColumns f)
    (hgf : ∀ a0 a1 a2 a3, mapColumns g (f a0 a1 a2 a3) = [a0, a1, a2, a3]) (hs : s.length = 4 * n) :
    mapColumns g (mapColumns f s) = s := by
  induction n generalizing s with
  | zero => rw [List.length_eq_zero_iff.1 hs]; rfl
  | succ n ih =>
    obtain ⟨a0, a1, a2, a3, rest, rfl, hrest⟩ := exists_first_column hs
    rw [mapColumns, mapColumns_append (hf a0 a1 a2 a3), hgf, ih hrest]
    rfl

/-- Column c of the sequence, and of what a map makes of it. -/
theorem mapColumns_getElem? (hs : s.length = 4 * n) {c : Nat} (hc : c < n) :
    ∃ a0 a1 a2 a3, (∀ j < 4, s[4 * c + j]? = [a0, a1, a2, a3][j]?) ∧
      ∀ f, KeepsColumns f → ∀ j < 4, (mapColumns f s)[4 * c + j]? = (f a0 a1 a2 a3)[j]? := by
  induction c generalizing s n with
  | zero =>
    obtain ⟨n, rfl⟩ := Nat.exists_eq_add_of_le' hc
    obtain ⟨a0, a1, a2, a3, rest, rfl, -⟩ := exists_first_column hs
    refine ⟨a0, a1, a2, a3, fun j hj => ?_, fun f hf j hj => ?_⟩ <;> rw [Nat.mul_zero, Nat.zero_add]
    · exact List.getElem?_append_left (l₁ := [a0, a1, a2, a3]) hj
    · exact List.getElem?_append_left (hj.trans_eq (hf a0 a1 a2 a3).symm)
  | succ c ih =>
    obtain ⟨n, rfl⟩ := Nat.exists_eq_add_of_le' (Nat.zero_lt_of_lt hc)
    obtain ⟨b0, b1, b2, b3, rest, rfl, hrest⟩ := exists_first_column hs
    obtain ⟨a0, a1, a2, a3, hbytes, hmap⟩ := ih hrest (Nat.lt_of_succ_lt_succ hc)
    have hskip {v t : Bytes} (hv : v.length = 4) (j : Nat) : (v ++ t)[4 * (c + 1) + j]? = t[4 * c + j]? := by
      rw [List.getElem?_append_right (by omega), hv]
      congr 1
      omega
    exact ⟨a0, a1, a2, a3, fun j hj => (hskip (v := [b0, b1, b2, b3]) rfl j).trans (hbytes j hj),
      fun f hf j hj => (hskip (hf b0 b1 b2 b3) j).trans (hmap f hf j hj)⟩

end

/-- The product of a row of a matrix over the field and a column of four bytes. -/
def rowMul (c v : Fin 4 → Byte) : Byte :=
  gfMul (c 0) (v 0) ^^^ gfMul (c 1) (v 1) ^^^ gfMul (c 2) (v 2) ^^^ gfMul (c 3) (v 3)

/-- The product with a row is associative: c • (m • v) = (c • m) • v, for the field is commutative. -/
theorem rowMul_rowMul (c : Fin 4 → Byte) (m : Fin 4 → Fin 4 → Byte) (v : Fin 4 → Byte) :
    rowMul c (fun i => rowMul (m i) v) = rowMul (fun j => rowMul c fun i => m i j) v := by
  simp only [rowMul, gfMul_xor_right, gfMul_xor_left, gfMul_assoc]
  ac_rfl

/-- The identity matrix. -/
def unitMatrix (i j : Fin 4) : Byte := if i = j then 0x01#8 else 0x00#8

theorem rowMul_unitMatrix (i : Fin 4) (v : Fin 4 → Byte) : rowMul (unitMatrix i) v = v i := by
  fin_cases i <;> simp [rowMul, unitMatrix, gfMul_one_left, gfMul_zero_left]

/-- The matrix of `MixColumns` (R151). -/
def mixMatrix : Fin 4 → Fin 4 → Byte :=
  ![![0x02, 0x03, 0x01, 0x01], ![0x01, 0x02, 0x03, 0x01], ![0x01, 0x01, 0x02, 0x03], ![0x03, 0x01, 0x01, 0x02]]

/-- The matrix of `InvMixColumns` (R151). -/
def invMixMatrix : Fin 4 → Fin 4 → Byte :=
  ![![0x0E, 0x0B, 0x0D, 0x09], ![0x09, 0x0E, 0x0B, 0x0D], ![0x0D, 0x09, 0x0E, 0x0B], ![0x0B, 0x0D, 0x09, 0x0E]]

/-- The bytes of the product of a matrix and a column. -/
def matrixColumn (m : Fin 4 → Fin 4 → Byte) (a0 a1 a2 a3 : Byte) : Bytes :=
  List.ofFn fun i => rowMul (m i) ![a0, a1, a2, a3]

theorem mixColumn_eq_matrixColumn : mixColumn = matrixColumn mixMatrix := by
  funext a0 a1 a2 a3
  have hmul (a : Byte) := multiples_eq_gfMul a
  simp [mixColumn, matrixColumn, rowMul, mixMatrix, hmul, gfMul_one_left, List.ofFn_succ]

theorem invMixColumn_eq_matrixColumn : invMixColumn = matrixColumn invMixMatrix := by
  funext a0 a1 a2 a3
  have hmul (a : Byte) := multiples_eq_gfMul a
  simp [invMixColumn, matrixColumn, rowMul, invMixMatrix, hmul, List.ofFn_succ]

theorem mapColumns_matrixColumn {m n : Fin 4 → Fin 4 → Byte}
    (h : ∀ i j, rowMul (n i) (fun l => m l j) = unitMatrix i j) (a0 a1 a2 a3 : Byte) :
    mapColumns (matrixColumn n) (matrixColumn m a0 a1 a2 a3) = [a0, a1, a2, a3] := by
  have hcolumn (v : Fin 4 → Byte) : ![v 0, v 1, v 2, v 3] = v := by
    funext i
    fin_cases i <;> rfl
  have hmul : mapColumns (matrixColumn n) (matrixColumn m a0 a1 a2 a3) =
      List.ofFn fun i => rowMul (n i) fun l => rowMul (m l) ![a0, a1, a2, a3] := by
    rw [← hcolumn fun l => rowMul (m l) ![a0, a1, a2, a3]]
    exact List.append_nil _
  have hunit (i : Fin 4) : (fun j => rowMul (n i) fun l => m l j) = unitMatrix i := funext (h i)
  simp only [hmul, rowMul_rowMul, hunit, rowMul_unitMatrix]
  rfl

theorem invMixColumn_mixColumn (a0 a1 a2 a3 : Byte) :
    mapColumns invMixColumn (mixColumn a0 a1 a2 a3) = [a0, a1, a2, a3] := by
  rw [mixColumn_eq_matrixColumn, invMixColumn_eq_matrixColumn]
  exact mapColumns_matrixColumn (by decide) a0 a1 a2 a3

theorem mixColumn_invMixColumn (a0 a1 a2 a3 : Byte) :
    mapColumns mixColumn (invMixColumn a0 a1 a2 a3) = [a0, a1, a2, a3] := by
  rw [mixColumn_eq_matrixColumn, invMixColumn_eq_matrixColumn]
  exact mapColumns_matrixColumn (by decide) a0 a1 a2 a3

section
variable {s : Bytes} (hs : s.length = 16)
include hs

theorem mixColumns_length : (mixColumns s).length = 16 := by
  rw [mixColumns_eq_mapColumns, mapColumns_length (n := 4) mixColumn_keepsColumns hs]

theorem invMixColumns_length : (invMixColumns s).length = 16 := by
  rw [invMixColumns_eq_mapColumns, mapColumns_length (n := 4) invMixColumn_keepsColumns hs]

theorem invMixColumns_mixColumns : invMixColumns (mixColumns s) = s := by
  rw [invMixColumns_eq_mapColumns, mixColumns_eq_mapColumns]
  exact mapColumns_mapColumns (n := 4) mixColumn_keepsColumns invMixColumn_mixColumn hs

theorem mixColumns_invMixColumns : mixColumns (invMixColumns s) = s := by
  rw [invMixColumns_eq_mapColumns, mixColumns_eq_mapColumns]
  exact mapColumns_mapColumns (n := 4) invMixColumn_keepsColumns mixColumn_invMixColumn hs

/-- Column c before and after, with the multiples as products. -/
theorem mixColumns_bytes {c : Nat} (hc : c < 4) : ∃ a0 a1 a2 a3, s[4 * c]? = some a0 ∧ s[4 * c + 1]? = some a1 ∧
      s[4 * c + 2]? = some a2 ∧ s[4 * c + 3]? = some a3 ∧
      (mixColumns s)[4 * c]? = some (gfMul 0x02#8 a0 ^^^ gfMul 0x03#8 a1 ^^^ a2 ^^^ a3) ∧
      (mixColumns s)[4 * c + 1]? = some (a0 ^^^ gfMul 0x02#8 a1 ^^^ gfMul 0x03#8 a2 ^^^ a3) ∧
      (mixColumns s)[4 * c + 2]? = some (a0 ^^^ a1 ^^^ gfMul 0x02#8 a2 ^^^ gfMul 0x03#8 a3) ∧
      (mixColumns s)[4 * c + 3]? = some (gfMul 0x03#8 a0 ^^^ a1 ^^^ a2 ^^^ gfMul 0x02#8 a3) ∧
      (invMixColumns s)[4 * c]? =
        some (gfMul 0x0E#8 a0 ^^^ gfMul 0x0B#8 a1 ^^^ gfMul 0x0D#8 a2 ^^^ gfMul 0x09#8 a3) ∧
      (invMixColumns s)[4 * c + 1]? =
        some (gfMul 0x09#8 a0 ^^^ gfMul 0x0E#8 a1 ^^^ gfMul 0x0B#8 a2 ^^^ gfMul 0x0D#8 a3) ∧
      (invMixColumns s)[4 * c + 2]? =
        some (gfMul 0x0D#8 a0 ^^^ gfMul 0x09#8 a1 ^^^ gfMul 0x0E#8 a2 ^^^ gfMul 0x0B#8 a3) ∧
      (invMixColumns s)[4 * c + 3]? =
        some (gfMul 0x0B#8 a0 ^^^ gfMul 0x0D#8 a1 ^^^ gfMul 0x09#8 a2 ^^^ gfMul 0x0E#8 a3) := by
  obtain ⟨a0, a1, a2, a3, hbytes, hmap⟩ := mapColumns_getElem? (n := 4) hs hc
  have hmix := hmap mixColumn mixColumn_keepsColumns
  have hinv := hmap invMixColumn invMixColumn_keepsColumns
  rw [← mixColumns_eq_mapColumns] at hmix
  rw [← invMixColumns_eq_mapColumns] at hinv
  have hmul (a : Byte) := multiples_eq_gfMul a
  simp only [mixColumn, invMixColumn, hmul] at hmix hinv
  exact ⟨a0, a1, a2, a3, hbytes 0 (by decide), hbytes 1 (by decide), hbytes 2 (by decide), hbytes 3 (by decide),
    hmix 0 (by decide), hmix 1 (by decide), hmix 2 (by decide), hmix 3 (by decide),
    hinv 0 (by decide), hinv 1 (by decide), hinv 2 (by decide), hinv 3 (by decide)⟩

end

end Sys2Proof.Machine
end

section
/-! The block functions (spec/42_aes256_block.md R152 to R154): their rounds in order, and that they are inverse to
each other. A round of decryption takes its steps in another order than it would to undo a round of encryption; what
it undoes is the round between two substitutions, the last step of the round and the first of the next. -/

namespace Sys2Proof.Machine

/-! ### A loop over rounds -/

/-- The loop's state after n rounds, where σ lists the states. -/
theorem foldl_map_range {step : Bytes → Nat → Bytes} {round : Nat → Nat} {σ : Nat → Bytes} {n : Nat}
    (h : ∀ r, r < n → σ (r + 1) = step (σ r) (round r)) :
    ((List.range n).map round).foldl step (σ 0) = σ n := by
  induction n with
  | zero => rfl
  | succ n ih =>
    rw [List.range_succ, List.map_append, List.foldl_append, ih fun r hr => h r (Nat.lt_succ_of_lt hr)]
    exact (h n (Nat.lt_succ_self n)).symm

/-- Where each step g, after the map `mid`, takes back a step f, the steps g in the reverse order take back the
steps f. -/
theorem foldl_reverse_foldl {f g : Bytes → Nat → Bytes} {mid : Bytes → Bytes} {rounds : List Nat}
    (hgf : ∀ r ∈ rounds, ∀ s, g (mid (f s r)) r = mid s) (s : Bytes) :
    rounds.reverse.foldl g (mid (rounds.foldl f s)) = mid s := by
  induction rounds generalizing s with
  | nil => rfl
  | cons r rounds ih =>
    obtain ⟨hr, hrest⟩ := List.forall_mem_cons.1 hgf
    rw [List.foldl_cons, List.reverse_cons, List.foldl_append, ih hrest]
    exact hr s

theorem le_of_mem_middleRounds : ∀ r ∈ middleRounds, r ≤ 14 := by decide

theorem middleRounds_reverse : middleRounds.reverse = (List.range 13).map (13 - ·) := by decide

/-! ### The substitution and shift of a round -/

/-- The first two transformations of a round of encryption (R152). -/
def subShift (s : Bytes) : Bytes := shiftRows (subBytes s)

/-- The first two transformations of a round of decryption (R153). -/
def invSubShift (s : Bytes) : Bytes := invSubBytes (invShiftRows s)

theorem encRound_eq (w : List Bytes) (s : Bytes) (r : Nat) :
    encRound w s r = addRoundKey (mixColumns (subShift s)) w r := rfl

theorem decRound_eq (w : List Bytes) (s : Bytes) (r : Nat) :
    decRound w s r = invMixColumns (addRoundKey (invSubShift s) w r) := rfl

theorem aesEncBlock_eq (w : List Bytes) (x : Bytes) : aesEncBlock w x =
    addRoundKey (subShift (middleRounds.foldl (encRound w) (addRoundKey x w 0))) w 14 := rfl

theorem aesDecBlock_eq (w : List Bytes) (y : Bytes) : aesDecBlock w y =
    addRoundKey (invSubShift (middleRounds.reverse.foldl (decRound w) (addRoundKey y w 14))) w 0 := rfl

theorem subShift_length (s : Bytes) : (subShift s).length = 16 := shiftRows_length _

theorem invSubShift_length (s : Bytes) : (invSubShift s).length = 16 := by
  rw [invSubShift, invSubBytes, List.length_map, invShiftRows_length]

section
variable {s : Bytes}

theorem invSubShift_subShift (hs : s.length = 16) : invSubShift (subShift s) = s := by
  rw [invSubShift, subShift, invShiftRows_shiftRows (by rwa [subBytes, List.length_map]), invSubBytes_subBytes]

theorem subShift_invSubShift (hs : s.length = 16) : subShift (invSubShift s) = s := by
  rw [invSubShift, subShift, subBytes_invSubBytes, shiftRows_invShiftRows hs]

/-! ### The rounds -/

variable {k : Bytes} {r : Nat}

theorem encRound_length (hk : k.length = 32) (hr : r ≤ 14) (s : Bytes) :
    (encRound (keyExpansion k) s r).length = 16 :=
  addRoundKey_length hk (mixColumns_length (subShift_length s)) hr

theorem decRound_length (hk : k.length = 32) (hr : r ≤ 14) (s : Bytes) :
    (decRound (keyExpansion k) s r).length = 16 :=
  invMixColumns_length (addRoundKey_length hk (invSubShift_length s) hr)

theorem decRound_encRound (hk : k.length = 32) (hr : r ≤ 14) (s : Bytes) :
    decRound (keyExpansion k) (subShift (encRound (keyExpansion k) s r)) r = subShift s := by
  rw [decRound_eq, invSubShift_subShift (encRound_length hk hr s), encRound_eq,
    addRoundKey_addRoundKey hk (mixColumns_length (subShift_length s)) hr,
    invMixColumns_mixColumns (subShift_length s)]

theorem encRound_decRound (hk : k.length = 32) (hr : r ≤ 14) (s : Bytes) :
    encRound (keyExpansion k) (invSubShift (decRound (keyExpansion k) s r)) r = invSubShift s := by
  rw [encRound_eq, subShift_invSubShift (decRound_length hk hr s), decRound_eq,
    mixColumns_invMixColumns (addRoundKey_length hk (invSubShift_length s) hr),
    addRoundKey_addRoundKey hk (invSubShift_length s) hr]

end

/-! ### The block functions -/

section
variable {k x : Bytes}

theorem aesDecBlock_aesEncBlock (hk : k.length = 32) (hx : x.length = 16) :
    aesDecBlock (keyExpansion k) (aesEncBlock (keyExpansion k) x) = x := by
  have hround : ∀ r ∈ middleRounds, ∀ s,
      decRound (keyExpansion k) (subShift (encRound (keyExpansion k) s r)) r = subShift s :=
    fun r hr => decRound_encRound hk (le_of_mem_middleRounds r hr)
  rw [aesDecBlock_eq, aesEncBlock_eq, addRoundKey_addRoundKey hk (subShift_length _) le_rfl,
    foldl_reverse_foldl hround, invSubShift_subShift (addRoundKey_length hk hx (Nat.zero_le _)),
    addRoundKey_addRoundKey hk hx (Nat.zero_le _)]

theorem aesEncBlock_aesDecBlock (hk : k.length = 32) (hx : x.length = 16) :
    aesEncBlock (keyExpansion k) (aesDecBlock (keyExpansion k) x) = x := by
  have hround : ∀ r ∈ middleRounds.reverse, ∀ s,
      encRound (keyExpansion k) (invSubShift (decRound (keyExpansion k) s r)) r = invSubShift s :=
    fun r hr => encRound_decRound hk (le_of_mem_middleRounds r (List.mem_reverse.1 hr))
  have hrounds := foldl_reverse_foldl hround
  rw [List.reverse_reverse] at hrounds
  rw [aesEncBlock_eq, aesDecBlock_eq, addRoundKey_addRoundKey hk (invSubShift_length _) (Nat.zero_le _), hrounds,
    subShift_invSubShift (addRoundKey_length hk hx le_rfl), addRoundKey_addRoundKey hk hx le_rfl]

/-- The loop of encryption ends in the state after round 13 (R152). -/
theorem aesEncBlock_eq_of_states {w : List Bytes} {σ : Nat → Bytes} (hfirst : σ 0 = addRoundKey x w 0)
    (hrounds : ∀ r, r < 13 → σ (r + 1) = encRound w (σ r) (r + 1)) :
    aesEncBlock w x = addRoundKey (subShift (σ 13)) w 14 := by
  rw [aesEncBlock_eq, ← hfirst, ← foldl_map_range hrounds]
  rfl

/-- The loop of decryption ends in the state after round 1, the thirteenth that it runs (R153). -/
theorem aesDecBlock_eq_of_states {w : List Bytes} {σ : Nat → Bytes} (hfirst : σ 0 = addRoundKey x w 14)
    (hrounds : ∀ r, r < 13 → σ (r + 1) = decRound w (σ r) (13 - r)) :
    aesDecBlock w x = addRoundKey (invSubShift (σ 13)) w 0 := by
  rw [aesDecBlock_eq, ← hfirst, middleRounds_reverse, foldl_map_range hrounds]

end

/-- Settles O32: each transformation by its own lemmas, and the loops by the states after each round. -/
theorem roundTransformationsInvert : Obligations.RoundTransformationsInvert := by
  intro s hs
  have htables (i : Nat) : (subBytes s)[i]? = s[i]?.map sbox ∧ (invSubBytes s)[i]? = s[i]?.map invSbox :=
    ⟨List.getElem?_map, List.getElem?_map⟩
  exact ⟨invSubBytes_subBytes s, subBytes_invSubBytes s, invShiftRows_shiftRows hs, shiftRows_invShiftRows hs,
    invMixColumns_mixColumns hs, mixColumns_invMixColumns hs, invShiftRows_invSubBytes hs, htables,
    fun _ _ hr hc => shiftRows_bytes hs hr hc, fun _ hc => mixColumns_bytes hs hc,
    fun k hk => ⟨fun r hr => ⟨addRoundKey_addRoundKey hk hs hr, fun i hi => addRoundKey_bytes hk hs hr hi⟩,
      fun _ hfirst hrounds => aesEncBlock_eq_of_states hfirst hrounds,
      fun _ hfirst hrounds => aesDecBlock_eq_of_states hfirst hrounds⟩⟩

/-- Settles O33: every round of one function takes back the round of the other, from the last to the first. -/
theorem aesBlockInverse : Obligations.AesBlockInverse := fun _ x hk hx =>
  ⟨aesEncBlock_length hk x, aesDecBlock_length hk x, aesDecBlock_aesEncBlock hk hx, aesEncBlock_aesDecBlock hk hx⟩

end Sys2Proof.Machine
end

section
/-! A sequence by its blocks of 16 bytes (spec/20_memory.md R62), the block before each one, and the laws of the
exclusive or of sequences: what CBC is told in. -/

namespace Sys2Proof.Machine

/-! ### The blocks of a sequence -/

theorem block_zero (b : Bytes) : block b 0 = b.take 16 := rfl

theorem block_succ (b : Bytes) (j : Nat) : block b (j + 1) = block (b.drop 16) j := by
  rw [block, block, List.drop_drop, Nat.mul_succ, Nat.add_comm]

section
variable {a b : Bytes} {j : Nat}

theorem block_append_zero (ha : a.length = 16) : block (a ++ b) 0 = a := by rw [block_zero, ← ha, List.take_left]

theorem block_append_succ (ha : a.length = 16) : block (a ++ b) (j + 1) = block b j := by
  rw [block_succ, ← ha, List.drop_left]

theorem block_length (hj : j < b.length / 16) : (block b j).length = 16 := by
  rw [block, List.length_take, List.length_drop]
  simp only [Config.BLOCK]
  omega

theorem block_getElem? {i : Nat} (hi : i < 16) : (block b j)[i]? = b[16 * j + i]? := by
  rw [block, List.getElem?_take_of_lt hi, List.getElem?_drop]

/-- A block lies in every prefix that reaches its end. -/
theorem block_take {i : Nat} (hij : i ≤ j) : block (b.take (16 * j + 16)) i = block b i := by
  rw [block, block, List.drop_take, List.take_take, Nat.min_eq_left]
  simp only [Config.BLOCK]
  omega

/-- A whole number of blocks is determined by them. -/
theorem eq_of_block_eq (hlen : a.length = b.length) (hblocks : b.length % 16 = 0)
    (h : ∀ j, j < b.length / 16 → block a j = block b j) : a = b := by
  refine List.ext_getElem? fun i => ?_
  by_cases hi : i < b.length
  · have hmod : i % 16 < 16 := Nat.mod_lt i (by decide)
    have hblock := h (i / 16) (by omega)
    rw [← Nat.div_add_mod i 16, ← block_getElem? hmod, ← block_getElem? hmod, hblock]
  · rw [List.getElem?_eq_none (by omega), List.getElem?_eq_none (by omega)]

end

/-! ### The block before -/

/-- The block before block j of the sequence y, which is the IV v for the first (R170, R171). -/
def previousBlock (v y : Bytes) (j : Nat) : Bytes := if j = 0 then v else block y (j - 1)

theorem previousBlock_zero (v y : Bytes) : previousBlock v y 0 = v := rfl

theorem previousBlock_succ (v y : Bytes) (j : Nat) : previousBlock v y (j + 1) = block y j := rfl

theorem previousBlock_append_succ {a : Bytes} (ha : a.length = 16) (v b : Bytes) (j : Nat) :
    previousBlock v (a ++ b) (j + 1) = previousBlock a b j := by
  cases j with
  | zero => exact block_append_zero ha
  | succ j => exact block_append_succ ha

theorem previousBlock_length {v y : Bytes} {j : Nat} (hv : v.length = 16) (hj : j < y.length / 16) :
    (previousBlock v y j).length = 16 := by
  cases j with
  | zero => exact hv
  | succ j => exact block_length (Nat.lt_of_succ_lt hj)

theorem previousBlock_congr (v : Bytes) {y y' : Bytes} {j : Nat} (h : ∀ i, i + 1 = j → block y' i = block y i) :
    previousBlock v y' j = previousBlock v y j := by
  cases j with
  | zero => rfl
  | succ j => exact h j rfl

/-! ### The exclusive or of sequences -/

theorem xorBytes_assoc (x y z : Bytes) : xorBytes (xorBytes x y) z = xorBytes x (xorBytes y z) := by
  induction x generalizing y z with
  | nil => rfl
  | cons a x ih =>
    cases y with
    | nil => rfl
    | cons b y =>
      cases z with
      | nil => rfl
      | cons c z => exact congrArg₂ List.cons (BitVec.xor_assoc a b c) (ih y z)

theorem xorBytes_right_cancel {x x' y : Bytes} (hx : x.length ≤ y.length) (hx' : x'.length ≤ y.length)
    (h : xorBytes x y = xorBytes x' y) : x = x' := by
  rw [← xorBytes_xorBytes_cancel hx, h, xorBytes_xorBytes_cancel hx']

/-- Adding the difference of y and z turns a sum with y into the sum with z. -/
theorem xorBytes_xorBytes_difference {x y : Bytes} (hx : x.length ≤ y.length) (z : Bytes) :
    xorBytes (xorBytes x y) (xorBytes y z) = xorBytes x z := by
  rw [← xorBytes_assoc, xorBytes_xorBytes_cancel hx]

end Sys2Proof.Machine
end

section
/-! CBC (spec/43_cbc_cipher.md R170, R171) by blocks, and its laws (R178). Every law is read off from what one block
of a result is: for encryption it depends on the result's own block before, so that a law about it is an induction on
the block's index; for decryption it depends on the input alone. -/

namespace Sys2Proof.Machine

/-! ### One block of a result -/

section
variable {k : Bytes} {m j : Nat}

theorem block_cbcEncBlocks (hk : k.length = 32) (hj : j < m) (c x : Bytes) :
    block (cbcEncBlocks (keyExpansion k) m c x) j = aesEncBlock (keyExpansion k)
      (xorBytes (block x j) (previousBlock c (cbcEncBlocks (keyExpansion k) m c x) j)) := by
  induction m generalizing c x j with
  | zero => exact absurd hj (Nat.not_lt_zero j)
  | succ m ih =>
    have hfirst (s : Bytes) : (aesEncBlock (keyExpansion k) s).length = 16 := aesEncBlock_length hk s
    cases j with
    | zero => exact block_append_zero (hfirst _)
    | succ j =>
      rw [cbcEncBlocks, block_append_succ (hfirst _), previousBlock_append_succ (hfirst _), block_succ]
      exact ih (Nat.lt_of_succ_lt_succ hj) _ _

theorem block_cbcDecBlocks (hk : k.length = 32) (hj : j < m) {c y : Bytes} (hc : c.length = 16)
    (hy : 16 * m ≤ y.length) : block (cbcDecBlocks (keyExpansion k) m c y) j =
      xorBytes (aesDecBlock (keyExpansion k) (block y j)) (previousBlock c y j) := by
  induction m generalizing c y j with
  | zero => exact absurd hj (Nat.not_lt_zero j)
  | succ m ih =>
    have hfirst : (xorBytes (aesDecBlock (keyExpansion k) (y.take 16)) c).length = 16 := by
      rw [xorBytes_length, aesDecBlock_length hk, hc, Nat.min_self]
    cases j with
    | zero => exact block_append_zero hfirst
    | succ j =>
      have hblock : (y.take 16).length = 16 := by
        rw [List.length_take]
        omega
      have hrest : 16 * m ≤ (y.drop 16).length := by
        rw [List.length_drop]
        omega
      have hprevious : previousBlock c y (j + 1) = previousBlock (y.take 16) (y.drop 16) j := by
        rw [← previousBlock_append_succ hblock c, List.take_append_drop]
      rw [cbcDecBlocks, block_append_succ hfirst, block_succ, hprevious]
      exact ih (Nat.lt_of_succ_lt_succ hj) hblock hrest

end

section
variable {k v x y : Bytes} {j : Nat}

theorem block_cbcEnc (hk : k.length = 32) (hj : j < x.length / 16) : block (cbcEnc k v x) j =
    aesEncBlock (keyExpansion k) (xorBytes (block x j) (previousBlock v (cbcEnc k v x) j)) :=
  block_cbcEncBlocks hk hj v x

theorem block_cbcDec (hk : k.length = 32) (hv : v.length = 16) (hj : j < y.length / 16) : block (cbcDec k v y) j =
    xorBytes (aesDecBlock (keyExpansion k) (block y j)) (previousBlock v y j) :=
  block_cbcDecBlocks hk hj hv (Nat.mul_div_le y.length 16)

/-- Settles O34: the lengths are the loops', and each block that of `block_cbcEnc` and `block_cbcDec`. -/
theorem cbcByBlocks : Obligations.CbcByBlocks := fun _ v _ hk hv hx =>
  ⟨cbcEnc_length v hk hx, cbcDec_length hk hv hx, fun _ hj => ⟨block_cbcEnc hk hj, block_cbcDec hk hv hj⟩⟩

/-! ### Law 1: the round trip -/

theorem cbcDec_cbcEnc (hk : k.length = 32) (hv : v.length = 16) (hx : x.length % 16 = 0) :
    cbcDec k v (cbcEnc k v x) = x := by
  have hlen : (cbcEnc k v x).length = x.length := cbcEnc_length v hk hx
  refine eq_of_block_eq ((cbcDec_length hk hv (by rwa [hlen])).trans hlen) hx fun j hj => ?_
  have hj' : j < (cbcEnc k v x).length / 16 := by rwa [hlen]
  have hblock := block_length hj
  have hprevious := previousBlock_length hv hj'
  have hsum : (xorBytes (block x j) (previousBlock v (cbcEnc k v x) j)).length = 16 := by
    rw [xorBytes_length, hblock, hprevious, Nat.min_self]
  rw [block_cbcDec hk hv hj', block_cbcEnc hk hj, aesDecBlock_aesEncBlock hk hsum,
    xorBytes_xorBytes_cancel (by rw [hblock, hprevious])]

/-- By induction on the block: where the block before is given back, so is this one. -/
theorem block_cbcEnc_cbcDec (hk : k.length = 32) (hv : v.length = 16) (hy : y.length % 16 = 0)
    (hj : j < y.length / 16) : block (cbcEnc k v (cbcDec k v y)) j = block y j := by
  have hlen : (cbcDec k v y).length = y.length := cbcDec_length hk hv hy
  induction j using Nat.strong_induction_on with
  | _ j ih =>
    have hprevious : previousBlock v (cbcEnc k v (cbcDec k v y)) j = previousBlock v y j :=
      previousBlock_congr v fun i hi => ih i (by omega) (by omega)
    rw [block_cbcEnc hk (by rwa [hlen]), hprevious, block_cbcDec hk hv hj,
      xorBytes_xorBytes_cancel (by rw [aesDecBlock_length hk, previousBlock_length hv hj]),
      aesEncBlock_aesDecBlock hk (block_length hj)]

theorem cbcEnc_cbcDec (hk : k.length = 32) (hv : v.length = 16) (hy : y.length % 16 = 0) :
    cbcEnc k v (cbcDec k v y) = y := by
  have hlen : (cbcDec k v y).length = y.length := cbcDec_length hk hv hy
  exact eq_of_block_eq ((cbcEnc_length v hk (by rwa [hlen])).trans hlen) hy fun _ hj =>
    block_cbcEnc_cbcDec hk hv hy hj

/-- Settles O35: the two directions are inverse to each other block by block. -/
theorem cbcRoundTrip : Obligations.CbcRoundTrip := fun _ _ _ hk hv hx =>
  ⟨cbcDec_cbcEnc hk hv hx, cbcEnc_cbcDec hk hv hx⟩

/-! ### Law 3: the prefix property -/

theorem block_cbcEnc_congr {x' : Bytes} (hk : k.length = 32) (hj : j < x.length / 16) (hj' : j < x'.length / 16)
    (h : ∀ i, i ≤ j → block x i = block x' i) : block (cbcEnc k v x) j = block (cbcEnc k v x') j := by
  induction j using Nat.strong_induction_on with
  | _ j ih =>
    have hprevious : previousBlock v (cbcEnc k v x) j = previousBlock v (cbcEnc k v x') j :=
      previousBlock_congr v fun i hi =>
        ih i (by omega) (by omega) (by omega) fun i' hi' => h i' (by omega)
    rw [block_cbcEnc hk hj, block_cbcEnc hk hj', hprevious, h j le_rfl]

/-! ### Law 4: a wrong IV -/

theorem block_cbcDec_of_wrong_iv {v' : Bytes} (hk : k.length = 32) (hv : v.length = 16) (hv' : v'.length = 16)
    (hj : j < y.length / 16) : block (cbcDec k v' y) j =
      if j = 0 then xorBytes (block (cbcDec k v y) j) (xorBytes v v') else block (cbcDec k v y) j := by
  rw [block_cbcDec hk hv hj, block_cbcDec hk hv' hj]
  cases j with
  | zero => exact (xorBytes_xorBytes_difference ((aesDecBlock_length hk _).trans hv.symm).le v').symm
  | succ j => rfl

/-! ### Law 5: a changed ciphertext block -/

theorem aesDecBlock_injective {s s' : Bytes} (hk : k.length = 32) (hs : s.length = 16) (hs' : s'.length = 16)
    (h : aesDecBlock (keyExpansion k) s = aesDecBlock (keyExpansion k) s') : s = s' := by
  rw [← aesEncBlock_aesDecBlock hk hs, h, aesEncBlock_aesDecBlock hk hs']

variable {y' : Bytes}

/-- The changed block decrypts to another one: the block inverse is injective. -/
theorem block_cbcDec_ne (hk : k.length = 32) (hv : v.length = 16) (hj : j < y.length / 16)
    (hj' : j < y'.length / 16) (hblock : block y' j ≠ block y j) (hbefore : ∀ i, i + 1 = j → block y' i = block y i) :
    block (cbcDec k v y') j ≠ block (cbcDec k v y) j := by
  have hle (s : Bytes) : (aesDecBlock (keyExpansion k) s).length ≤ (previousBlock v y j).length := by
    rw [aesDecBlock_length hk, previousBlock_length hv hj]
  rw [block_cbcDec hk hv hj', block_cbcDec hk hv hj, previousBlock_congr v hbefore]
  intro h
  exact hblock (aesDecBlock_injective hk (block_length hj') (block_length hj)
    (xorBytes_right_cancel (hle _) (hle _) h))

/-- The change of a block is added to the decryption of the block after it. -/
theorem block_cbcDec_succ_of_change (hk : k.length = 32) (hv : v.length = 16) (hj : j + 1 < y.length / 16)
    (hj' : j + 1 < y'.length / 16) (hsame : block y' (j + 1) = block y (j + 1)) :
    block (cbcDec k v y') (j + 1) =
      xorBytes (block (cbcDec k v y) (j + 1)) (xorBytes (block y j) (block y' j)) := by
  rw [block_cbcDec hk hv hj', block_cbcDec hk hv hj, previousBlock_succ, previousBlock_succ, hsame,
    xorBytes_xorBytes_difference (by rw [aesDecBlock_length hk, block_length (Nat.lt_of_succ_lt hj)])]

/-- A decrypted block depends on its own ciphertext block and the one before. -/
theorem block_cbcDec_congr (hk : k.length = 32) (hv : v.length = 16) (hj : j < y.length / 16)
    (hj' : j < y'.length / 16) (hsame : block y' j = block y j) (hbefore : ∀ i, i + 1 = j → block y' i = block y i) :
    block (cbcDec k v y') j = block (cbcDec k v y) j := by
  rw [block_cbcDec hk hv hj', block_cbcDec hk hv hj, previousBlock_congr v hbefore, hsame]

end

/-- Settles O36: the prefix property, the wrong IV and the three places of a changed block, each by its lemma. -/
theorem cbcErrorPropagation : Obligations.CbcErrorPropagation := by
  refine ⟨fun k v x x' j hk _ _ _ hj hj' hprefix => ?law3,
    fun k v v' y hk hv hv' _ j hj => block_cbcDec_of_wrong_iv hk hv hv' hj,
    fun k v y y' j hk hv _ hlen _ hchange i hi => ?law5⟩
  case law3 =>
    refine block_cbcEnc_congr hk hj hj' fun i hi => ?_
    rw [← block_take hi, hprefix, block_take hi]
  case law5 =>
    have hi' : i < y'.length / 16 := by rwa [hlen]
    have hsame (i' : Nat) (hle : i' ≤ i) (hne : i' ≠ j) : block y' i' = block y i' :=
      (hchange i' (by omega)).2 hne
    refine ⟨?changed, ?next, fun hne hne' => ?other⟩
    case changed =>
      rintro rfl
      exact block_cbcDec_ne hk hv hi hi' (fun heq => (hchange i hi).1 heq rfl)
        fun i' hbefore => hsame i' (by omega) (by omega)
    case next =>
      rintro rfl
      exact block_cbcDec_succ_of_change hk hv hi hi' (hsame _ le_rfl (by omega))
    case other =>
      exact block_cbcDec_congr hk hv hi hi' (hsame i le_rfl hne)
        fun i' hbefore => hsame i' (by omega) (by omega)

end Sys2Proof.Machine
end

section
/-! The commands CIPHENC and CIPHDEC (spec/43_cbc_cipher.md R172 to R174): what they deliver, and where they and
DECRYPT fail before any block is processed. -/

namespace Sys2Proof.Machine

/-! ### The checks, in their order -/

section
variable {n klen vlen : Nat}

theorem cipherCheck_eq_lenBlock (h : n = 0 ∨ n % 16 ≠ 0) : cipherCheck n klen vlen = .error .lenBlock := if_pos h

theorem cipherCheck_of_blocks (hpos : 0 < n) (hblocks : n % 16 = 0) : cipherCheck n klen vlen =
    if klen ≠ 32 then .error .keyLen else if vlen ≠ 16 then .error .ivLen else .ok () :=
  if_neg (not_or.2 ⟨hpos.ne', not_not.2 hblocks⟩)

theorem cipherCheck_eq_keyLen (hpos : 0 < n) (hblocks : n % 16 = 0) (hkey : klen ≠ 32) :
    cipherCheck n klen vlen = .error .keyLen := by
  rw [cipherCheck_of_blocks hpos hblocks, if_pos hkey]

theorem cipherCheck_eq_ivLen (hpos : 0 < n) (hblocks : n % 16 = 0) (hkey : klen = 32) (hiv : vlen ≠ 16) :
    cipherCheck n klen vlen = .error .ivLen := by
  rw [cipherCheck_of_blocks hpos hblocks, if_neg (not_not.2 hkey), if_pos hiv]

end

/-! ### The rules past the checks -/

section
variable {o : Operands}

theorem ciphencRule_of_check (h : cipherCheck o.inLen o.keyLen o.ivLen = .ok ()) :
    ciphencRule o = .ok (cbcEnc o.keyv o.ivv o.input) := by simp only [ciphencRule, h]

theorem ciphdecRule_of_check (h : cipherCheck o.inLen o.keyLen o.ivLen = .ok ()) :
    ciphdecRule o = .ok (cbcDec o.keyv o.ivv o.input) := by simp only [ciphdecRule, h]

/-- The checks come first in the rule of each of the three commands (R173, R174, R191). -/
theorem ruleOf_of_check_error {i : Instr} {c : ECode} (hi : i ∈ [Instr.ciphenc, .ciphdec, .decrypt])
    (h : cipherCheck o.inLen o.keyLen o.ivLen = .error c) : ruleOf i o = .error c := by
  simp only [List.mem_cons, List.not_mem_nil, or_false] at hi
  obtain rfl | rfl | rfl := hi
  · simp only [ruleOf, ciphencRule, h]
  · simp only [ruleOf, ciphdecRule, h]
  · simp only [ruleOf, decryptRule, h]

end

/-! ### The commands -/

/-- Past the input capacity check, the three commands fail with the code of the first check that fails. -/
theorem failsWith_of_check_error {i : Instr} {s : State} {c : ECode} (hi : i ∈ [Instr.ciphenc, .ciphdec, .decrypt])
    (hfits : s.inLen.toNat ≤ s.cap)
    (h : cipherCheck s.inLen.toNat s.keyLen.toNat s.ivLen.toNat = .error c) : FailsWith i s c :=
  failsWith_of_rule_error hfits (ruleOf_of_check_error hi h)

theorem operands_cipherCheck_ok {s : State} (hpos : 0 < s.inLen.toNat) (hblocks : s.inLen.toNat % 16 = 0)
    (hkey : s.keyLen = 32#32) (hiv : s.ivLen = 16#32) :
    cipherCheck s.operands.inLen s.operands.keyLen s.operands.ivLen = .ok () :=
  (cipherCheck_ok_iff _ _ _).2 ⟨hpos.ne', hblocks, congrArg BitVec.toNat hkey, congrArg BitVec.toNat hiv⟩

/-- Settles O37: the checks pass, and the result is the rule's. -/
theorem ciphencDelivers : Obligations.CiphencDelivers := fun _ hfits hpos hblocks hkey hiv =>
  delivers_of_rule_ok hfits (ciphencRule_of_check (operands_cipherCheck_ok hpos hblocks hkey hiv))

/-- Settles O38: the checks pass, and the result is the rule's. -/
theorem ciphdecDelivers : Obligations.CiphdecDelivers := fun _ hfits hpos hblocks hkey hiv =>
  delivers_of_rule_ok hfits (ciphdecRule_of_check (operands_cipherCheck_ok hpos hblocks hkey hiv))

/-- Settles O39: the input capacity check is the frame's, and past it each code is that of `cipherCheck`. -/
theorem cipherChecksFail : Obligations.CipherChecksFail := by
  refine fun s i hi => ⟨failsWith_capIn i, fun hfits => ⟨fun hlen => ?lenBlock, fun hpos hblocks =>
    ⟨fun hkey => ?keyLen, fun hkey hiv => ?ivLen⟩⟩⟩ <;> refine failsWith_of_check_error hi hfits ?_
  case lenBlock => exact cipherCheck_eq_lenBlock hlen
  case keyLen => exact cipherCheck_eq_keyLen hpos hblocks fun h => hkey (BitVec.eq_of_toNat_eq h)
  case ivLen =>
    exact cipherCheck_eq_ivLen hpos hblocks (congrArg BitVec.toNat hkey) fun h => hiv (BitVec.eq_of_toNat_eq h)

end Sys2Proof.Machine
end

section
/-! The rules of the composite commands (spec/44_composite.md R190 to R193), told from their checks: each is its
capacity or splitting checks, then the cipher's checks, then a result. -/

namespace Sys2Proof.Machine

/-! ### ENCRYPT and ENCRYPTX -/

theorem paddedLen_pos (n : Nat) : 0 < paddedLen n := by
  rw [paddedLen_eq]
  omega

/-- The length of the result of ENCRYPT (R190), and of ENCRYPTX (R192), for an input of padded length n. -/
def encryptedLen : Instr → Nat → Nat
  | .encryptx, n => 33 + 2 * n
  | _, n => n

@[simp] theorem encryptedLen_encrypt (n : Nat) : encryptedLen .encrypt n = n := rfl

@[simp] theorem encryptedLen_encryptx (n : Nat) : encryptedLen .encryptx n = 33 + 2 * n := rfl

section
variable {i : Instr} {o : Operands} {c : ECode}

theorem ruleOf_eq_capOut (hi : i ∈ [Instr.encrypt, .encryptx]) (h : encryptedLen i (paddedLen o.inLen) > o.cap) :
    ruleOf i o = .error .capOut := by
  simp only [List.mem_cons, List.not_mem_nil, or_false] at hi
  obtain rfl | rfl := hi
  · exact if_pos h
  · exact if_pos h

/-- Past the output capacity, the two rules fail where the cipher's checks on the padded length fail. -/
theorem ruleOf_of_padded_check_error (hi : i ∈ [Instr.encrypt, .encryptx])
    (hout : encryptedLen i (paddedLen o.inLen) ≤ o.cap)
    (h : cipherCheck (paddedLen o.inLen) o.keyLen o.ivLen = .error c) : ruleOf i o = .error c := by
  simp only [List.mem_cons, List.not_mem_nil, or_false] at hi
  obtain rfl | rfl := hi
  · rw [encryptedLen_encrypt] at hout
    simp only [ruleOf, encryptRule, if_neg (Nat.not_lt.2 hout), h]
  · rw [encryptedLen_encryptx] at hout
    simp only [ruleOf, encryptxRule, if_neg (Nat.not_lt.2 hout), h]

theorem padded_check_ok (hkey : o.keyLen = 32) (hiv : o.ivLen = 16) :
    cipherCheck (paddedLen o.inLen) o.keyLen o.ivLen = .ok () :=
  (cipherCheck_ok_iff _ _ _).2 ⟨(paddedLen_pos _).ne', paddedLen_mod _, hkey, hiv⟩

theorem encryptRule_of_lengths (hout : paddedLen o.inLen ≤ o.cap) (hkey : o.keyLen = 32) (hiv : o.ivLen = 16) :
    encryptRule o = .ok (cbcEnc o.keyv o.ivv (pad o.input)) := by
  simp only [encryptRule, if_neg (Nat.not_lt.2 hout), padded_check_ok hkey hiv]

theorem encryptxRule_of_lengths (hout : 33 + 2 * paddedLen o.inLen ≤ o.cap) (hkey : o.keyLen = 32)
    (hiv : o.ivLen = 16) : encryptxRule o =
      .ok (hexEnc o.ivv ++ [Config.DELIM] ++ hexEnc (cbcEnc o.keyv o.ivv (pad o.input))) := by
  simp only [encryptxRule, if_neg (Nat.not_lt.2 hout), padded_check_ok hkey hiv]

end

/-! ### DECRYPT -/

theorem decryptRule_of_check {o : Operands} (h : cipherCheck o.inLen o.keyLen o.ivLen = .ok ()) :
    decryptRule o = unpad (cbcDec o.keyv o.ivv o.input) := by simp only [decryptRule, h]

/-- Where CIPHDEC has a result, DECRYPT unpads it (R174, R191). -/
theorem decryptRule_of_ciphdecRule_ok {o : Operands} {r : Bytes} (h : ciphdecRule o = .ok r) :
    decryptRule o = unpad r := by
  unfold ciphdecRule at h
  split at h
  · cases h
  · next hcheck =>
    obtain rfl := Except.ok.inj h
    exact decryptRule_of_check hcheck

/-- A sequence of at least 16 bytes is neither empty nor shorter than its padding (R121). -/
theorem unpad_error_of_le_length {b : Bytes} {c : ECode} (hlen : 16 ≤ b.length) (h : unpad b = .error c) :
    c ∈ [ECode.padZero, .padOver, .padMismatch] := by
  have hne : b ≠ [] := List.ne_nil_of_length_pos (by omega)
  rw [unpad_of_getLast? (List.getLast?_eq_some_getLast hne)] at h
  split_ifs at h with hzero hover hshort
  · simp [← Except.error.inj h]
  · simp [← Except.error.inj h]
  · omega
  · simp [← Except.error.inj h]

/-- The padding failures that a decryption of whole blocks can have (R191, R193). -/
theorem unpad_cbcDec_error {k v y : Bytes} {c : ECode} (hk : k.length = 32) (hv : v.length = 16)
    (hpos : 0 < y.length) (hblocks : y.length % 16 = 0) (h : unpad (cbcDec k v y) = .error c) :
    c ∈ [ECode.padZero, .padOver, .padMismatch] :=
  unpad_error_of_le_length (by rw [cbcDec_length hk hv hblocks]; omega) h

/-! ### DECRYPTX -/

theorem delimIndex_eq_none {s : Bytes} (h : 0x3A#8 ∉ s) : delimIndex s = none := by
  rw [delimIndex, List.findIdx?_eq_none_iff]
  intro c hc
  simpa using fun heq : c = 0x3A#8 => h (heq ▸ hc)

/-- The first delimiter of a text is where the part without one ends. -/
theorem delimIndex_split {ivText : Bytes} (h : 0x3A#8 ∉ ivText) (ctText : Bytes) :
    delimIndex (ivText ++ [0x3A#8] ++ ctText) = some ivText.length := by
  have hnone : ivText.findIdx? (fun c => c == Config.DELIM) = none := delimIndex_eq_none h
  simp [delimIndex, List.findIdx?_append, hnone, List.findIdx?_cons]

theorem decryptxRule_eq_noDelim {o : Operands} (h : 0x3A#8 ∉ o.input) : decryptxRule o = .error .noDelim := by
  simp only [decryptxRule, delimIndex_eq_none h]

/-- Past the split, DECRYPTX decodes the IV text, then the ciphertext text, then decrypts (R193). -/
theorem decryptxRule_of_split {o : Operands} {ivText ctText : Bytes}
    (hsplit : o.input = ivText ++ [0x3A#8] ++ ctText) (hfirst : 0x3A#8 ∉ ivText) : decryptxRule o =
      (hexDec ivText).bind fun v => (hexDec ctText).bind fun y => decryptxDecoded o.keyv o.keyLen v y := by
  have htake : (ivText ++ [0x3A#8] ++ ctText).take ivText.length = ivText := by
    rw [List.append_assoc, List.take_left]
  have hdrop : (ivText ++ [0x3A#8] ++ ctText).drop (ivText.length + 1) = ctText := List.drop_left' (by simp)
  simp only [decryptxRule, hsplit, delimIndex_split hfirst, htake, hdrop]
  cases hexDec ivText with
  | error c => rfl
  | ok v =>
    cases hexDec ctText with
    | error c => rfl
    | ok y => rfl

section
variable {keyv v y : Bytes} {keyLen : Nat}

theorem decryptxDecoded_of_check_error {c : ECode} (h : cipherCheck y.length keyLen v.length = .error c) :
    decryptxDecoded keyv keyLen v y = .error c := by simp only [decryptxDecoded, h]

theorem decryptxDecoded_of_lengths (hpos : 0 < y.length) (hblocks : y.length % 16 = 0) (hkey : keyLen = 32)
    (hv : v.length = 16) : decryptxDecoded keyv keyLen v y = unpad (cbcDec keyv v y) := by
  simp only [decryptxDecoded, (cipherCheck_ok_iff _ _ _).2 ⟨hpos.ne', hblocks, hkey, hv⟩]

end

/-- The rule of DECRYPTX reads neither the IV window nor `IV_LEN` (R193). -/
theorem decryptxRule_congr {o o' : Operands} (hinput : o'.input = o.input) (hkeyv : o'.keyv = o.keyv)
    (hkeyLen : o'.keyLen = o.keyLen) : decryptxRule o' = decryptxRule o := by
  simp only [decryptxRule, hinput, hkeyv, hkeyLen]

end Sys2Proof.Machine
end

section
/-! The commands ENCRYPT and ENCRYPTX (spec/44_composite.md R190, R192): what they deliver, and where they fail. -/

namespace Sys2Proof.Machine

/-- Settles O40: the capacity and the lengths pass every check of the rule. -/
theorem encryptDelivers : Obligations.EncryptDelivers := by
  intro s hout hkey hiv
  have hfits : s.inLen.toNat ≤ s.cap := by omega
  rw [← paddedLen_eq] at hout
  exact delivers_of_rule_ok hfits
    (encryptRule_of_lengths hout (congrArg BitVec.toNat hkey) (congrArg BitVec.toNat hiv))

/-- Settles O43: the capacity and the lengths pass every check of the rule. -/
theorem encryptxDelivers : Obligations.EncryptxDelivers := by
  intro s hout hkey hiv
  have hfits : s.inLen.toNat ≤ s.cap := by omega
  rw [← paddedLen_eq] at hout
  exact delivers_of_rule_ok hfits
    (encryptxRule_of_lengths hout (congrArg BitVec.toNat hkey) (congrArg BitVec.toNat hiv))

section
variable {i : Instr} {s : State}

theorem failsWith_capOut (hi : i ∈ [Instr.encrypt, .encryptx]) (hfits : s.inLen.toNat ≤ s.cap)
    (hout : encryptedLen i (paddedLen s.inLen.toNat) > s.cap) : FailsWith i s .capOut :=
  failsWith_of_rule_error hfits (ruleOf_eq_capOut hi hout)

theorem failsWith_keyLen_of_padded (hi : i ∈ [Instr.encrypt, .encryptx]) (hfits : s.inLen.toNat ≤ s.cap)
    (hkey : s.keyLen ≠ 32#32) (hout : encryptedLen i (paddedLen s.inLen.toNat) ≤ s.cap) :
    FailsWith i s .keyLen :=
  failsWith_of_rule_error hfits <| ruleOf_of_padded_check_error hi hout <|
    cipherCheck_eq_keyLen (paddedLen_pos _) (paddedLen_mod _) fun h => hkey (BitVec.eq_of_toNat_eq h)

theorem failsWith_ivLen_of_padded (hi : i ∈ [Instr.encrypt, .encryptx]) (hfits : s.inLen.toNat ≤ s.cap)
    (hkey : s.keyLen = 32#32) (hiv : s.ivLen ≠ 16#32)
    (hout : encryptedLen i (paddedLen s.inLen.toNat) ≤ s.cap) : FailsWith i s .ivLen :=
  failsWith_of_rule_error hfits <| ruleOf_of_padded_check_error hi hout <|
    cipherCheck_eq_ivLen (paddedLen_pos _) (paddedLen_mod _) (congrArg BitVec.toNat hkey)
      fun h => hiv (BitVec.eq_of_toNat_eq h)

end

/-- Settles O44: one lemma for each check, which serves both commands, each with its own result length. -/
theorem encryptChecksFail : Obligations.EncryptChecksFail := by
  intro s n hn
  obtain rfl : paddedLen s.inLen.toNat = n := (paddedLen_eq _).trans hn
  have henc : Instr.encrypt ∈ [Instr.encrypt, .encryptx] := by simp
  have hencx : Instr.encryptx ∈ [Instr.encrypt, .encryptx] := by simp
  refine ⟨fun hover => ⟨failsWith_capIn _ hover, failsWith_capIn _ hover⟩, fun hfits => ⟨?_, ?_, ?_, ?_⟩⟩
  · exact failsWith_capOut henc hfits
  · exact failsWith_capOut hencx hfits
  · exact fun hkey => ⟨failsWith_keyLen_of_padded henc hfits hkey, failsWith_keyLen_of_padded hencx hfits hkey⟩
  · exact fun hkey hiv =>
      ⟨failsWith_ivLen_of_padded henc hfits hkey hiv, failsWith_ivLen_of_padded hencx hfits hkey hiv⟩

end Sys2Proof.Machine
end

section
/-! The commands DECRYPT and DECRYPTX (spec/44_composite.md R191, R193): what they deliver, where they fail, and that
DECRYPTX has no use for the IV window. -/

namespace Sys2Proof.Machine

/-! ### DECRYPT -/

/-- Settles O41: past the cipher's checks the rule is the unpadding of the decryption. -/
theorem decryptDelivers : Obligations.DecryptDelivers := by
  intro s b hfits hpos hblocks hkey hiv hunpad
  exact delivers_of_rule_ok hfits
    ((decryptRule_of_check (operands_cipherCheck_ok hpos hblocks hkey hiv)).trans hunpad)

/-- Settles O42: past the cipher's checks the code is that of the unpadding, and a decryption of at least one block
is long enough for two of the five codes to be out of the question. -/
theorem decryptPaddingFails : Obligations.DecryptPaddingFails := by
  intro s c hfits hpos hblocks hkey hiv hunpad
  have hinput : (s.bytesAt .inp s.inLen.toNat).length = s.inLen.toNat := bytesAt_length s _ _
  refine ⟨failsWith_of_rule_error hfits
    ((decryptRule_of_check (operands_cipherCheck_ok hpos hblocks hkey hiv)).trans hunpad), ?_⟩
  exact unpad_cbcDec_error (bytesAt_length s _ _) (bytesAt_length s _ _) (by rwa [hinput]) (by rwa [hinput]) hunpad

/-! ### DECRYPTX -/

/-- The rule of DECRYPTX on a text whose two parts decode (R193). -/
theorem ruleOf_decryptx_of_decoded {s : State} {ivText ctText v y : Bytes}
    (hsplit : s.bytesAt .inp s.inLen.toNat = ivText ++ [0x3A#8] ++ ctText) (hfirst : 0x3A#8 ∉ ivText)
    (hv : hexDec ivText = .ok v) (hy : hexDec ctText = .ok y) :
    ruleOf .decryptx s.operands = decryptxDecoded (s.bytesAt .key 32) s.keyLen.toNat v y := by
  rw [ruleOf, decryptxRule_of_split hsplit hfirst, hv, hy]
  rfl

/-- Settles O45: the text splits and decodes, the lengths pass the cipher's checks, and the rest is the unpadding. -/
theorem decryptxDelivers : Obligations.DecryptxDelivers := by
  intro s ivText ctText v y b hfits hsplit hfirst hv hy hpos hblocks hkey hvlen hunpad
  refine delivers_of_rule_ok hfits ?_
  rw [ruleOf_decryptx_of_decoded hsplit hfirst hv hy,
    decryptxDecoded_of_lengths hpos hblocks (congrArg BitVec.toNat hkey) hvlen, hunpad]

/-- Settles O46: the input capacity check is the frame's, and past it each code is that of the first step of the rule
that fails: the split, either decoding, the cipher's checks, the unpadding. -/
theorem decryptxFails : Obligations.DecryptxFails := by
  refine fun s => ⟨failsWith_capIn _, fun hfits => ⟨fun hnone => ?noDelim, fun ivText ctText hsplit hfirst =>
    ⟨fun c hc => ?ivText, fun v hv => ⟨fun c hc => ?ctText, fun y hy => ?decoded⟩⟩⟩⟩
  case noDelim => exact failsWith_of_rule_error hfits (decryptxRule_eq_noDelim hnone)
  case ivText =>
    refine failsWith_of_rule_error hfits ((decryptxRule_of_split hsplit hfirst).trans ?_)
    rw [hc]
    rfl
  case ctText =>
    refine failsWith_of_rule_error hfits ((decryptxRule_of_split hsplit hfirst).trans ?_)
    rw [hv, hc]
    rfl
  case decoded =>
    have hrule := ruleOf_decryptx_of_decoded hsplit hfirst hv hy
    have hcheck {c : ECode} (h : cipherCheck y.length s.keyLen.toNat v.length = .error c) : FailsWith .decryptx s c :=
      failsWith_of_rule_error hfits (hrule.trans (decryptxDecoded_of_check_error h))
    refine ⟨fun hlen => hcheck (cipherCheck_eq_lenBlock hlen), fun hpos hblocks =>
      ⟨fun hkey => ?keyLen, fun hkey hvlen => ?ivLen, fun hkey hvlen c hunpad => ?padding⟩⟩
    case keyLen => exact hcheck (cipherCheck_eq_keyLen hpos hblocks fun h => hkey (BitVec.eq_of_toNat_eq h))
    case ivLen => exact hcheck (cipherCheck_eq_ivLen hpos hblocks (congrArg BitVec.toNat hkey) hvlen)
    case padding =>
      refine ⟨failsWith_of_rule_error hfits (hrule.trans ?_),
        unpad_cbcDec_error (bytesAt_length s _ _) hvlen hpos hblocks hunpad⟩
      rw [decryptxDecoded_of_lengths hpos hblocks (congrArg BitVec.toNat hkey) hvlen, hunpad]

/-- Settles O18: the rule reads the input and the key, which the two states share, and the completion keeps the IV
window and `IV_LEN`. -/
theorem decryptxIgnoresIvWindow : Obligations.DecryptxIgnoresIvWindow := by
  intro s s' hsame hkey
  obtain ⟨hinLen, -, hinp⟩ := id hsame
  obtain ⟨hkeyLen, hkeyv⟩ := hkey
  have hinput : s'.operands.input = s.operands.input := by
    simp only [State.operands, hinLen, bytesAt_congr hinp]
  obtain ⟨t, t', hexec, hexec', hresult⟩ := exec_sameResult_of_rule_eq (i := .decryptx) hsame
    (decryptxRule_congr hinput (bytesAt_congr hkeyv) (congrArg BitVec.toNat hkeyLen))
  obtain ⟨u, hu, -, hivLen, -, -, -, -, -, -, -, hwindows⟩ := commandsKeepOperands .decryptx s'
  obtain rfl : u = t' := Host.Outcome.next.inj (hu.symm.trans hexec')
  exact ⟨t, u, hexec, hexec', hresult, hivLen, fun i => hwindows .iv i (by decide)⟩

end Sys2Proof.Machine
end

section
/-! The laws of the composite commands (spec/44_composite.md R194): the two round trips, and ENCRYPT and DECRYPT as
two commands each. The state between the two commands is any that holds the first one's result as its input. -/

namespace Sys2Proof.Machine

/-! ### A result as the next input -/

section
variable {i : Instr} {s t s' : State} {r : Bytes}

/-- The host has copied the result of `t` into IN of `s'`. -/
structure InputIsResult (t s' : State) : Prop where
  inLen : s'.inLen = t.outLen
  byteAt : ∀ i, i < t.outLen.toNat → t.specifiedByte .out i = some (s'.byteAt .inp i)

theorem InputIsResult.inLen_eq (h : InputIsResult t s') (hdelivers : Delivers s t r) :
    s'.inLen.toNat = r.length := by
  obtain ⟨-, hlen, -⟩ := hdelivers
  rw [h.inLen, hlen]

theorem InputIsResult.input_eq (h : InputIsResult t s') (hdelivers : Delivers s t r) :
    s'.bytesAt .inp s'.inLen.toNat = r := by
  have hinLen := h.inLen_eq hdelivers
  obtain ⟨-, hlen, hbytes, -⟩ := hdelivers
  refine List.ext_getElem? fun i => ?_
  obtain hi | hi := Nat.lt_or_ge i r.length
  · rw [bytesAt_getElem? s' _ _ i (hi.trans_eq hinLen.symm), ← hbytes i hi, h.byteAt i (hi.trans_eq hlen.symm)]
  · rw [List.getElem?_eq_none hi, List.getElem?_eq_none (by rwa [bytesAt_length, hinLen])]

/-- Past the input capacity check, a command completes with its rule's outcome (R89). -/
theorem exec_of_rule {o : Except ECode Bytes} (hfits : s.inLen.toNat ≤ s.cap)
    (hrule : ruleOf i s.operands = o) : exec i s = .next (s.complete o) :=
  exec_of_commandOutcome ((commandOutcome_rule _ s hfits).trans hrule)

/-- A command that completes with `ERR` = 0 delivers its rule's result (R87, R89). -/
theorem exists_rule_ok_delivers_of_exec (h : exec i s = .next t) (herr : t.err = false) :
    ∃ r, s.inLen.toNat ≤ s.cap ∧ ruleOf i s.operands = .ok r ∧ r.length ≤ s.cap ∧ Delivers s t r := by
  obtain ⟨r, hrule, hfit, hle, -⟩ := exists_rule_ok_of_exec h herr
  obtain ⟨u, hu, hdelivers⟩ := delivers_of_rule_ok hfit.inLen_le_cap hrule
  obtain rfl : u = t := Host.Outcome.next.inj (hu.symm.trans h)
  exact ⟨r, hfit.inLen_le_cap, hrule, hle, hdelivers⟩

end

/-! ### Laws 1 and 2: the round trips -/

theorem SameKey.bytesAt_eq {s s' : State} (h : SameKey s s') : s'.bytesAt .key 32 = s.bytesAt .key 32 := by
  obtain ⟨-, hbytes⟩ := h
  exact bytesAt_congr hbytes

theorem SameIv.bytesAt_eq {s s' : State} (h : SameIv s s') : s'.bytesAt .iv 16 = s.bytesAt .iv 16 := by
  obtain ⟨-, hbytes⟩ := h
  exact bytesAt_congr hbytes

theorem cbcEnc_pad_length_eq {k : Bytes} (v b : Bytes) (hk : k.length = 32) :
    (cbcEnc k v (pad b)).length = paddedLen b.length := by
  rw [cbcEnc_length v hk (by rw [pad_length, paddedLen_mod]), pad_length]

/-- Decryption and unpadding undo padding and encryption (R124 law 3, R178 law 1). -/
theorem unpad_cbcDec_cbcEnc_pad {k v : Bytes} (b : Bytes) (hk : k.length = 32) (hv : v.length = 16) :
    unpad (cbcDec k v (cbcEnc k v (pad b))) = .ok b := by
  rw [cbcDec_cbcEnc hk hv (by rw [pad_length, paddedLen_mod]), unpad_pad]

/-- Settles O47: the input of DECRYPT is what ENCRYPT delivered, and `unpad_cbcDec_cbcEnc_pad` undoes it. -/
theorem encryptDecryptRoundTrip : Obligations.EncryptDecryptRoundTrip := by
  intro s s' hkey hiv hout
  obtain ⟨t, hexec, hdelivers⟩ := encryptDelivers s hout hkey hiv
  obtain ⟨hstatus, -⟩ := id hdelivers
  refine ⟨t, hexec, hstatus, fun hsameKey hsameIv hcapr hinLen hbytes => ?_⟩
  have hresult : InputIsResult t s' := ⟨hinLen, hbytes⟩
  have hlen : s'.inLen.toNat = paddedLen s.inLen.toNat := by
    rw [hresult.inLen_eq hdelivers, cbcEnc_pad_length_eq _ _ (bytesAt_length s _ _), bytesAt_length]
  have hfits : s'.inLen.toNat ≤ s'.cap := by
    rwa [hlen, State.cap, hcapr, paddedLen_eq]
  obtain ⟨hkeyLen, -⟩ := id hsameKey
  obtain ⟨hivLen, -⟩ := id hsameIv
  refine decryptDelivers s' _ hfits (hlen ▸ paddedLen_pos _) (hlen ▸ paddedLen_mod _) (hkeyLen.trans hkey)
    (hivLen.trans hiv) ?_
  rw [hresult.input_eq hdelivers, hsameKey.bytesAt_eq, hsameIv.bytesAt_eq]
  exact unpad_cbcDec_cbcEnc_pad _ (bytesAt_length s _ _) (bytesAt_length s _ _)

/-- No digit of an encoding is the delimiter, so a combined text splits at the delimiter put there (R192, R193). -/
theorem delim_notMem_hexEnc (b : Bytes) : 0x3A#8 ∉ hexEnc b := by
  intro hmem
  have hdigit := hexVal_isSome_of_mem_hexEnc hmem
  revert hdigit
  decide

/-- Settles O48: the text of ENCRYPTX splits and decodes into the IV and the ciphertext, whatever the IV window of the
second state holds. -/
theorem encryptxDecryptxRoundTrip : Obligations.EncryptxDecryptxRoundTrip := by
  intro s s' hkey hiv hout
  obtain ⟨t, hexec, hdelivers⟩ := encryptxDelivers s hout hkey hiv
  obtain ⟨hstatus, -⟩ := id hdelivers
  refine ⟨t, hexec, hstatus, fun hsameKey hcapr hinLen hbytes => ?_⟩
  have hresult : InputIsResult t s' := ⟨hinLen, hbytes⟩
  have hk : (s.bytesAt .key 32).length = 32 := bytesAt_length s _ _
  have hv : (s.bytesAt .iv 16).length = 16 := bytesAt_length s _ _
  have hcipher : (cbcEnc (s.bytesAt .key 32) (s.bytesAt .iv 16) (pad (s.bytesAt .inp s.inLen.toNat))).length =
      paddedLen s.inLen.toNat := by
    rw [cbcEnc_pad_length_eq _ _ hk, bytesAt_length]
  have hfits : s'.inLen.toNat ≤ s'.cap := by
    rw [← paddedLen_eq] at hout
    rw [hresult.inLen_eq hdelivers, State.cap, hcapr]
    simp only [List.length_append, List.length_singleton, hexEnc_length, hv, hcipher]
    exact hout
  obtain ⟨hkeyLen, -⟩ := id hsameKey
  refine decryptxDelivers s' _ _ _ _ _ hfits (hresult.input_eq hdelivers) (delim_notMem_hexEnc _) (hexDec_hexEnc _)
    (hexDec_hexEnc _) (hcipher ▸ paddedLen_pos _) (hcipher ▸ paddedLen_mod _) (hkeyLen.trans hkey) hv ?_
  rw [hsameKey.bytesAt_eq]
  exact unpad_cbcDec_cbcEnc_pad _ hk hv

/-! ### Law 3: the composites as sequences -/

section
variable {s t s' : State}

/-- PAD then CIPHENC has the result of ENCRYPT: the capacity that PAD asks for is ENCRYPT's too, and a padding is a
positive whole number of blocks. -/
theorem encrypt_sameResult_ciphenc (hkey : s.keyLen = 32#32) (hiv : s.ivLen = 16#32) (hpad : exec .pad s = .next t)
    (herr : t.err = false) (hsameKey : SameKey s s') (hsameIv : SameIv s s') (hcapr : s'.capr = s.capr)
    (hresult : InputIsResult t s') :
    ∃ u u', exec .encrypt s = .next u ∧ exec .ciphenc s' = .next u' ∧ u.status = 0x00000002#32 ∧
      SameResult u u' := by
  obtain ⟨r, hfits, hrule, hle, hdelivers⟩ := exists_rule_ok_delivers_of_exec hpad herr
  have hlen : r.length = paddedLen s.inLen.toNat :=
    (padRule_ok (operands_fit hfits) hrule).trans (paddedLen_eq _).symm
  have hout : paddedLen s.inLen.toNat ≤ s.cap := hlen ▸ hle
  obtain rfl : pad s.operands.input = r :=
    Except.ok.inj ((padRule_of_le ((paddedLen_eq _).symm.trans_le hout)).symm.trans hrule)
  have hencrypt := encryptRule_of_lengths (o := s.operands) hout (congrArg BitVec.toNat hkey)
    (congrArg BitVec.toNat hiv)
  have hinLen : s'.inLen.toNat = paddedLen s.inLen.toNat := (hresult.inLen_eq hdelivers).trans hlen
  have hfits' : s'.inLen.toNat ≤ s'.cap := by rwa [hinLen, State.cap, hcapr]
  obtain ⟨hkeyLen, -⟩ := id hsameKey
  obtain ⟨hivLen, -⟩ := id hsameIv
  have hciphenc : ruleOf .ciphenc s'.operands =
      .ok (cbcEnc s.operands.keyv s.operands.ivv (pad s.operands.input)) := by
    rw [ruleOf, ciphencRule_of_check (operands_cipherCheck_ok (hinLen ▸ paddedLen_pos _) (hinLen ▸ paddedLen_mod _)
      (hkeyLen.trans hkey) (hivLen.trans hiv))]
    simp only [State.operands, hresult.input_eq hdelivers, hsameKey.bytesAt_eq, hsameIv.bytesAt_eq]
  exact ⟨_, _, exec_of_rule hfits hencrypt, exec_of_rule hfits' hciphenc, rfl, complete_sameResult s s' _⟩

/-- CIPHDEC then UNPAD has the outcome of DECRYPT, which makes the same checks as CIPHDEC. -/
theorem decrypt_sameResult_unpad (hciphdec : exec .ciphdec s = .next t) (herr : t.err = false)
    (hcapr : s'.capr = s.capr) (hresult : InputIsResult t s') :
    ∃ u u', exec .decrypt s = .next u ∧ exec .unpad s' = .next u' ∧ SameResult u u' := by
  obtain ⟨r, hfits, hrule, hle, hdelivers⟩ := exists_rule_ok_delivers_of_exec hciphdec herr
  have hdecrypt : ruleOf .decrypt s.operands = unpad r := decryptRule_of_ciphdecRule_ok hrule
  have hunpad : ruleOf .unpad s'.operands = unpad r := congrArg unpad (hresult.input_eq hdelivers)
  have hfits' : s'.inLen.toNat ≤ s'.cap := by rwa [hresult.inLen_eq hdelivers, State.cap, hcapr]
  exact ⟨_, _, exec_of_rule hfits hdecrypt, exec_of_rule hfits' hunpad, complete_sameResult s s' _⟩

end

/-- Settles O49: each half is its lemma above. -/
theorem compositesAreSequences : Obligations.CompositesAreSequences :=
  ⟨fun _ _ _ hkey hiv hpad herr hsameKey hsameIv hcapr hinLen hbytes =>
      encrypt_sameResult_ciphenc hkey hiv hpad herr hsameKey hsameIv hcapr ⟨hinLen, hbytes⟩,
    fun _ _ _ hciphdec herr hcapr hinLen hbytes =>
      decrypt_sameResult_unpad hciphdec herr hcapr ⟨hinLen, hbytes⟩⟩

end Sys2Proof.Machine
end

section
/-! What can stop the machine (spec/60_exceptions.md R236, spec/30_encoding.md R86, spec/20_memory.md R58): nothing
but a host transaction that is not admitted. -/

namespace Sys2Proof.Machine

/-- The core's own step always goes on: a command in flight completes, whatever the word and the data (R86). -/
theorem safeStep_of_coreMoves {s : State} (hcore : coreMoves s = true) : SafeStep s :=
  ⟨s.complete (launchedOutcome s), by rw [step_of_coreMoves hcore, completeCommand_eq]⟩

/-- Of the host's inputs only a transaction can be refused. -/
theorem serveInput_next_iff (item : Input) (s : State) :
    (∃ t, serveInput item s = .next t) ↔ ∀ x : Txn, item = .txn x → x.admitted s.cap = true := by
  cases item with
  | txn x =>
    calc (∃ t, serveInput (.txn x) s = .next t)
      _ ↔ x.admitted s.cap = true := serveTxn_next_iff_admitted x s
      _ ↔ ∀ y : Txn, Input.txn x = .txn y → y.admitted s.cap = true := by simp
  | await | rdout | mvout | copyBack | reset => exact ⟨fun _ => nofun, fun _ => ⟨_, rfl⟩⟩

/-- When the host moves, the step goes on unless the first input is a transaction that is not admitted (R58). -/
theorem safeStep_iff_of_stalled {s : State} (hcore : coreMoves s = false) :
    SafeStep s ↔ ∀ x rest, s.inputs = .txn x :: rest → x.admitted s.cap = true := by
  cases hin : s.inputs with
  | nil => exact ⟨fun _ => nofun, fun _ => ⟨s, step_of_stalled_nil hcore hin⟩⟩
  | cons item rest =>
    have hserve := serveInput_next_iff item (s.takeInput rest)
    rw [← step_of_stalled_cons hcore hin] at hserve
    refine hserve.trans ⟨fun h x _ heq => ?_, fun h x hitem => ?_⟩
    · obtain ⟨hitem, -⟩ := List.cons.inj heq
      exact h x hitem
    · exact h x rest (by rw [hitem])

/-- Settles O14, by which agent moves: the core's completion always goes on, and the host's step goes on unless its
first input is a transaction that is not admitted. -/
theorem onlyNotAdmittedStops : Obligations.OnlyNotAdmittedStops := by
  intro s
  cases hcore : coreMoves s with
  | true => simp [safeStep_of_coreMoves hcore]
  | false => simp [safeStep_iff_of_stalled hcore]

end Sys2Proof.Machine
end

section
/-! The failure codes (spec/60_exceptions.md R221, R222, spec/43_cbc_cipher.md R177): which of them the core raises,
and that no two are equal. -/

namespace Sys2Proof.Machine

/-- The three codes of R221 that the core never raises (R177, R222). -/
def reservedCodes : List ECode := [.internal, .utf8, .io]

theorem mem_coreCodes_iff (c : ECode) : c ∈ coreCodes ↔ c.raisedByCore = true := by
  refine ⟨raisedByCore_of_mem_coreCodes, fun h => ?_⟩
  cases c with
  | internal | utf8 | io => exact absurd h Bool.false_ne_true
  | _ => decide

theorem mem_reservedCodes_iff (c : ECode) : c ∈ reservedCodes ↔ c.raisedByCore = false := by
  cases c <;> decide

theorem mem_coreCodes_append_reservedCodes (c : ECode) : c ∈ coreCodes ++ reservedCodes := by
  rw [List.mem_append, mem_coreCodes_iff, mem_reservedCodes_iff]
  exact Bool.eq_false_or_eq_true _

/-- The seventeen numbers of the table of R221 are pairwise different. -/
theorem code_injective : Function.Injective ECode.code := fun c d h =>
  have hnodup : ((coreCodes ++ reservedCodes).map ECode.code).Nodup := by decide
  List.inj_on_of_nodup_map hnodup (mem_coreCodes_append_reservedCodes c) (mem_coreCodes_append_reservedCodes d) h

/-- A command in flight that completes with `ERR` = 1 completes with one of the core's codes (R221, R230): its
outcome is no success, and every failure among the outcomes is admissible. -/
theorem completeCommand_fails_of_err {s t : State} (h : completeCommand s = .next t) (herr : t.err = true) :
    ∃ c ∈ coreCodes, t = s.failWith c := by
  obtain rfl : s.complete (launchedOutcome s) = t := by simpa [completeCommand_eq] using h
  obtain ⟨r, -, hsuccess⟩ | ⟨c, houtcome, hfail⟩ := complete_cases s (launchedOutcome s)
  · rw [hsuccess, succeedWith_err] at herr
    exact absurd herr Bool.false_ne_true
  · have hcode := launchedOutcome_admissible s
    rw [houtcome, admissible_error] at hcode
    exact ⟨c, hcode, hfail⟩

/-- Settles O19: a failure of the word in flight is `failWith` of an admissible code; the numbers are those of the
table. -/
theorem onlyTheFourteenCodes : Obligations.OnlyTheFourteenCodes := by
  refine ⟨fun s t h herr => ?raised, fun _ _ h => code_injective h, rfl,
    fun c => (mem_coreCodes_iff c).symm, rfl, rfl⟩
  case raised =>
    obtain ⟨c, hc, rfl⟩ := completeCommand_fails_of_err h herr
    exact ⟨c, raisedByCore_of_mem_coreCodes hc, failWith_fails s c, ecodeField_statusFailure c⟩

end Sys2Proof.Machine
end

section
/-! The external reset (spec/70_reset_and_hazards.md R260, R261): what the rules give of every window after it, and
that it leaves the core nothing to complete. -/

namespace Sys2Proof.Machine

/-- No window lists a byte after a reset, so each reads as an unlisted index does. -/
@[simp] theorem hardReset_specifiedByte (s : State) (sp : Space) (i : Nat) :
    s.hardReset.specifiedByte sp i = unlisted sp :=
  specifiedByte_of_cells_nil (by cases sp <;> rfl) i

/-- The command in flight is abandoned (R261). -/
@[simp] theorem hardReset_coreMoves (s : State) : coreMoves s.hardReset = false :=
  coreMoves_eq_false_of_idle (hardReset_busy s)

/-- Settles O51: the reset input is answered by `hardReset`, whose windows are empty and whose core is idle, whatever
the state before it. -/
theorem externalReset : Obligations.ExternalReset := fun s =>
  ⟨s.hardReset, rfl,
    hardReset_specifiedByte s .key, hardReset_keyLen s,
    hardReset_specifiedByte s .iv, hardReset_ivLen s,
    hardReset_specifiedByte s .inp, hardReset_inLen s,
    hardReset_specifiedByte s .out, hardReset_outLen s,
    hardReset_cmdr s, hardReset_status s, hardReset_capr s,
    hardReset_inputs s, hardReset_replies s, hardReset_coreMoves s⟩

end Sys2Proof.Machine
end
